-- ==== Sys2Proof/Word.lean ====
section
/-! DEFINITION. The bit-vector types of FPLC (spec/00_scope.md R6). Values the spec treats as bits, or
on which it computes modulo 2^64 (R7), are `BitVec`; everything else has a type of its own. -/

namespace Sys2Proof

/-- A `u64` or `s64` (spec/00_scope.md R6): 64 bits, read unsigned with `toNat`, signed with `toInt`. -/
abbrev Word := BitVec 64

/-- An emitted symbol: an 8-bit ASCII code point (spec/00_scope.md R6, spec/30_encoding.md R83). -/
abbrev Sym := BitVec 8

/-- The 6-bit quantity a symbol stands for (spec/40_varint.md R103). -/
abbrev Quantity := BitVec 6

/-- One operation word as the host presents it: exactly 200 bits (spec/30_encoding.md R80). -/
abbrev OpWord := BitVec 200

end Sys2Proof
end

