-- ==== Sys2Proof/Syntax.lean ====
section
/-! DEFINITION. The ten operations of FPLC (spec/30_encoding.md R82; spec/opcode_table.json, one
constructor of `Instr` per row), their operand-use formats (R81) and the assembler line (R88).
The 246 undefined opcodes (R85) are no rows of the table and no constructors: the decoder rejects
them by name and the step answers them (log 9). -/

namespace Sys2Proof

/-- One operation with the operand fields its format reads (spec/30_encoding.md R81, R82, R90).
A field the format does not read is not part of the operation. -/
inductive Instr where
  | zze    (a : Word)
  | zzd    (a : Word)
  | uenc   (a : Word)
  | estart (a b c : Word)
  | epoint (a b c : Word)
  | eend
  | dstart
  | dsym   (a : Word)
  | dend
  | rdreg  (a : Word)
deriving DecidableEq, Repr

/-- The ten mnemonics of spec/30_encoding.md R82. -/
inductive Mnemonic where
  | zze | zzd | uenc | estart | epoint | eend | dstart | dsym | dend | rdreg
deriving DecidableEq, Repr

/-- Operand-use formats (spec/30_encoding.md R81). -/
inductive Format where
  | n | a | abc
deriving DecidableEq, Repr

/-- The unit an operation works on (spec/30_encoding.md R82, column `unit`). -/
inductive CodecUnit where
  | enc | dec
deriving DecidableEq, Repr

/-- The mnemonic of an operation (spec/30_encoding.md R82). -/
def Instr.mnemonic : Instr → Mnemonic
  | .zze _ => .zze
  | .zzd _ => .zzd
  | .uenc _ => .uenc
  | .estart _ _ _ => .estart
  | .epoint _ _ _ => .epoint
  | .eend => .eend
  | .dstart => .dstart
  | .dsym _ => .dsym
  | .dend => .dend
  | .rdreg _ => .rdreg

/-- The operand-use format of each operation (spec/30_encoding.md R81). -/
def Mnemonic.format : Mnemonic → Format
  | .eend | .dstart | .dend => .n
  | .zze | .zzd | .uenc | .dsym | .rdreg => .a
  | .estart | .epoint => .abc

/-- The unit whose registers an operation reads and writes; `none` for the stateless operations and
for RDREG (spec/30_encoding.md R82). -/
def Mnemonic.codecUnit : Mnemonic → Option CodecUnit
  | .estart | .epoint | .eend => some .enc
  | .dstart | .dsym | .dend => some .dec
  | .zze | .zzd | .uenc | .rdreg => none

/-- How many operands a format reads, in the order `a`, `b`, `c` (spec/30_encoding.md R81, R88). -/
def Format.operandCount : Format → Nat
  | .n => 0
  | .a => 1
  | .abc => 3

/-- An operation as spec/30_encoding.md R88 writes it: a mnemonic and the operands its format reads,
each a number. The text of a listing (commas, quotes, `0x`) is not modelled (log 18). -/
structure AsmLine where
  op : Mnemonic
  operands : List Int
deriving DecidableEq, Repr

end Sys2Proof
end

