-- ==== Sys2Proof/Machine/State.lean ====
section
/-! DEFINITION. The state of one FPLC instance (spec/10_state.md R20, R21), its ports, and its reset
value (R49, spec/70_reset_and_hazards.md R230). The block has no memory the host or an operation
can write; its two tables are constants of Machine/Tables.lean (spec/20_memory.md R60), and the
hardwired `CFG_VERSION` is a constant of Config.lean (log 7). -/

namespace Sys2Proof.Machine

/-- Status codes (spec/60_exceptions.md R200): a closed list. The numbers are `statusCode` in
Machine/Operands.lean. -/
inductive Status where
  | ok
  | invalidPrecision
  | invalidKind
  | reservedKind
  | unsupportedVersion
  | invalidSymbol
  | truncatedPoint
  | unterminatedValue
  | illegalOp
  | badSequence
  | badRegister
deriving DecidableEq, Repr

/-- Event codes of a response (spec/30_encoding.md R84); value 3 is never produced. -/
inductive Event where
  | none
  | header
  | point
deriving DecidableEq, Repr

/-- `ENC_ST` (spec/10_state.md R22); value 3 is never produced (spec/93_implementation_defined.md U7). -/
inductive EncSt where
  | idle
  | active
  | failed
deriving DecidableEq, Repr

/-- The phases of an open decode transaction (spec/00_scope.md glossary, spec/10_state.md R31). -/
inductive Phase where
  | version
  | header
  | lat
  | lng
  | z
deriving DecidableEq, Repr

/-- `DEC_ST` (spec/10_state.md R31); value 6 is never produced (spec/93_implementation_defined.md U7). -/
inductive DecSt where
  | idle
  | inPhase (p : Phase)
  | failed
deriving DecidableEq, Repr

/-- The eight registers of unit ENC (spec/10_state.md R21, R22 to R25). -/
structure EncRegs where
  st   : EncSt
  err  : Status
  p2   : BitVec 4
  kind : BitVec 3
  p3   : BitVec 4
  plat : Word
  plng : Word
  pz   : Word
deriving DecidableEq, Repr

/-- The fourteen registers of unit DEC (spec/10_state.md R21, R31 to R39, R45). -/
structure DecRegs where
  st    : DecSt
  err   : Status
  ver   : Word
  p2    : BitVec 4
  kind  : BitVec 3
  p3    : Word
  lat   : Word
  lng   : Word
  z     : Word
  vacc  : Word
  shift : BitVec 7
  flags : BitVec 2
  pos   : Word
  npts  : Word
deriving DecidableEq, Repr

/-- The response record (spec/30_encoding.md R83). Field `n` is `responseCount` of Machine/Ops.lean,
computed from `syms` (log 8). -/
structure Response where
  st   : Status
  ev   : Event
  syms : List Sym
  r0   : Word
  r1   : Word
  r2   : Word
deriving DecidableEq, Repr

/-- What the host can do to the block between two operations (spec/44_system_and_host.md R194):
present an operation word, or assert reset (spec/70_reset_and_hazards.md R230). -/
inductive HostInput where
  | word (w : OpWord)
  | reset
deriving DecidableEq, Repr

/-- The registers of the block and its two ports. `pending` is the host's finite sequence of inputs
not yet presented (spec/00_scope.md R9; log 1); `resp` is the response of the operation performed
last (spec/30_encoding.md R83; log 3). Both are the model's own fields, no registers of the spec. -/
structure State where
  enc     : EncRegs
  dec     : DecRegs
  pending : List HostInput
  resp    : Option Response
deriving DecidableEq, Repr

/-- Nothing stops the block: `step` is a total function (spec/00_scope.md R9) and every error is the
status of a response (spec/60_exceptions.md R200), so there is no fault (log 11). -/
inductive Fault where
deriving DecidableEq, Repr

/-- Refusals of the model. -/
inductive Refusal where
  /-- An operation that has no meaning in the model yet, by its mnemonic; raised only in an arm of
  `exec`, and by none now. Safe: the model stops where the hardware goes on. -/
  | notModelled (mnemonic : String)
deriving DecidableEq, Repr

/-- The reset column of ENC (spec/10_state.md R21, R49). -/
def EncRegs.reset : EncRegs :=
  { st := .idle, err := .ok, p2 := 0, kind := 0, p3 := 0, plat := 0, plng := 0, pz := 0 }

/-- The reset column of DEC (spec/10_state.md R21, R49). -/
def DecRegs.reset : DecRegs :=
  { st := .idle, err := .ok, ver := 0, p2 := 0, kind := 0, p3 := 0, lat := 0, lng := 0, z := 0,
    vacc := 0, shift := 0, flags := 0, pos := 0, npts := 0 }

/-- The machine right after reset (spec/10_state.md R49, spec/70_reset_and_hazards.md R230): every
register at its reset value; the ports empty (DESIGN CHOICE, log 1 and log 3). -/
def State.reset : State :=
  { enc := EncRegs.reset, dec := DecRegs.reset, pending := [], resp := none }

end Sys2Proof.Machine
end

