-- ==== Sys2Proof/Machine/Flags.lean ====
section
/-! DEFINITION. `DEC_FLAGS`, the block's only flags (spec/10_state.md R45): bit 0 `HV`, bit 1 `OVF`.
Both are set by DSYM and cleared only by DSTART and reset. -/

namespace Sys2Proof.Machine

/-- `HV`, header valid: bit 0 (spec/10_state.md R45). -/
def flagHV (f : BitVec 2) : Bool := f.getLsbD 0

/-- `OVF`, value overflow, sticky: bit 1 (spec/10_state.md R45). -/
def flagOVF (f : BitVec 2) : Bool := f.getLsbD 1

/-- `HV <- 1` (spec/43_point_stream.md R160, phase HEADER). -/
def setHV (f : BitVec 2) : BitVec 2 := f ||| 0b01#2

/-- `OVF <- 1` when a dropped bit is 1, otherwise `OVF` keeps its value (spec/40_varint.md R105, R106). -/
def orOVF (dropped : Bool) (f : BitVec 2) : BitVec 2 := if dropped then f ||| 0b10#2 else f

end Sys2Proof.Machine
end

