-- ==== Sys2Proof/Config.lean ====
section
/-! DEFINITION. The parameters this hardware fixes (spec/00_scope.md R5). None is left open inside the
block; the one free value stands outside it, in the host (log 21). -/

namespace Sys2Proof.Config

/-- `CFG_VERSION`, hardwired to `FORMAT_VERSION` = 1 (spec/10_state.md R40, spec/00_scope.md R5). -/
def cfgVersion : Word := 1

/-- `PREC_MAX`, the largest legal precision on encode (spec/00_scope.md R5). -/
def precMax : Word := 15

/-- The largest 3-bit kind, 2^`KIND_BITS` - 1 (spec/00_scope.md R5, spec/42_header.md R135). -/
def kindMax : Word := 7

/-- `MAX_SYMS_PER_VALUE`, the longest varint the encoder emits (spec/00_scope.md R5, spec/40_varint.md R101). -/
def maxSymsPerValue : Nat := 13

/-- `CHUNK_BITS`, payload bits of one symbol (spec/00_scope.md R5). -/
def chunkBits : Nat := 5

/-- The value at which `DEC_SHIFT` saturates: "64 or more" (spec/10_state.md R37). -/
def shiftMax : Nat := 65

/-- `INV_BASE`, the lowest code point of the inverse table (spec/00_scope.md R5). -/
def invBase : Nat := 45

/-- The highest code point of the inverse table, `INV_BASE + INV_SIZE - 1` (spec/20_memory.md R62). -/
def invLast : Nat := 122

/-- What a host makes of a third value when the decoded precision3D is above 15: free, because the
scale factor is defined up to 15 only and the spec says to take any value
(spec/93_implementation_defined.md U4, spec/44_system_and_host.md R191; DESIGN CHOICE, log 21). The
arguments are the precision3D and the integer third value. -/
opaque hostThirdAbovePrecMax : Word → Word → ℚ

/-- ThirdDimensionKind (spec/10_state.md R26): the numbers of the eight kinds. -/
def kindAbsent : BitVec 3 := 0
/-- Kind 1, level (spec/10_state.md R26). -/
def kindLevel : BitVec 3 := 1
/-- Kind 2, altitude (spec/10_state.md R26). -/
def kindAltitude : BitVec 3 := 2
/-- Kind 3, elevation (spec/10_state.md R26). -/
def kindElevation : BitVec 3 := 3
/-- Kind 4, reserved-1: refused by ESTART, accepted on decode (spec/10_state.md R26). -/
def kindReserved1 : BitVec 3 := 4
/-- Kind 5, reserved-2: refused by ESTART, accepted on decode (spec/10_state.md R26). -/
def kindReserved2 : BitVec 3 := 5
/-- Kind 6, custom-1 (spec/10_state.md R26). -/
def kindCustom1 : BitVec 3 := 6
/-- Kind 7, custom-2 (spec/10_state.md R26). -/
def kindCustom2 : BitVec 3 := 7

end Sys2Proof.Config
end

