-- ==== Sys2Proof/WellFormed.lean ====
section
/-! DEFINITION. Well-formedness. An `Instr` needs no check: every operand is a 64-bit field as it
stands and every value of it is representable (spec/30_encoding.md R90); legality of a value is
decided by the operation itself and answered in its response. What can be ill formed is an
assembler line (R88): it may have the wrong number of operands, or an operand with no 64-bit
pattern. Each check has a name. -/

namespace Sys2Proof

/-- Why an assembler line is refused (spec/30_encoding.md R88). -/
inductive AsmError where
  /-- the number of operands is not the number the mnemonic's format reads (R81) -/
  | operandCount
  /-- an operand below -2^63 or above 2^64 - 1 has no 64-bit pattern (R88, R90; log 18) -/
  | operandRange
deriving DecidableEq, Repr

/-- A number that has a 64-bit pattern: a negative one as two's complement, any other unsigned
(spec/30_encoding.md R88). -/
def asmOperandOk (v : Int) : Bool := decide (-(2 ^ 63 : Int) ≤ v) && decide (v < (2 ^ 64 : Int))

/-- The first check an assembler line fails, `none` when it passes both. -/
def AsmLine.error? (l : AsmLine) : Option AsmError :=
  if l.operands.length ≠ l.op.format.operandCount then some .operandCount
  else if l.operands.all asmOperandOk then none
  else some .operandRange

/-- An assembler line is well formed when no check refuses it. -/
def AsmLine.wf (l : AsmLine) : Bool := decide (l.error? = none)

end Sys2Proof
end

