-- ==== Sys2Proof/Decode.lean ====
section
/-! DEFINITION. The decoder, total on every 200-bit word and rejecting by name, and the encoder
written from the same tables (spec/30_encoding.md R80, R81, R82, R85, R88). -/

namespace Sys2Proof

/-- Why a word is no operation (spec/30_encoding.md R85). -/
inductive DecodeError where
  /-- the opcode field holds none of the ten opcodes of R82; the step answers `IllegalOp` (R181) -/
  | undefinedOpcode (opcode : BitVec 8)
deriving DecidableEq, Repr

/-- Field `opcode`, bits 7:0 (spec/30_encoding.md R80). -/
def opcodeField (w : OpWord) : BitVec 8 := w.extractLsb' 0 8

/-- Field `a`, bits 71:8 (spec/30_encoding.md R80). -/
def fieldA (w : OpWord) : Word := w.extractLsb' 8 64

/-- Field `b`, bits 135:72 (spec/30_encoding.md R80). -/
def fieldB (w : OpWord) : Word := w.extractLsb' 72 64

/-- Field `c`, bits 199:136 (spec/30_encoding.md R80). -/
def fieldC (w : OpWord) : Word := w.extractLsb' 136 64

/-- The opcode map (spec/30_encoding.md R82); every other value is undefined (R85). -/
def mnemonicOfOpcode (op : BitVec 8) : Option Mnemonic :=
  match op.toNat with
  | 0x01 => some .zze
  | 0x02 => some .zzd
  | 0x03 => some .uenc
  | 0x10 => some .estart
  | 0x11 => some .epoint
  | 0x12 => some .eend
  | 0x20 => some .dstart
  | 0x21 => some .dsym
  | 0x22 => some .dend
  | 0x30 => some .rdreg
  | _ => none

/-- The operation a mnemonic and the three operand fields stand for: unread fields are ignored
(spec/30_encoding.md R81). -/
def buildInstr (a b c : Word) : Mnemonic → Instr
  | .zze => .zze a
  | .zzd => .zzd a
  | .uenc => .uenc a
  | .estart => .estart a b c
  | .epoint => .epoint a b c
  | .eend => .eend
  | .dstart => .dstart
  | .dsym => .dsym a
  | .dend => .dend
  | .rdreg => .rdreg a

/-- Decode one operation word (spec/30_encoding.md R80 to R82, R85). -/
def decode (w : OpWord) : Except DecodeError Instr :=
  match mnemonicOfOpcode (opcodeField w) with
  | some m => .ok (buildInstr (fieldA w) (fieldB w) (fieldC w) m)
  | none => .error (.undefinedOpcode (opcodeField w))

/-- The opcode of each mnemonic (spec/30_encoding.md R82). -/
def Mnemonic.opcode : Mnemonic → BitVec 8
  | .zze => 0x01
  | .zzd => 0x02
  | .uenc => 0x03
  | .estart => 0x10
  | .epoint => 0x11
  | .eend => 0x12
  | .dstart => 0x20
  | .dsym => 0x21
  | .dend => 0x22
  | .rdreg => 0x30

/-- One operation word from its four fields (spec/30_encoding.md R80). -/
def packWord (op : BitVec 8) (a b c : Word) : OpWord := c ++ (b ++ (a ++ op))

/-- Encode an operation: unread fields are assembled as 0 (spec/30_encoding.md R88). -/
def encode (i : Instr) : OpWord :=
  match i with
  | .zze a => packWord i.mnemonic.opcode a 0 0
  | .zzd a => packWord i.mnemonic.opcode a 0 0
  | .uenc a => packWord i.mnemonic.opcode a 0 0
  | .estart a b c => packWord i.mnemonic.opcode a b c
  | .epoint a b c => packWord i.mnemonic.opcode a b c
  | .eend => packWord i.mnemonic.opcode 0 0 0
  | .dstart => packWord i.mnemonic.opcode 0 0 0
  | .dsym a => packWord i.mnemonic.opcode a 0 0
  | .dend => packWord i.mnemonic.opcode 0 0 0
  | .rdreg a => packWord i.mnemonic.opcode a 0 0

/-- A word as an assembler writes it: every field its operation does not read is 0
(spec/30_encoding.md R81, R88). An undefined word reads no field. -/
def canonicalWord (w : OpWord) : Bool :=
  match (mnemonicOfOpcode (opcodeField w)).map Mnemonic.format with
  | some .abc => true
  | some .a => fieldB w == 0 && fieldC w == 0
  | some .n => fieldA w == 0 && fieldB w == 0 && fieldC w == 0
  | none => fieldA w == 0 && fieldB w == 0 && fieldC w == 0

/-- The operation an assembler line stands for: operands in the order `a`, `b`, `c`, a negative
number as its two's complement pattern, operands not written as 0 (spec/30_encoding.md R88). -/
def assemble (l : AsmLine) : Except AsmError Instr :=
  match l.error? with
  | some e => .error e
  | none =>
    let field (k : Nat) : Word := BitVec.ofInt 64 (l.operands.getD k 0)
    .ok (buildInstr (field 0) (field 1) (field 2) l.op)

/-- The operation word whose bits are `w`, of which the low `nbits` are given: every bit above
`nbits` is 0, and a word has 200 bits (spec/30_encoding.md R80; log 19). -/
def wordOfBits (nbits w : Nat) : OpWord := BitVec.ofNat 200 (w % 2 ^ nbits)

/-- The operation the decoder reads from the bits `w`, `none` where it refuses. -/
def decodeTableWord (nbits w : Nat) : Option Instr :=
  match decode (wordOfBits nbits w) with
  | .ok i => some i
  | .error _ => none

end Sys2Proof
end

