-- ==== Sys2Proof/Machine/Operands.lean ====
section
/-! DEFINITION. How operands and register values are read: the field slices of the header operands
(spec/42_header.md R136), payload and continuation bit of a quantity (spec/40_varint.md R103), the
numbers of the enumerated values (spec/10_state.md R22, R31; spec/60_exceptions.md R200;
spec/30_encoding.md R84), and zero extension (spec/00_scope.md R8). Every operand of an operation
is the 64-bit field as it stands (spec/30_encoding.md R90). -/

namespace Sys2Proof.Machine

/-- `a[3:0]` of a precision operand (spec/42_header.md R136). -/
def precisionBits (v : Word) : BitVec 4 := v.extractLsb' 0 4

/-- `b[2:0]` of the kind operand (spec/42_header.md R136). -/
def kindBits (v : Word) : BitVec 3 := v.extractLsb' 0 3

/-- `zext_64` (spec/00_scope.md R8). -/
def zext64 {n : Nat} (v : BitVec n) : Word := v.setWidth 64

/-- The payload `q[4:0]` (spec/40_varint.md R103). -/
def payload (q : Quantity) : BitVec 5 := q.extractLsb' 0 5

/-- The continuation bit `q[5]`, mask `0x20` (spec/40_varint.md R103). -/
def continues (q : Quantity) : Bool := q.getLsbD 5

/-- The numbers of the status codes (spec/60_exceptions.md R200). -/
def statusCode : Status → BitVec 8
  | .ok => 0x00
  | .invalidPrecision => 0x01
  | .invalidKind => 0x02
  | .reservedKind => 0x03
  | .unsupportedVersion => 0x04
  | .invalidSymbol => 0x05
  | .truncatedPoint => 0x06
  | .unterminatedValue => 0x07
  | .illegalOp => 0x80
  | .badSequence => 0x81
  | .badRegister => 0x82

/-- The unit whose latch an error code enters, `none` for `OK` and the protocol codes
(spec/60_exceptions.md R200, column `latched`). -/
def latchUnit : Status → Option CodecUnit
  | .invalidPrecision | .invalidKind | .reservedKind => some .enc
  | .unsupportedVersion | .invalidSymbol | .truncatedPoint | .unterminatedValue => some .dec
  | .ok | .illegalOp | .badSequence | .badRegister => none

/-- The numbers of the event codes (spec/30_encoding.md R84). -/
def eventCode : Event → BitVec 2
  | .none => 0
  | .header => 1
  | .point => 2

/-- The numbers of `ENC_ST` (spec/10_state.md R22). -/
def encStCode : EncSt → BitVec 2
  | .idle => 0
  | .active => 1
  | .failed => 2

/-- The numbers of `DEC_ST` (spec/10_state.md R31). -/
def decStCode : DecSt → BitVec 3
  | .idle => 0
  | .inPhase .version => 1
  | .inPhase .header => 2
  | .inPhase .lat => 3
  | .inPhase .lng => 4
  | .inPhase .z => 5
  | .failed => 7

end Sys2Proof.Machine
end

