-- ==== Sys2Proof/Machine/Ops.lean ====
section
/-! DEFINITION. The shared operations: answering, raising an error (this block's exception entry,
spec/60_exceptions.md R210, R211), replaying a latched error (R213), reading a register by number
(spec/10_state.md R21), taking the next host input, and reset (spec/70_reset_and_hazards.md R230).
There is no return-from-error operation (spec/60_exceptions.md R214): ENC leaves FAILED by a
successful ESTART, DEC by DSTART, either by reset. -/

namespace Sys2Proof.Machine

/-- A response with status `OK` and every other field 0 or empty (spec/30_encoding.md R83). -/
def okResponse : Response :=
  { st := .ok, ev := .none, syms := [], r0 := 0, r1 := 0, r2 := 0 }

/-- The shape of an error response: the code, the values R200 lists for it, all else 0 or empty
(spec/60_exceptions.md R211). -/
def errorResponse (e : Status) (r0 r1 : Word) : Response :=
  { st := e, ev := .none, syms := [], r0 := r0, r1 := r1, r2 := 0 }

/-- Response field `n`, the number of symbols, 6 bits (spec/30_encoding.md R83, spec/00_scope.md R8). -/
def responseCount (r : Response) : BitVec 6 := BitVec.ofNat 6 r.syms.length

/-- Deliver the response of the operation just performed (spec/30_encoding.md R83). -/
def respond (r : Response) (s : State) : State := { s with resp := some r }

/-- The latch: a latched code puts its unit in FAILED and is kept there; a protocol code changes no
register (spec/60_exceptions.md R200, R210). -/
def latch (e : Status) (s : State) : State :=
  match latchUnit e with
  | some .enc => { s with enc := { s.enc with st := .failed, err := e } }
  | some .dec => { s with dec := { s.dec with st := .failed, err := e } }
  | none => s

/-- `raise E(info)`: the one way an operation ends in an error that it detects
(spec/00_scope.md R8, spec/60_exceptions.md R210, R211). -/
def raise (e : Status) (r0 r1 : Word) (s : State) : State :=
  respond (errorResponse e r0 r1) (latch e s)

/-- A latched code answered again by an operation of a FAILED unit: no register is written and no
value is carried (spec/60_exceptions.md R210, R211, R213). -/
def replay (e : Status) (s : State) : State := respond (errorResponse e 0 0) s

/-- An undefined opcode: nothing changes, `r0` is the opcode (spec/30_encoding.md R85,
spec/44_system_and_host.md R181). -/
def illegalOp (opcode : BitVec 8) (s : State) : State := raise .illegalOp (zext64 opcode) 0 s

/-- The answer to a word the decoder rejects (spec/30_encoding.md R85). -/
def answerRejected (e : DecodeError) (s : State) : State :=
  match e with
  | .undefinedOpcode op => illegalOp op s

/-- The register map: `x[a]` zero-extended to 64 bits, `none` when `a` is no register index
(spec/10_state.md R21, spec/44_system_and_host.md R180). All 64 bits of `a` are compared. -/
def readReg (a : Word) (s : State) : Option Word :=
  match a.toNat with
  | 0x00 => some (zext64 (encStCode s.enc.st))
  | 0x01 => some (zext64 (statusCode s.enc.err))
  | 0x02 => some (zext64 s.enc.p2)
  | 0x03 => some (zext64 s.enc.kind)
  | 0x04 => some (zext64 s.enc.p3)
  | 0x05 => some s.enc.plat
  | 0x06 => some s.enc.plng
  | 0x07 => some s.enc.pz
  | 0x10 => some (zext64 (decStCode s.dec.st))
  | 0x11 => some (zext64 (statusCode s.dec.err))
  | 0x12 => some s.dec.ver
  | 0x13 => some (zext64 s.dec.p2)
  | 0x14 => some (zext64 s.dec.kind)
  | 0x15 => some s.dec.p3
  | 0x16 => some s.dec.lat
  | 0x17 => some s.dec.lng
  | 0x18 => some s.dec.z
  | 0x19 => some s.dec.vacc
  | 0x1A => some (zext64 s.dec.shift)
  | 0x1B => some (zext64 s.dec.flags)
  | 0x1C => some s.dec.pos
  | 0x1D => some s.dec.npts
  | 0x20 => some Config.cfgVersion
  | _ => none

/-- Take the host's next input, with the state that is left (spec/20_memory.md R70; log 1). -/
def fetch (s : State) : Option (HostInput × State) :=
  match s.pending with
  | [] => none
  | i :: rest => some (i, { s with pending := rest })

/-- The reset event: every register at its reset value, no response; what the host will present
afterwards is the host's (spec/70_reset_and_hazards.md R230; log 4). -/
def applyReset (s : State) : State := { State.reset with pending := s.pending }

end Sys2Proof.Machine
end

