-- ==== Sys2Proof/Machine/Tables.lean ====
section
/-! DEFINITION. The two constant tables, the only memories of the block (spec/20_memory.md R60 to
R62), each written out entry by entry from the spec's tables, and the symbol lookup of
spec/40_varint.md R104. -/

namespace Sys2Proof.Machine

/-- Table `ALPHA`: the ASCII code point of each 6-bit quantity, index 0 first (spec/20_memory.md R61). -/
def alphaTable : Vector Sym 64 :=
  #v[65, 66, 67, 68, 69, 70, 71, 72, 73, 74, 75, 76, 77, 78, 79, 80,
     81, 82, 83, 84, 85, 86, 87, 88, 89, 90, 97, 98, 99, 100, 101, 102,
     103, 104, 105, 106, 107, 108, 109, 110, 111, 112, 113, 114, 115, 116, 117, 118,
     119, 120, 121, 122, 48, 49, 50, 51, 52, 53, 54, 55, 56, 57, 45, 95]

/-- A valid entry of `INV`: bit 6 set, bits 5:0 the quantity (spec/20_memory.md R62). -/
def invValid (q : Quantity) : BitVec 7 := 1#1 ++ q

/-- An unused entry of `INV`: bit 6 clear, quantity 0 (spec/20_memory.md R62). -/
def invUnused : BitVec 7 := 0

/-- Table `INV`: index `j` stands for code point `j + 45` (spec/20_memory.md R62). -/
def invTable : Vector (BitVec 7) 78 :=
  #v[invValid 62, invUnused, invUnused,
     invValid 52, invValid 53, invValid 54, invValid 55, invValid 56,
     invValid 57, invValid 58, invValid 59, invValid 60, invValid 61,
     invUnused, invUnused, invUnused, invUnused, invUnused, invUnused, invUnused,
     invValid 0, invValid 1, invValid 2, invValid 3, invValid 4, invValid 5, invValid 6,
     invValid 7, invValid 8, invValid 9, invValid 10, invValid 11, invValid 12, invValid 13,
     invValid 14, invValid 15, invValid 16, invValid 17, invValid 18, invValid 19, invValid 20,
     invValid 21, invValid 22, invValid 23, invValid 24, invValid 25,
     invUnused, invUnused, invUnused, invUnused, invValid 63, invUnused,
     invValid 26, invValid 27, invValid 28, invValid 29, invValid 30, invValid 31, invValid 32,
     invValid 33, invValid 34, invValid 35, invValid 36, invValid 37, invValid 38, invValid 39,
     invValid 40, invValid 41, invValid 42, invValid 43, invValid 44, invValid 45, invValid 46,
     invValid 47, invValid 48, invValid 49, invValid 50, invValid 51]

/-- `MemRead(ALPHA, q, 1)`: a 6-bit index is always in range (spec/20_memory.md R65, R66). -/
def alpha (q : Quantity) : Sym := alphaTable[q.toNat]

/-- `MemRead(INV, j, 1)` for an index in range (spec/20_memory.md R65, R66). -/
def inv (j : Fin 78) : BitVec 7 := invTable[j]

/-- The two tables are inverse to each other: every code point of `ALPHA` is found in `INV` as a valid
entry with its index, and every valid entry of `INV` names the symbol of its code point
(spec/20_memory.md R63). -/
def TablesInverse : Prop :=
  (∀ q : Quantity, 45 ≤ (alpha q).toNat ∧ invTable[(alpha q).toNat - 45]? = some (invValid q)) ∧
  (∀ j : Fin 78, (inv j).getLsbD 6 = true → (alpha ((inv j).extractLsb' 0 6)).toNat = j.val + 45)

/-- The lemma spec/20_memory.md R63 asks for, checked by evaluation of every entry. -/
theorem tables_inverse : TablesInverse := by
  unfold TablesInverse
  decide

/-- `lookup(c)`: the quantity of a code point, `none` when it is outside the table's range or
unused; all 64 bits take part (spec/40_varint.md R104). -/
def lookup (c : Word) : Option Quantity :=
  if h : Config.invBase ≤ c.toNat ∧ c.toNat ≤ Config.invLast then
    let e := inv ⟨c.toNat - 45, by simp only [Config.invBase, Config.invLast] at h; omega⟩
    if e.getLsbD 6 then some (e.extractLsb' 0 6) else none
  else none

end Sys2Proof.Machine
end

