-- ==== Sys2Proof/Machine/Varint.lean ====
section
/-! DEFINITION. The varint codec (spec/40_varint.md): the encoder, the per-symbol decoding step, the
reference decoder on a complete sequence, and operation UENC. -/

namespace Sys2Proof.Machine

/-- The loop of `encodeUnsigned` (spec/40_varint.md R100) with at most `fuel` more symbols. -/
def encodeChunks : (fuel : Nat) → (v : Word) → List Sym
  | 0, _ => []
  | fuel + 1, v =>
    let chunk : BitVec 5 := v.extractLsb' 0 5
    let v' := v >>> 5
    if v' ≠ 0 then alpha (1#1 ++ chunk) :: encodeChunks fuel v'
    else [alpha (0#1 ++ chunk)]

/-- `encodeUnsigned(value)` (spec/40_varint.md R100). A 64-bit value never needs more than 13
symbols (R101), so the bound never cuts the loop short (log 10). -/
def encodeUnsigned (v : Word) : List Sym := encodeChunks Config.maxSymsPerValue v

/-- The three ways the varint step ends (spec/40_varint.md R105), with the DEC registers it leaves. -/
inductive VStep where
  | invalid
  | continues (d : DecRegs)
  | complete (d : DecRegs) (v : Word)
deriving DecidableEq, Repr

/-- `vstep(c)` on the DEC registers (spec/40_varint.md R105, R106). `wide` is an exact integer. -/
def vstep (c : Word) (d : DecRegs) : VStep :=
  match lookup c with
  | none => .invalid
  | some q =>
    let wide : Nat := (payload q).toNat * 2 ^ d.shift.toNat
    let v : Word := d.vacc ||| BitVec.ofNat 64 (wide % 2 ^ 64)
    let d' := { d with pos := d.pos + 1, flags := orOVF (wide / 2 ^ 64 != 0) d.flags }
    if continues q then
      .continues { d' with
        vacc := v
        shift := BitVec.ofNat 7 (min (d.shift.toNat + Config.chunkBits) Config.shiftMax) }
    else .complete { d' with vacc := 0, shift := 0 } v

/-- UENC (spec/40_varint.md R108). -/
def execUenc (a : Word) (s : State) : Host.Outcome State Fault Refusal :=
  .next (respond { okResponse with syms := encodeUnsigned a } s)

/-- How the reference decoder fails (spec/40_varint.md R102). -/
inductive VarintFailure where
  | unterminatedValue
  | invalidSymbol (c : Word) (index : Nat)
deriving DecidableEq, Repr

/-- The loop of `decodeUnsigned` (spec/40_varint.md R102): `result`, `shift`, the index `i` of the
next symbol and the symbols from there on; answers the value and the index after the terminator. -/
def decodeLoop (result : Word) (shift i : Nat) : List Word → Except VarintFailure (Word × Nat)
  | [] => .error .unterminatedValue
  | c :: rest =>
    match lookup c with
    | none => .error (.invalidSymbol c i)
    | some q =>
      let result' := result ||| (zext64 (payload q) <<< shift)
      if continues q then decodeLoop result' (min (shift + 5) 65) (i + 1) rest
      else .ok (result', i + 1)

/-- `decodeUnsigned(s, k)`: the value of the varint that starts at index `k` and how many symbols it
takes (spec/40_varint.md R102). -/
def decodeUnsigned (s : List Word) (k : Nat) : Except VarintFailure (Word × Nat) :=
  match decodeLoop 0 0 k (s.drop k) with
  | .ok (v, i) => .ok (v, i - k)
  | .error e => .error e

end Sys2Proof.Machine
end

