-- ==== Sys2Proof/Machine/Header.lean ====
section
/-! DEFINITION. The header packer, its validation, and operation ESTART (spec/42_header.md). -/

namespace Sys2Proof.Machine

/-- `packHeader` (spec/42_header.md R130). -/
def packHeader (p2 : BitVec 4) (kind : BitVec 3) (p3 : BitVec 4) : Word :=
  (zext64 p3 <<< 7) ||| (zext64 kind <<< 4) ||| zext64 p2

/-- The header fields of a decoded string (spec/42_header.md R132). -/
structure Header where
  p2   : BitVec 4
  kind : BitVec 3
  p3   : Word
deriving DecidableEq, Repr

/-- `unpackHeader`: no mask on precision3D (spec/42_header.md R132; spec/90_conflicts.md C6). -/
def unpackHeader (h : Word) : Header :=
  { p2 := h.extractLsb' 0 4, kind := h.extractLsb' 4 3, p3 := h >>> 7 }

/-- `validate(a, b, c)`: `none` is OK, otherwise the first check that fails, on full unsigned 64-bit
numbers (spec/42_header.md R135). -/
def validate (a b c : Word) : Option Status :=
  if Config.precMax < a ∨ Config.precMax < c then some .invalidPrecision
  else if Config.kindMax < b then some .invalidKind
  else if b = zext64 Config.kindReserved1 ∨ b = zext64 Config.kindReserved2 then some .reservedKind
  else none

/-- ESTART (spec/42_header.md R136). -/
def execEstart (a b c : Word) (s : State) : Host.Outcome State Fault Refusal :=
  match validate a b c with
  | some e => .next (raise e 0 0 s)
  | none =>
    let p2 := precisionBits a
    let kind := kindBits b
    let p3 := precisionBits c
    let h := packHeader p2 kind p3
    .next (respond
      { okResponse with syms := encodeUnsigned Config.cfgVersion ++ encodeUnsigned h, r0 := h }
      { s with enc :=
        { st := .active, err := .ok, p2 := p2, kind := kind, p3 := p3, plat := 0, plng := 0, pz := 0 } })

end Sys2Proof.Machine
end

