-- ==== Sys2Proof/Machine/Zigzag.lean ====
section
/-! DEFINITION. The signed value transform and operations ZZE and ZZD (spec/41_zigzag.md). -/

namespace Sys2Proof.Machine

/-- `zigzagEncode` (spec/41_zigzag.md R120): shift left by one, complement if negative. -/
def zigzagEncode (v : Word) : Word :=
  let r := v <<< 1
  if v.getLsbD 63 then ~~~r else r

/-- `zigzagDecode`, the literal algorithm: complement if odd, then arithmetic shift right by one
(spec/41_zigzag.md R122; spec/90_conflicts.md C5). -/
def zigzagDecode (u : Word) : Word :=
  let w := if u.getLsbD 0 then ~~~u else u
  w.sshiftRight 1

/-- ZZE (spec/41_zigzag.md R124). -/
def execZze (a : Word) (s : State) : Host.Outcome State Fault Refusal :=
  .next (respond { okResponse with r0 := zigzagEncode a } s)

/-- ZZD (spec/41_zigzag.md R125). -/
def execZzd (a : Word) (s : State) : Host.Outcome State Fault Refusal :=
  .next (respond { okResponse with r0 := zigzagDecode a } s)

end Sys2Proof.Machine
end

