-- ==== Sys2Proof/Machine/PointStream.lean ====
section
/-! DEFINITION. The point stream: operations EPOINT, EEND, DSTART, DSYM and DEND
(spec/43_point_stream.md). -/

namespace Sys2Proof.Machine

/-- The symbols of one axis of one point: the zigzag varint of the wrapped difference
(spec/43_point_stream.md R151). -/
def deltaSyms (cur prev : Word) : List Sym := encodeUnsigned (zigzagEncode (cur - prev))

/-- EPOINT (spec/43_point_stream.md R150). -/
def execEpoint (a b c : Word) (s : State) : Host.Outcome State Fault Refusal :=
  match s.enc.st with
  | .idle => .next (raise .badSequence 0 0 s)
  | .failed => .next (replay s.enc.err s)
  | .active =>
    let syms := deltaSyms a s.enc.plat ++ deltaSyms b s.enc.plng
    if s.enc.kind ≠ Config.kindAbsent then
      .next (respond
        { okResponse with
          syms := syms ++ deltaSyms c s.enc.pz
          r0 := a - s.enc.plat, r1 := b - s.enc.plng, r2 := c - s.enc.pz }
        { s with enc := { s.enc with plat := a, plng := b, pz := c } })
    else
      .next (respond
        { okResponse with syms := syms, r0 := a - s.enc.plat, r1 := b - s.enc.plng }
        { s with enc := { s.enc with plat := a, plng := b } })

/-- EEND (spec/43_point_stream.md R155). -/
def execEend (s : State) : Host.Outcome State Fault Refusal :=
  match s.enc.st with
  | .idle => .next (raise .badSequence 0 0 s)
  | .failed => .next (replay s.enc.err s)
  | .active => .next (respond okResponse { s with enc := { s.enc with st := .idle } })

/-- DSTART, in every state (spec/43_point_stream.md R158). -/
def execDstart (s : State) : Host.Outcome State Fault Refusal :=
  .next (respond okResponse { s with dec :=
    { st := .inPhase .version, err := .ok, ver := 0, p2 := 0, kind := 0, p3 := 0,
      lat := 0, lng := 0, z := 0, vacc := 0, shift := 0, flags := 0, pos := 0, npts := 0 } })

/-- The POINT event: the new accumulator values of all axes (spec/30_encoding.md R84). -/
def pointResponse (lat lng z : Word) : Response :=
  { okResponse with ev := .point, r0 := lat, r1 := lng, r2 := z }

/-- The HEADER event: the new header fields (spec/30_encoding.md R84). -/
def headerResponse (h : Header) : Response :=
  { okResponse with ev := .header, r0 := zext64 h.p2, r1 := zext64 h.kind, r2 := h.p3 }

/-- DSYM on the terminator of a varint of value `v` in phase `p`; `s` already holds what `vstep`
wrote (spec/43_point_stream.md R160, case `complete`). -/
def finishVarint (p : Phase) (v : Word) (s : State) : State :=
  let d := s.dec
  match p with
  | .version =>
    let d' := { d with ver := v }
    if v ≠ Config.cfgVersion then raise .unsupportedVersion v 0 { s with dec := d' }
    else respond okResponse { s with dec := { d' with st := .inPhase .header } }
  | .header =>
    let h := unpackHeader v
    respond (headerResponse h)
      { s with dec := { d with
        p2 := h.p2, kind := h.kind, p3 := h.p3, flags := setHV d.flags, st := .inPhase .lat } }
  | .lat =>
    respond okResponse
      { s with dec := { d with lat := d.lat + zigzagDecode v, st := .inPhase .lng } }
  | .lng =>
    let lng' := d.lng + zigzagDecode v
    if d.kind ≠ Config.kindAbsent then
      respond okResponse { s with dec := { d with lng := lng', st := .inPhase .z } }
    else
      respond (pointResponse d.lat lng' d.z)
        { s with dec := { d with lng := lng', npts := d.npts + 1, st := .inPhase .lat } }
  | .z =>
    let z' := d.z + zigzagDecode v
    respond (pointResponse d.lat d.lng z')
      { s with dec := { d with z := z', npts := d.npts + 1, st := .inPhase .lat } }

/-- DSYM (spec/43_point_stream.md R160). -/
def execDsym (a : Word) (s : State) : Host.Outcome State Fault Refusal :=
  match s.dec.st with
  | .idle => .next (raise .badSequence 0 0 s)
  | .failed => .next (replay s.dec.err s)
  | .inPhase p =>
    match vstep a s.dec with
    | .invalid => .next (raise .invalidSymbol a s.dec.pos s)
    | .continues d => .next (respond okResponse { s with dec := d })
    | .complete d v => .next (finishVarint p v { s with dec := d })

/-- DEND (spec/43_point_stream.md R165). -/
def execDend (s : State) : Host.Outcome State Fault Refusal :=
  match s.dec.st with
  | .idle => .next (raise .badSequence 0 0 s)
  | .failed => .next (replay s.dec.err s)
  | .inPhase p =>
    if p = .version ∨ p = .header then .next (raise .unterminatedValue 0 0 s)
    else if s.dec.shift ≠ 0 then .next (raise .unterminatedValue 0 0 s)
    else if p = .lng ∨ p = .z then .next (raise .truncatedPoint 0 0 s)
    else .next (respond { okResponse with r0 := s.dec.npts } { s with dec := { s.dec with st := .idle } })

end Sys2Proof.Machine
end

