-- ==== Sys2Proof/Machine/System.lean ====
section
/-! DEFINITION. The system operation RDREG (spec/44_system_and_host.md R180). -/

namespace Sys2Proof.Machine

/-- RDREG (spec/44_system_and_host.md R180). -/
def execRdreg (a : Word) (s : State) : Host.Outcome State Fault Refusal :=
  match readReg a s with
  | some v => .next (respond { okResponse with r0 := v } s)
  | none => .next (raise .badRegister a 0 s)

end Sys2Proof.Machine
end

