-- ==== Sys2Proof/Machine/Dispatch.lean ====
section
/-! DEFINITION. One arm per operation (spec/30_encoding.md R82). -/

namespace Sys2Proof.Machine

def exec (i : Instr) (s : State) : Host.Outcome State Fault Refusal :=
  match i with
  | .zze a => Sys2Proof.Machine.execZze a s
  | .zzd a => Sys2Proof.Machine.execZzd a s
  | .uenc a => Sys2Proof.Machine.execUenc a s
  | .estart a b c => Sys2Proof.Machine.execEstart a b c s
  | .epoint a b c => Sys2Proof.Machine.execEpoint a b c s
  | .eend => Sys2Proof.Machine.execEend s
  | .dstart => Sys2Proof.Machine.execDstart s
  | .dsym a => Sys2Proof.Machine.execDsym a s
  | .dend => Sys2Proof.Machine.execDend s
  | .rdreg a => Sys2Proof.Machine.execRdreg a s

end Sys2Proof.Machine
end

