-- ==== Sys2Proof/Machine/Step.lean ====
section
/-! DEFINITION. One step: the block takes the host's next input and performs it completely
(spec/00_scope.md R9, spec/20_memory.md R70). -/

namespace Sys2Proof.Machine

/-- With no input the block waits and holds its registers (spec/60_exceptions.md R226,
spec/70_reset_and_hazards.md R233; log 2). A reset event resets it (R230). A word is decoded and
performed; a word with an undefined opcode is answered `IllegalOp` (spec/30_encoding.md R85). -/
def step (s : State) : Host.Outcome State Fault Refusal :=
  match fetch s with
  | none => .next s
  | some (.reset, t) => .next (applyReset t)
  | some (.word w, t) =>
    match decode w with
    | .ok i => exec i t
    | .error e => .next (answerRejected e t)

/-- The host presents, as its next input, the word whose low `nbits` bits are those of `w` and whose
other bits are 0 (log 5, log 19). -/
def State.withFetchWord (s : State) (nbits w : Nat) : State :=
  { s with pending := .word (wordOfBits nbits w) :: s.pending }

end Sys2Proof.Machine
end

