-- ==== Sys2Proof/Machine/Transaction.lean ====
section
/-! DEFINITION. Whole transactions as the host runs them: the pseudo-operations of
spec/30_encoding.md R89 and what their responses mean (spec/44_system_and_host.md R185 to R187,
spec/60_exceptions.md R212). -/

namespace Sys2Proof.Machine

/-- One integer point: scaled latitude, longitude and third value (spec/43_point_stream.md R150). -/
structure Point where
  lat : Word
  lng : Word
  z   : Word
deriving DecidableEq, Repr

/-- The integer polyline a decode transaction yields (spec/60_exceptions.md R212). -/
structure Polyline where
  header : Header
  pts    : List Point
deriving DecidableEq, Repr

/-- One operation with the response it returns: spec/00_scope.md R9's
`step : State -> OperationWord -> State x Response` for a defined operation. -/
def perform (i : Instr) (s : State) : Option (Response × State) :=
  match exec i s with
  | .next t => t.resp.map (fun r => (r, t))
  | .fault _ => none
  | .refused _ => none

/-- The left fold of the operations in the order presented, with every response
(spec/20_memory.md R70). -/
def runOps : List Instr → State → Option (List Response × State)
  | [], s => some ([], s)
  | i :: is, s =>
    match perform i s with
    | none => none
    | some (r, t) =>
      match runOps is t with
      | none => none
      | some (rs, u) => some (r :: rs, u)

/-- `ESTART2D p` (spec/30_encoding.md R89, spec/42_header.md R137). -/
def estart2dOps (p : Word) : List Instr := [.estart p 0 0]

/-- `ENCODE p2, k, p3, pts` (spec/30_encoding.md R89). -/
def encodeOps (p2 k p3 : Word) (pts : List Point) : List Instr :=
  .estart p2 k p3 :: (pts.map (fun p => .epoint p.lat p.lng p.z) ++ [.eend])

/-- `DECODE syms` (spec/30_encoding.md R89). -/
def decodeOps (syms : List Word) : List Instr := .dstart :: (syms.map .dsym ++ [.dend])

/-- The status of the first response that is not `OK` (spec/60_exceptions.md R205, R212). -/
def firstError (rs : List Response) : Option Status :=
  (rs.find? (fun r => r.st != .ok)).map (·.st)

/-- Every symbol emitted, in operation order (spec/20_memory.md R64, spec/30_encoding.md R89). -/
def emitted (rs : List Response) : List Sym := rs.flatMap (·.syms)

/-- The header fields a HEADER event carries (spec/30_encoding.md R84; log 20). -/
def headerOfEvent (r : Response) : Header :=
  { p2 := r.r0.extractLsb' 0 4, kind := r.r1.extractLsb' 0 3, p3 := r.r2 }

/-- The HEADER event of a transaction. -/
def headerEvent (rs : List Response) : Option Header :=
  (rs.find? (fun r => r.ev == .header)).map headerOfEvent

/-- The POINT events of a transaction, in order (spec/30_encoding.md R84). -/
def pointEvents (rs : List Response) : List Point :=
  (rs.filter (fun r => r.ev == .point)).map (fun r => { lat := r.r0, lng := r.r1, z := r.r2 })

/-- Operations as the host presented them, each with its response. -/
abbrev Trace := List (Instr × Response)

/-- The operations of one unit among those presented: operations of the other unit and of neither may
stand between them and belong to no transaction of it (spec/20_memory.md R71). -/
def ofUnit (u : CodecUnit) (tr : Trace) : Trace :=
  tr.filter (fun x => x.1.mnemonic.codecUnit == some u)

/-- The responses of unit `u`'s transaction, `none` unless its operations are exactly `start`, any
number of `body` and the closing `stop`: the result is defined only once the closing operation has
answered (spec/92_eei_decisions.md D4, spec/44_system_and_host.md R186). -/
def closedTransaction (u : CodecUnit) (start body stop : Mnemonic) (tr : Trace) :
    Option (List Response) :=
  let mine := ofUnit u tr
  if mine.map (fun x => x.1.mnemonic) = start :: (List.replicate (mine.length - 2) body ++ [stop]) then
    some (mine.map (fun x => x.2))
  else none

/-- The observable outcome of an encode transaction: a string or an error, never both; `none` unless
EEND has answered (spec/60_exceptions.md R212, spec/44_system_and_host.md R185). -/
def encodeOutcome (tr : Trace) : Option (Except Status (List Sym)) :=
  match closedTransaction .enc .estart .epoint .eend tr with
  | none => none
  | some rs =>
    match firstError rs with
    | some e => some (.error e)
    | none => some (.ok (emitted rs))

/-- The observable outcome of a decode transaction: a polyline or an error, never both; `none` unless
DEND has answered (spec/60_exceptions.md R212, spec/44_system_and_host.md R186). The block answers a
DEND with `OK` only after a HEADER event; responses without one are no block's, and give `none`. -/
def decodeOutcome (tr : Trace) : Option (Except Status Polyline) :=
  match closedTransaction .dec .dstart .dsym .dend tr with
  | none => none
  | some rs =>
    match firstError rs, headerEvent rs with
    | some e, _ => some (.error e)
    | none, some h => some (.ok { header := h, pts := pointEvents rs })
    | none, none => none

/-- Operations performed in a state, as a trace (spec/20_memory.md R70). -/
def runTrace (is : List Instr) (s : State) : Option Trace :=
  (runOps is s).map (fun x => is.zip x.1)

/-- `ENCODE` run on the block in state `s`. -/
def runEncode (p2 k p3 : Word) (pts : List Point) (s : State) : Option (Except Status (List Sym)) :=
  (runTrace (encodeOps p2 k p3 pts) s).bind encodeOutcome

/-- `DECODE` run on the block in state `s`. -/
def runDecode (syms : List Word) (s : State) : Option (Except Status Polyline) :=
  (runTrace (decodeOps syms) s).bind decodeOutcome

/-- `PEEK3D` after its DSTART: symbols in order until a HEADER event or an error; a host that runs
out of symbols issues DEND (spec/30_encoding.md R89, spec/44_system_and_host.md R187; log 17). -/
def peekSymbols : List Word → State → Option (Except Status (BitVec 3) × State)
  | [], s => (perform .dend s).map (fun x => (.error x.1.st, x.2))
  | c :: rest, s =>
    match perform (.dsym c) s with
    | none => none
    | some (r, t) =>
      if r.st ≠ .ok then some (.error r.st, t)
      else if r.ev = .header then some (.ok (headerOfEvent r).kind, t)
      else peekSymbols rest t

/-- `PEEK3D syms`: the kind, or the error a peek sees, and the state it leaves
(spec/44_system_and_host.md R187). -/
def runPeek (syms : List Word) (s : State) : Option (Except Status (BitVec 3) × State) :=
  (perform .dstart s).bind (fun x => peekSymbols syms x.2)

/-- Emitted symbols as the code points DSYM takes (spec/30_encoding.md R90). -/
def codePoints (syms : List Sym) : List Word := syms.map zext64

end Sys2Proof.Machine
end

