-- ==== Sys2Proof/Machine/HostDuties.lean ====
section
/-! DEFINITION. The host's scaling before EPOINT and after a POINT event
(spec/44_system_and_host.md R190, R191), outside the block (spec/00_scope.md R4). Multiplication and
division are exact, over the rationals, where the source has floating point (log 14); the rounding
function `HOST_ROUND` is an argument (spec/92_eei_decisions.md D16). -/

namespace Sys2Proof.Machine

/-- A point as the host's caller has it (spec/44_system_and_host.md R190). -/
structure GeoPoint where
  lat   : ℚ
  lng   : ℚ
  third : ℚ

/-- The scale factor 10^precision (spec/44_system_and_host.md R190). -/
def hostScale (precision : Nat) : ℚ := 10 ^ precision

/-- The named default of `HOST_ROUND`: round half away from zero (spec/44_system_and_host.md R190). -/
def roundHalfAway (x : ℚ) : ℤ := if 0 ≤ x then ⌊x + 1 / 2⌋ else ⌈x - 1 / 2⌉

/-- One axis before EPOINT: `round(coordinate * scale)` (spec/44_system_and_host.md R190). -/
def hostScaled (hostRound : ℚ → ℤ) (precision : Nat) (x : ℚ) : ℤ :=
  hostRound (x * hostScale precision)

/-- One point before EPOINT; `scale3D` is 0 when the kind is absent (spec/44_system_and_host.md R190).
A scaled coordinate outside `s64` is taken modulo 2^64: DESIGN CHOICE (log 22), the spec says nothing of
its value and a host never presents it, see `hostPresents`. -/
def hostPoint (hostRound : ℚ → ℤ) (p2 k p3 : Word) (g : GeoPoint) : Point :=
  { lat := BitVec.ofInt 64 (hostScaled hostRound p2.toNat g.lat)
    lng := BitVec.ofInt 64 (hostScaled hostRound p2.toNat g.lng)
    z := BitVec.ofInt 64
      (if k = 0 then hostRound (g.third * 0) else hostScaled hostRound p3.toNat g.third) }

/-- A number that is a signed 64-bit integer (spec/44_system_and_host.md R190). -/
def fitsS64 (v : ℤ) : Bool := decide (-(2 ^ 63 : ℤ) ≤ v) && decide (v < (2 ^ 63 : ℤ))

/-- What the host presents to EPOINT: the scaled point, or nothing when a coordinate the block would
read does not fit in `s64`, the refusal of spec/93_implementation_defined.md U9
(spec/44_system_and_host.md R190: "the host must not present such points"; log 22). -/
def hostPresents (hostRound : ℚ → ℤ) (p2 k p3 : Word) (g : GeoPoint) : Option Point :=
  if fitsS64 (hostScaled hostRound p2.toNat g.lat) && fitsS64 (hostScaled hostRound p2.toNat g.lng) &&
      (k == 0 || fitsS64 (hostScaled hostRound p3.toNat g.third)) then
    some (hostPoint hostRound p2 k p3 g)
  else none

/-- One axis after a POINT event: the integer divided by the scale factor
(spec/44_system_and_host.md R191). -/
def hostCoordinate (precision : Nat) (v : Word) : ℚ := (v.toInt : ℚ) / hostScale precision

/-- One point after a POINT event; the third value only when the kind is not absent
(spec/44_system_and_host.md R191). For a decoded precision3D above 15 the spec leaves the third
coordinate open, and it is a free value: DESIGN CHOICE (log 21). -/
def hostGeoPoint (h : Header) (p : Point) : ℚ × ℚ × Option ℚ :=
  (hostCoordinate h.p2.toNat p.lat, hostCoordinate h.p2.toNat p.lng,
    if h.kind = 0 then none
    else if h.p3 ≤ Config.precMax then some (hostCoordinate h.p3.toNat p.z)
    else some (Config.hostThirdAbovePrecMax h.p3 p.z))

end Sys2Proof.Machine
end

