-- ==== Sys2Proof/Machine/Reference.lean ====
section
/-! DEFINITION. The whole-input functions the spec transcribes from its source: `encodeInts`
(spec/44_system_and_host.md R185) and `decodeString` (spec/43_point_stream.md R171). No operation
evaluates them; the block is stated to agree with them. -/

namespace Sys2Proof.Machine

/-- The point loop of `encodeInts` (spec/44_system_and_host.md R185), from the accumulators `prev`. -/
def encodePoints (k : Word) (prev : Point) : List Point → List Sym
  | [] => []
  | p :: rest =>
    encodeUnsigned (zigzagEncode (p.lat - prev.lat))
      ++ encodeUnsigned (zigzagEncode (p.lng - prev.lng))
      ++ (if k ≠ 0 then encodeUnsigned (zigzagEncode (p.z - prev.z)) else [])
      ++ encodePoints k p rest

/-- `encodeInts(p2, k, p3, pts)` (spec/44_system_and_host.md R185). -/
def encodeInts (p2 k p3 : Word) (pts : List Point) : Except Status (List Sym) :=
  match validate p2 k p3 with
  | some e => .error e
  | none =>
    .ok (encodeUnsigned 1
      ++ encodeUnsigned (packHeader (precisionBits p2) (kindBits k) (precisionBits p3))
      ++ encodePoints k { lat := 0, lng := 0, z := 0 } pts)

/-- The error kind a failing `decodeUnsigned` propagates (spec/43_point_stream.md R171). -/
def varintStatus : VarintFailure → Status
  | .unterminatedValue => .unterminatedValue
  | .invalidSymbol _ _ => .invalidSymbol

/-- One varint of a whole string, with the failure as an error kind (spec/43_point_stream.md R171). -/
def readValue (s : List Word) (i : Nat) : Except Status (Word × Nat) :=
  match decodeUnsigned s i with
  | .ok x => .ok x
  | .error e => .error (varintStatus e)

/-- Version and header of a whole string, with the index of the first point
(spec/43_point_stream.md R171). -/
def decodeHeader (s : List Word) : Except Status (Header × Nat) :=
  match readValue s 0 with
  | .error e => .error e
  | .ok (ver, n0) =>
    if ver ≠ 1 then .error .unsupportedVersion
    else
      match readValue s n0 with
      | .error e => .error e
      | .ok (h, n1) => .ok (unpackHeader h, n0 + n1)

/-- One point of a whole string: the varints at `i`, added to the accumulators `acc`, and the index
after them (spec/43_point_stream.md R171, body of the loop). -/
def decodePoint (s : List Word) (kind : BitVec 3) (i : Nat) (acc : Point) :
    Except Status (Point × Nat) :=
  match readValue s i with
  | .error e => .error e
  | .ok (v, n) =>
    let i := i + n
    let lat := acc.lat + zigzagDecode v
    if i = s.length then .error .truncatedPoint
    else
      match readValue s i with
      | .error e => .error e
      | .ok (v, n) =>
        let i := i + n
        let lng := acc.lng + zigzagDecode v
        if kind ≠ 0 then
          if i = s.length then .error .truncatedPoint
          else
            match readValue s i with
            | .error e => .error e
            | .ok (v, n) => .ok ({ lat := lat, lng := lng, z := acc.z + zigzagDecode v }, i + n)
        else .ok ({ lat := lat, lng := lng, z := acc.z }, i)

/-- The `while` loop of `decodeString` (spec/43_point_stream.md R171). Each round consumes a symbol,
so a fuel of the string's length is never used up (log 10). -/
def decodePoints (s : List Word) (kind : BitVec 3) :
    (fuel i : Nat) → (acc : Point) → Except Status (List Point)
  | 0, _, _ => .ok []
  | fuel + 1, i, acc =>
    if i < s.length then
      match decodePoint s kind i acc with
      | .error e => .error e
      | .ok (p, i') =>
        match decodePoints s kind fuel i' p with
        | .error e => .error e
        | .ok pts => .ok (p :: pts)
    else .ok []

/-- `decodeString(s)` (spec/43_point_stream.md R171). -/
def decodeString (s : List Word) : Except Status Polyline :=
  match decodeHeader s with
  | .error e => .error e
  | .ok (h, i) =>
    match decodePoints s h.kind s.length i { lat := 0, lng := 0, z := 0 } with
    | .error e => .error e
    | .ok pts => .ok { header := h, pts := pts }

end Sys2Proof.Machine
end

