-- ==== Sys2Proof/Safety.lean ====
section
/-! DEFINITION. The terms claims use: the invariants of spec/10_state.md R48, the shape of a response
(spec/60_exceptions.md R211, spec/30_encoding.md R83), and the codes each operation may answer
(spec/60_exceptions.md R202). -/

namespace Sys2Proof.Machine

/-- The values `DEC_SHIFT` takes (spec/10_state.md R37). -/
def legalShifts : List Nat := [0, 5, 10, 15, 20, 25, 30, 35, 40, 45, 50, 55, 60, 65]

/-- spec/10_state.md R48, the ten items that speak of ENC and DEC, in its order. Items 1 and the width
part of 4 hold by the types (log 6). -/
structure ListedInvariants (s : State) : Prop where
  /-- item 2, ENC -/
  encErrIffFailed : s.enc.err ≠ .ok ↔ s.enc.st = .failed
  /-- item 2, DEC -/
  decErrIffFailed : s.dec.err ≠ .ok ↔ s.dec.st = .failed
  /-- item 3, ENC -/
  encErrCodes : s.enc.err ∈ [Status.ok, .invalidPrecision, .invalidKind, .reservedKind]
  /-- item 3, DEC -/
  decErrCodes : s.dec.err ∈
    [Status.ok, .unsupportedVersion, .invalidSymbol, .truncatedPoint, .unterminatedValue]
  /-- item 4 -/
  encKindNotReserved : s.enc.kind ≠ 4 ∧ s.enc.kind ≠ 5
  /-- item 5 -/
  decShiftLegal : s.dec.shift.toNat ∈ legalShifts
  /-- item 5 -/
  decVaccClear : s.dec.shift = 0 → s.dec.vacc = 0
  /-- item 6 -/
  decShiftBusy : s.dec.shift ≠ 0 → (∃ p, s.dec.st = .inPhase p) ∨
    (s.dec.st = .failed ∧ (s.dec.err = .unterminatedValue ∨ s.dec.err = .invalidSymbol))
  /-- item 7 -/
  decNoHeader : flagHV s.dec.flags = false →
    s.dec.p2 = 0 ∧ s.dec.kind = 0 ∧ s.dec.p3 = 0 ∧
    s.dec.lat = 0 ∧ s.dec.lng = 0 ∧ s.dec.z = 0 ∧ s.dec.npts = 0
  /-- item 8 -/
  decTwoAxes : s.dec.kind = 0 → s.dec.z = 0 ∧ s.dec.st ≠ .inPhase .z
  /-- item 9 -/
  decP3Bound : s.dec.p3.toNat < 2 ^ 57
  /-- item 10; IDLE after a successful DEND is IDLE with `HV` set -/
  decVersion : s.dec.st = .inPhase .header ∨ s.dec.st = .inPhase .lat ∨ s.dec.st = .inPhase .lng ∨
    s.dec.st = .inPhase .z ∨ (s.dec.st = .idle ∧ flagHV s.dec.flags = true) → s.dec.ver = 1

/-- The invariants of spec/10_state.md R48 with the facts that make them inductive: when `HV` and
`DEC_VER` are written (R33, R34), that `DEC_VACC` lies below `DEC_SHIFT` (spec/40_varint.md R105),
and that `ENC_PZ` stays 0 without a third axis (spec/43_point_stream.md R150). -/
structure Inv (s : State) : Prop where
  listed : ListedInvariants s
  /-- spec/10_state.md R33, R34: nothing of the header is known before it ends -/
  headerPending : s.dec.st = .inPhase .version ∨ s.dec.st = .inPhase .header →
    flagHV s.dec.flags = false
  /-- spec/10_state.md R33: `DEC_VER` is 0 until the version varint ends -/
  versionPending : s.dec.st = .inPhase .version → s.dec.ver = 0
  /-- spec/10_state.md R34, R45: `HV` is set from the end of the headerContent varint -/
  headerKnown : s.dec.st = .inPhase .lat ∨ s.dec.st = .inPhase .lng ∨ s.dec.st = .inPhase .z →
    flagHV s.dec.flags = true
  /-- spec/40_varint.md R105 -/
  vaccBelowShift : s.dec.shift.toNat ≤ 60 → s.dec.vacc.toNat < 2 ^ s.dec.shift.toNat
  /-- spec/43_point_stream.md R150, corner case 2 -/
  encTwoAxes : s.enc.kind = 0 → s.enc.pz = 0

/-- What every response is: an error carries no event and no symbol (spec/60_exceptions.md R211); at
most 39 symbols, each from `ALPHA` (spec/30_encoding.md R83). -/
structure WellShaped (r : Response) : Prop where
  errorBare : r.st ≠ .ok → r.ev = .none ∧ r.syms = [] ∧ r.r2 = 0
  eventNoSymbols : r.ev ≠ .none → r.syms = []
  symbolCount : r.syms.length ≤ 39
  symbolsFromAlpha : ∀ c ∈ r.syms, ∃ q, c = alpha q

/-- The codes each operation may answer (spec/60_exceptions.md R202). -/
def answerable : Instr → List Status
  | .zze _ | .zzd _ | .uenc _ | .dstart => [.ok]
  | .estart _ _ _ => [.ok, .invalidPrecision, .invalidKind, .reservedKind]
  | .epoint _ _ _ | .eend => [.ok, .badSequence, .invalidPrecision, .invalidKind, .reservedKind]
  | .dsym _ => [.ok, .badSequence, .unsupportedVersion, .invalidSymbol, .truncatedPoint, .unterminatedValue]
  | .dend => [.ok, .badSequence, .truncatedPoint, .unterminatedValue, .unsupportedVersion, .invalidSymbol]
  | .rdreg _ => [.ok, .badRegister]

/-- The indices of the register map (spec/10_state.md R21). -/
def isRegisterIndex (a : Word) : Bool :=
  decide (a.toNat ≤ 0x07) || (decide (0x10 ≤ a.toNat) && decide (a.toNat ≤ 0x1D)) || decide (a.toNat = 0x20)

/-- The operations that may change each register, by its index (spec/10_state.md R21, column
`writers`). -/
def writers (a : Nat) : List Mnemonic :=
  match a with
  | 0x00 => [.estart, .eend]
  | 0x01 | 0x02 | 0x03 | 0x04 => [.estart]
  | 0x05 | 0x06 | 0x07 => [.estart, .epoint]
  | 0x10 | 0x11 => [.dstart, .dsym, .dend]
  | 0x12 | 0x13 | 0x14 | 0x15 | 0x16 | 0x17 | 0x18 | 0x19 | 0x1A | 0x1B | 0x1C | 0x1D =>
    [.dstart, .dsym]
  | _ => []

/-- The value of the varint in progress once a symbol of quantity `q` is added: the payload placed at
`DEC_SHIFT`, bits at 64 and above dropped (spec/40_varint.md R105, R106). -/
def assembled (d : DecRegs) (q : Quantity) : Word :=
  d.vacc ||| BitVec.ofNat 64 (q.toNat % 32 * 2 ^ d.shift.toNat)

/-- `DEC_FLAGS` after a symbol of quantity `q`: `OVF` set when a dropped bit is 1
(spec/40_varint.md R106). -/
def flagsAfter (d : DecRegs) (q : Quantity) : BitVec 2 :=
  if 2 ^ 64 ≤ q.toNat % 32 * 2 ^ d.shift.toNat then d.flags ||| 0b10#2 else d.flags

/-- The DEC registers after a terminator of quantity `q`, before the phase uses the value: counted,
no varint in progress (spec/40_varint.md R105). -/
def afterTerminator (d : DecRegs) (q : Quantity) : DecRegs :=
  { d with pos := d.pos + 1, vacc := 0, shift := 0, flags := flagsAfter d q }

/-- A delta the decoder recovers: -2^62 to 2^62 - 1 (spec/43_point_stream.md R170). -/
def recoverable (d : Word) : Prop := -(2 ^ 62 : Int) ≤ d.toInt ∧ d.toInt < (2 ^ 62 : Int)

/-- Every delta the encoder forms for `pts` after `prev` is recoverable, on the third axis only when
there is one (spec/43_point_stream.md R170). -/
def recoverableDeltas (k : Word) (prev : Point) : List Point → Prop
  | [] => True
  | p :: rest =>
    recoverable (p.lat - prev.lat) ∧ recoverable (p.lng - prev.lng) ∧
    (k ≠ 0 → recoverable (p.z - prev.z)) ∧ recoverableDeltas k p rest

/-- What the decoder adds for a delta `d` of the encoder: `d`, off by 2^63 when it is not recoverable
(spec/43_point_stream.md R170). -/
def recoveredDelta (d : Word) : Word :=
  if -(2 ^ 62 : Int) ≤ d.toInt ∧ d.toInt < (2 ^ 62 : Int) then d else d + BitVec.ofNat 64 (2 ^ 63)

/-- The points a decoder delivers for encoded points, whatever their deltas: `prev` is the encoder's
accumulators, `acc` the decoder's (spec/43_point_stream.md R170). -/
def driftedPoints (k : Word) (prev acc : Point) : List Point → List Point
  | [] => []
  | p :: rest =>
    let q : Point :=
      { lat := acc.lat + recoveredDelta (p.lat - prev.lat)
        lng := acc.lng + recoveredDelta (p.lng - prev.lng)
        z := if k = 0 then acc.z else acc.z + recoveredDelta (p.z - prev.z) }
    q :: driftedPoints k p q rest

/-- The point a decoder delivers for an encoded point: third value 0 without a third axis
(spec/43_point_stream.md R170). -/
def deliveredPoint (k : Word) (p : Point) : Point := if k = 0 then { p with z := 0 } else p

end Sys2Proof.Machine
end

