-- ==== Sys2Proof/Certificates/Slice0/Obligations.lean ====
section
/-! DEFINITION. The statements for the provers. A response is written
`⟨st, ev, syms, r0, r1, r2⟩`. An operation's statement is an equation for its next state, so what it
does not name is unchanged: registers, host inputs, everything but the response. -/

open Sys2Proof Sys2Proof.Machine

/-! ## Operation words -/

/-- Decode and encode agree on every operation, every operand at every value (spec/30_encoding.md
R80, R81, R82, R88). -/
def Obligations.DecodeOfEncodeIsIdentity : Prop :=
  ∀ i : Instr, decode (encode i) = .ok i

/-- In the other direction, encoding what a word decodes to gives the word back exactly when its
unread fields are 0 (spec/30_encoding.md R81, R88). -/
def Obligations.EncodeOfDecodeIsIdentityOnCanonicalWords : Prop :=
  ∀ (w : OpWord) (i : Instr), decode w = .ok i → (encode i = w ↔ canonicalWord w = true)

/-- Which operation a word is and where its operands stand, as numbers (spec/30_encoding.md R80, R81,
R82). -/
def Obligations.DecodeReadsOpcodeAndFields : Prop :=
  ∀ w : OpWord,
    let n := w.toNat
    let a : Word := BitVec.ofNat 64 (n / 2 ^ 8)
    let b : Word := BitVec.ofNat 64 (n / 2 ^ 72)
    let c : Word := BitVec.ofNat 64 (n / 2 ^ 136)
    (n % 256 = 0x01 → decode w = .ok (.zze a)) ∧
    (n % 256 = 0x02 → decode w = .ok (.zzd a)) ∧
    (n % 256 = 0x03 → decode w = .ok (.uenc a)) ∧
    (n % 256 = 0x10 → decode w = .ok (.estart a b c)) ∧
    (n % 256 = 0x11 → decode w = .ok (.epoint a b c)) ∧
    (n % 256 = 0x12 → decode w = .ok .eend) ∧
    (n % 256 = 0x20 → decode w = .ok .dstart) ∧
    (n % 256 = 0x21 → decode w = .ok (.dsym a)) ∧
    (n % 256 = 0x22 → decode w = .ok .dend) ∧
    (n % 256 = 0x30 → decode w = .ok (.rdreg a))

/-- Operation words of spec/95_test_vectors.md, written out, decode to the operations they stand for. -/
def Obligations.ListedWordsDecode : Prop :=
  decode 0x000000000000000000000000000000000000000000000025_03 = .ok (.uenc 37) ∧
  decode 0x00000000000000000000000000000000FFFFFFFFFFFFFFE5_01 = .ok (.zze (BitVec.ofInt 64 (-27))) ∧
  decode 0x000000000000000000000000000D45BD00000000004C7334_11 = .ok (.epoint 5010228 869821 0) ∧
  decode 0x000000000000000300000000000000020000000000000001_11 = .ok (.epoint 1 2 3) ∧
  decode 0x0000000000000000_0000000000000002_0000000000000005_10 = .ok (.estart 5 2 0) ∧
  decode 0x42_21 = .ok (.dsym 66) ∧
  decode 0x000000000000000300000000000000020000000000000001_FF = .error (.undefinedOpcode 0xFF)

/-- A step performs exactly the host's next input: it waits when there is none, and runs the decoded
operation on the state with that input taken (spec/00_scope.md R9, spec/20_memory.md R70). That an
empty input list is a step that changes nothing is the model's reading (log 2). -/
def Obligations.StepRunsDecodedOperation : Prop :=
  ∀ s : State,
    (s.pending = [] → step s = .next s) ∧
    (∀ (w : OpWord) (rest : List HostInput) (i : Instr),
      s.pending = .word w :: rest → decode w = .ok i → step s = exec i { s with pending := rest })

/-- A word with an undefined opcode changes no register and is answered IllegalOp with the opcode in
r0 (spec/44_system_and_host.md R181). -/
def Obligations.UndefinedOpcodeIsAnsweredIllegalOp : Prop :=
  statusCode .illegalOp = 0x80 ∧
  ∀ (s : State) (w : OpWord) (rest : List HostInput),
    s.pending = .word w :: rest →
    w.toNat % 256 ∉ [0x01, 0x02, 0x03, 0x10, 0x11, 0x12, 0x20, 0x21, 0x22, 0x30] →
    step s = .next { s with
      pending := rest
      resp := some ⟨.illegalOp, .none, [], BitVec.ofNat 64 (w.toNat % 256), 0, 0⟩ }

/-- Operand fields an operation does not read have no effect on state or response
(spec/30_encoding.md R81). -/
def Obligations.UnreadFieldsHaveNoEffect : Prop :=
  ∀ (s : State) (w w' : OpWord) (rest : List HostInput),
    opcodeField w = opcodeField w' →
    (opcodeField w ∈ [0x01#8, 0x02#8, 0x03#8, 0x10#8, 0x11#8, 0x21#8, 0x30#8] → fieldA w = fieldA w') →
    (opcodeField w ∈ [0x10#8, 0x11#8] → fieldB w = fieldB w' ∧ fieldC w = fieldC w') →
    step { s with pending := .word w :: rest } = step { s with pending := .word w' :: rest }

/-- Every operation is answered, and a run of the machine over the words of a list of operations is
the left fold of the operations, with exactly one response each (spec/20_memory.md R70,
spec/30_encoding.md R83). -/
def Obligations.RunIsFoldOfOperations : Prop :=
  ∀ (is : List Instr) (s : State), ∃ rs u,
    runOps is s = some (rs, u) ∧ rs.length = is.length ∧ u.pending = s.pending ∧
    Host.Core.run Sys2Proof.core is.length { s with pending := is.map (fun i => .word (encode i)) }
      = .next { u with pending := [] }

/-! ## Reset and registers -/

/-- A reset event, between any two operations, gives every register its reset value, whatever
transaction is open or error latched (spec/70_reset_and_hazards.md R230). That what the host presents
afterwards stays in place is the model's reading (log 4). -/
def Obligations.ResetEventResetsEveryRegister : Prop :=
  ∀ (s : State) (rest : List HostInput), s.pending = .reset :: rest →
    ∃ t, step s = .next t ∧ t.pending = rest ∧ readReg 0x20 t = some 1 ∧
      t.enc = { st := .idle, err := .ok, p2 := 0, kind := 0, p3 := 0, plat := 0, plng := 0, pz := 0 } ∧
      t.dec = { st := .idle, err := .ok, ver := 0, p2 := 0, kind := 0, p3 := 0, lat := 0, lng := 0,
                z := 0, vacc := 0, shift := 0, flags := 0, pos := 0, npts := 0 }

/-- After reset every register reads 0 and CFG_VERSION reads 1 (spec/10_state.md R49). -/
def Obligations.RegistersReadResetValues : Prop :=
  ∀ a : Word, isRegisterIndex a = true →
    exec (.rdreg a) State.reset = .next { State.reset with
      resp := some ⟨.ok, .none, [], if a = 0x20 then 1 else 0, 0, 0⟩ }

/-- RDREG returns the register its index names, zero-extended, with every number as the register map
has it, and refuses every other 64-bit index; it changes no register (spec/44_system_and_host.md R180,
spec/10_state.md R21, R22, R31; the codes of spec/60_exceptions.md R200). -/
def Obligations.RdregReadsNamedRegister : Prop :=
  ∀ s : State,
    let answers (a v : Word) : Prop :=
      exec (.rdreg a) s = .next { s with resp := some ⟨.ok, .none, [], v, 0, 0⟩ }
    let encState : Word := match s.enc.st with
      | .idle => 0 | .active => 1 | .failed => 2
    let decState : Word := match s.dec.st with
      | .idle => 0 | .inPhase .version => 1 | .inPhase .header => 2 | .inPhase .lat => 3
      | .inPhase .lng => 4 | .inPhase .z => 5 | .failed => 7
    let code (e : Status) : Word := match e with
      | .ok => 0x00 | .invalidPrecision => 0x01 | .invalidKind => 0x02 | .reservedKind => 0x03
      | .unsupportedVersion => 0x04 | .invalidSymbol => 0x05 | .truncatedPoint => 0x06
      | .unterminatedValue => 0x07 | .illegalOp => 0x80 | .badSequence => 0x81 | .badRegister => 0x82
    answers 0x00 encState ∧ answers 0x01 (code s.enc.err) ∧
    answers 0x02 (BitVec.ofNat 64 s.enc.p2.toNat) ∧ answers 0x03 (BitVec.ofNat 64 s.enc.kind.toNat) ∧
    answers 0x04 (BitVec.ofNat 64 s.enc.p3.toNat) ∧
    answers 0x05 s.enc.plat ∧ answers 0x06 s.enc.plng ∧ answers 0x07 s.enc.pz ∧
    answers 0x10 decState ∧ answers 0x11 (code s.dec.err) ∧ answers 0x12 s.dec.ver ∧
    answers 0x13 (BitVec.ofNat 64 s.dec.p2.toNat) ∧ answers 0x14 (BitVec.ofNat 64 s.dec.kind.toNat) ∧
    answers 0x15 s.dec.p3 ∧ answers 0x16 s.dec.lat ∧ answers 0x17 s.dec.lng ∧ answers 0x18 s.dec.z ∧
    answers 0x19 s.dec.vacc ∧ answers 0x1A (BitVec.ofNat 64 s.dec.shift.toNat) ∧
    answers 0x1B (BitVec.ofNat 64 s.dec.flags.toNat) ∧
    answers 0x1C s.dec.pos ∧ answers 0x1D s.dec.npts ∧ answers 0x20 1 ∧
    (∀ a : Word, isRegisterIndex a = false →
      exec (.rdreg a) s = .next { s with resp := some ⟨.badRegister, .none, [], a, 0, 0⟩ })

/-- A register changes only by the operations its row of the register map lists as writers
(spec/10_state.md R21). -/
def Obligations.RegistersChangeOnlyByListedWriters : Prop :=
  ∀ (i : Instr) (s t : State) (a : Word), exec i s = .next t →
    readReg a t ≠ readReg a s → i.mnemonic ∈ writers a.toNat

/-! ## Varint codec -/

/-- ALPHA as a formula, and lookup finds exactly the 64 code points of ALPHA among all 64-bit values,
each with its index (spec/20_memory.md R61, R63, spec/40_varint.md R104). -/
def Obligations.LookupInvertsAlphabet : Prop :=
  (∀ q : Quantity, (alpha q).toNat =
    if q.toNat ≤ 25 then 65 + q.toNat
    else if q.toNat ≤ 51 then 97 + (q.toNat - 26)
    else if q.toNat ≤ 61 then 48 + (q.toNat - 52)
    else if q.toNat = 62 then 45 else 95) ∧
  (∀ (c : Word) (q : Quantity), lookup c = some q ↔ c.toNat = (alpha q).toNat)

/-- The loop of encodeUnsigned: the low five bits, then the rest of the value with the continuation
bit set while it is not 0 (spec/40_varint.md R100). -/
def Obligations.EncodeUnsignedFollowsLoop : Prop :=
  ∀ v : Word, encodeUnsigned v =
    if v.toNat / 32 ≠ 0 then
      alpha (BitVec.ofNat 6 (32 + v.toNat % 32)) :: encodeUnsigned (BitVec.ofNat 64 (v.toNat / 32))
    else [alpha (BitVec.ofNat 6 (v.toNat % 32))]

/-- The four properties of encodeUnsigned: its length, the continuation bits, the canonical form and
the payload of each symbol (an inference of the spec: spec/40_varint.md R101). -/
def Obligations.EncodeUnsignedProperties : Prop :=
  ∀ v : Word,
    (v.toNat ≤ 31 → (encodeUnsigned v).length = 1) ∧
    (31 < v.toNat → (encodeUnsigned v).length = (Nat.log2 v.toNat + 1 + 4) / 5) ∧
    (encodeUnsigned v).length ≤ 13 ∧
    ((encodeUnsigned v).length = 13 ↔ 2 ^ 60 ≤ v.toNat) ∧
    (∀ (k : Nat) (h : k < (encodeUnsigned v).length), ∃ q : Quantity,
      (encodeUnsigned v)[k] = alpha q ∧
      q.toNat % 32 = v.toNat / 2 ^ (5 * k) % 32 ∧
      (q.getLsbD 5 = true ↔ k + 1 < (encodeUnsigned v).length) ∧
      (0 < k → k + 1 = (encodeUnsigned v).length → q.toNat % 32 ≠ 0) ∧
      (k = 12 → q.toNat % 32 ≤ 15))

/-- Decoding what the encoder emits gives the value back, whatever follows (an inference of the
spec: spec/40_varint.md R109, first direction). -/
def Obligations.DecodeUnsignedInvertsEncodeUnsigned : Prop :=
  ∀ (v : Word) (t : List Word),
    decodeUnsigned (codePoints (encodeUnsigned v) ++ t) 0 = .ok (v, (encodeUnsigned v).length)

/-- Re-encoding a decoded varint gives its symbols back exactly when it was canonical and fits 64 bits
(an inference of the spec: spec/40_varint.md R109, second direction). -/
def Obligations.ReencodingRestoresCanonicalVarints : Prop :=
  ∀ (s : List Word) (v : Word) (n : Nat), decodeUnsigned s 0 = .ok (v, n) →
    (codePoints (encodeUnsigned v) = s.take n ↔
      n ≤ 13 ∧ ∃ (c : Word) (q : Quantity), s[n - 1]? = some c ∧ lookup c = some q ∧
        (1 < n → q.toNat % 32 ≠ 0) ∧ (n = 13 → q.toNat % 32 ≤ 15))

/-- A varint spelled with superfluous zero chunks, of any length, decodes to the same value and
consumes all its symbols (spec/40_varint.md R107). -/
def Obligations.NonCanonicalVarintsAreAccepted : Prop :=
  ∀ (v : Word) (qs : List Quantity) (zeros : Nat) (t : List Word),
    encodeUnsigned v = qs.map alpha →
    decodeUnsigned
      (codePoints ((qs.map (fun q => alpha (q ||| 0x20#6))) ++ List.replicate zeros (alpha 0x20#6)
        ++ [alpha 0]) ++ t) 0
      = .ok (v, qs.length + zeros + 1)

/-- UENC emits the chunks of its operand, least significant first, the continuation bit on all but the
last, as many as the value needs, and changes no register (spec/40_varint.md R108, R100). -/
def Obligations.UencEmitsChunks : Prop :=
  ∀ (a : Word) (s : State),
    let n := if a.toNat ≤ 31 then 1 else (Nat.log2 a.toNat + 5) / 5
    exec (.uenc a) s = .next { s with resp := some ⟨.ok, .none,
      (List.range n).map (fun k =>
        alpha (BitVec.ofNat 6 (a.toNat / 2 ^ (5 * k) % 32 + if k + 1 < n then 32 else 0))),
      0, 0, 0⟩ }

/-! ## Zigzag -/

/-- ZZE answers 2v for v not negative and -2v - 1 for v negative, and changes no register
(spec/41_zigzag.md R124, R120, R121). -/
def Obligations.ZzeAnswersZigzagOfOperand : Prop :=
  ∀ (a : Word) (s : State),
    exec (.zze a) s = .next { s with resp := some ⟨.ok, .none, [],
      BitVec.ofInt 64 (if 0 ≤ a.toInt then 2 * a.toInt else -2 * a.toInt - 1), 0, 0⟩ }

/-- ZZD answers the literal decoding, arithmetic shift included, and changes no register
(spec/41_zigzag.md R125, R122). -/
def Obligations.ZzdAnswersLiteralDecoding : Prop :=
  ∀ (a : Word) (s : State),
    let u : Int := a.toNat
    exec (.zzd a) s = .next { s with resp := some ⟨.ok, .none, [],
      BitVec.ofInt 64
        (if u % 2 = 0 then (if u < 2 ^ 63 then u / 2 else u / 2 - 2 ^ 63)
         else (if u < 2 ^ 63 then -((u + 1) / 2) else (2 ^ 64 - 1 - u) / 2)), 0, 0⟩ }

/-- zigzagEncode is a bijection that maps v to 2v or -2v - 1, with the sign in bit 0
(an inference of the spec: spec/41_zigzag.md R121). -/
def Obligations.ZigzagEncodeIsBijective : Prop :=
  Function.Bijective zigzagEncode ∧
  (∀ v : Word, ((zigzagEncode v).toNat : Int) = if 0 ≤ v.toInt then 2 * v.toInt else -2 * v.toInt - 1) ∧
  (∀ v : Word, (zigzagEncode v).getLsbD 0 = v.msb) ∧
  (∀ v : Word, zigzagEncode v = (v <<< 1) ^^^ v.sshiftRight 63)

/-- zigzagDecode inverts zigzagEncode exactly on -2^62 .. 2^62 - 1, and above 2^63 it gives the true
inverse with bit 63 inverted (an inference of the spec: spec/41_zigzag.md
R123). -/
def Obligations.ZigzagInverseLaw : Prop :=
  (∀ v : Word, zigzagDecode (zigzagEncode v) = v ↔ -(2 ^ 62 : Int) ≤ v.toInt ∧ v.toInt ≤ 2 ^ 62 - 1) ∧
  (∀ v : Word, zigzagDecode (zigzagEncode v) = v ↔ (zigzagEncode v).toNat < 2 ^ 63) ∧
  (∀ v : Word, 2 ^ 63 ≤ (zigzagEncode v).toNat →
    zigzagDecode (zigzagEncode v) = v ^^^ BitVec.ofNat 64 (2 ^ 63)) ∧
  (∀ u : Word, zigzagEncode (zigzagDecode u) = u ↔ u.toNat < 2 ^ 63)

/-! ## Header and unit ENC -/

/-- Packing and unpacking the header, as numbers; unpacking never masks precision3D
(spec/42_header.md R130, R132). -/
def Obligations.HeaderPacksAndUnpacksFields : Prop :=
  (∀ (p2 : BitVec 4) (k : BitVec 3) (p3 : BitVec 4),
    (packHeader p2 k p3).toNat = p3.toNat * 128 + k.toNat * 16 + p2.toNat ∧
    (packHeader p2 k p3).toNat ≤ 2047) ∧
  (∀ h : Word,
    (unpackHeader h).p2.toNat = h.toNat % 16 ∧ (unpackHeader h).kind.toNat = h.toNat / 16 % 8 ∧
    (unpackHeader h).p3.toNat = h.toNat / 128)

/-- The header round trips in both directions: unpacking gives back what was packed, and packing gives
back `h` exactly when `h` is at most 2047, which is when its precision3D fits 4 bits
(an inference of the spec: spec/42_header.md R138). -/
def Obligations.HeaderRoundTrips : Prop :=
  (∀ (p2 : BitVec 4) (k : BitVec 3) (p3 : BitVec 4),
    unpackHeader (packHeader p2 k p3) = { p2 := p2, kind := k, p3 := BitVec.ofNat 64 p3.toNat }) ∧
  (∀ h : Word,
    ((unpackHeader h).p3.toNat ≤ 15 ↔ h.toNat ≤ 2047) ∧
    (packHeader (unpackHeader h).p2 (unpackHeader h).kind (BitVec.ofNat 4 (unpackHeader h).p3.toNat) = h
      ↔ h.toNat ≤ 2047))

/-- ESTART refuses a bad header with the first check that fails, compared on all 64 bits: ENC becomes
FAILED with the code latched, and nothing else changes (spec/42_header.md R135). -/
def Obligations.EstartRefusesBadHeader : Prop :=
  ∀ (a b c : Word) (s : State),
    let refusedWith (e : Status) : Prop :=
      exec (.estart a b c) s = .next { s with
        enc := { s.enc with st := .failed, err := e }
        resp := some ⟨e, .none, [], 0, 0, 0⟩ }
    if 15 < a.toNat ∨ 15 < c.toNat then refusedWith .invalidPrecision
    else if 7 < b.toNat then refusedWith .invalidKind
    else if b.toNat = 4 ∨ b.toNat = 5 then refusedWith .reservedKind
    else ∃ t, exec (.estart a b c) s = .next t ∧ t.enc.st = .active

/-- ESTART with a good header, from every state of ENC, writes all eight ENC registers and emits the
version symbol B and the header varint: two symbols up to 31, three up to 1023, four above
(spec/42_header.md R133, R136). -/
def Obligations.EstartOpensTransaction : Prop :=
  ∀ (a b c : Word) (s : State),
    a.toNat ≤ 15 → c.toNat ≤ 15 → b.toNat ≤ 7 → b.toNat ≠ 4 → b.toNat ≠ 5 →
    let h := c.toNat * 128 + b.toNat * 16 + a.toNat
    let syms := 66#8 :: encodeUnsigned (BitVec.ofNat 64 h)
    exec (.estart a b c) s = .next { s with
      enc := { st := .active, err := .ok, p2 := BitVec.ofNat 4 a.toNat, kind := BitVec.ofNat 3 b.toNat,
               p3 := BitVec.ofNat 4 c.toNat, plat := 0, plng := 0, pz := 0 }
      resp := some ⟨.ok, .none, syms, BitVec.ofNat 64 h, 0, 0⟩ } ∧
    syms.length = if h ≤ 31 then 2 else if h ≤ 1023 then 3 else 4

/-- EPOINT: BadSequence without a transaction, the latched code when FAILED, and in ACTIVE the zigzag
varints of the wrapped differences on two or three axes, with the point as the new accumulators
(spec/43_point_stream.md R150). -/
def Obligations.EpointEncodesPoint : Prop :=
  ∀ (a b c : Word) (s : State),
    (s.enc.st = .idle →
      exec (.epoint a b c) s = .next { s with resp := some ⟨.badSequence, .none, [], 0, 0, 0⟩ }) ∧
    (s.enc.st = .failed →
      exec (.epoint a b c) s = .next { s with resp := some ⟨s.enc.err, .none, [], 0, 0, 0⟩ }) ∧
    (s.enc.st = .active → s.enc.kind = 0 →
      let syms := encodeUnsigned (zigzagEncode (a - s.enc.plat))
        ++ encodeUnsigned (zigzagEncode (b - s.enc.plng))
      exec (.epoint a b c) s = .next { s with
        enc := { s.enc with plat := a, plng := b }
        resp := some ⟨.ok, .none, syms, a - s.enc.plat, b - s.enc.plng, 0⟩ } ∧
      2 ≤ syms.length ∧ syms.length ≤ 26) ∧
    (s.enc.st = .active → s.enc.kind ≠ 0 →
      let syms := encodeUnsigned (zigzagEncode (a - s.enc.plat))
        ++ encodeUnsigned (zigzagEncode (b - s.enc.plng))
        ++ encodeUnsigned (zigzagEncode (c - s.enc.pz))
      exec (.epoint a b c) s = .next { s with
        enc := { s.enc with plat := a, plng := b, pz := c }
        resp := some ⟨.ok, .none, syms, a - s.enc.plat, b - s.enc.plng, c - s.enc.pz⟩ } ∧
      3 ≤ syms.length ∧ syms.length ≤ 39)

/-- EEND closes an active transaction and writes only ENC_ST; BadSequence without a transaction, the
latched code when FAILED (spec/43_point_stream.md R155). -/
def Obligations.EendClosesTransaction : Prop :=
  ∀ s : State,
    (s.enc.st = .idle →
      exec .eend s = .next { s with resp := some ⟨.badSequence, .none, [], 0, 0, 0⟩ }) ∧
    (s.enc.st = .failed →
      exec .eend s = .next { s with resp := some ⟨s.enc.err, .none, [], 0, 0, 0⟩ }) ∧
    (s.enc.st = .active →
      exec .eend s = .next { s with
        enc := { s.enc with st := .idle }, resp := some ⟨.ok, .none, [], 0, 0, 0⟩ })

/-! ## Unit DEC -/

/-- DSTART, from every state of DEC, writes every DEC register and touches nothing else
(spec/43_point_stream.md R158). -/
def Obligations.DstartClearsDecoder : Prop :=
  ∀ s : State, exec .dstart s = .next { s with
    dec := { st := .inPhase .version, err := .ok, ver := 0, p2 := 0, kind := 0, p3 := 0, lat := 0,
             lng := 0, z := 0, vacc := 0, shift := 0, flags := 0, pos := 0, npts := 0 }
    resp := some ⟨.ok, .none, [], 0, 0, 0⟩ }

/-- DSYM outside an open transaction, and on a code point that is not in the alphabet: BadSequence, the
latched code, or InvalidSymbol with the code point and its index; only the last writes registers,
DEC_ST and DEC_ERR (spec/43_point_stream.md R160, spec/60_exceptions.md R200, R210). -/
def Obligations.DsymRefusals : Prop :=
  ∀ (a : Word) (s : State),
    (s.dec.st = .idle →
      exec (.dsym a) s = .next { s with resp := some ⟨.badSequence, .none, [], 0, 0, 0⟩ }) ∧
    (s.dec.st = .failed →
      exec (.dsym a) s = .next { s with resp := some ⟨s.dec.err, .none, [], 0, 0, 0⟩ }) ∧
    (∀ p, s.dec.st = .inPhase p → lookup a = none →
      exec (.dsym a) s = .next { s with
        dec := { s.dec with st := .failed, err := .invalidSymbol }
        resp := some ⟨.invalidSymbol, .none, [], a, s.dec.pos, 0⟩ })

/-- DSYM on a symbol with its continuation bit set, in any phase: the payload is placed at DEC_SHIFT,
bits at 64 and above are dropped and recorded in OVF when 1, DEC_SHIFT moves by 5 and saturates at 65
(spec/40_varint.md R105, R106). -/
def Obligations.DsymContinuesVarint : Prop :=
  ∀ (a : Word) (q : Quantity) (p : Phase) (s : State),
    s.dec.st = .inPhase p → lookup a = some q → 32 ≤ q.toNat →
    exec (.dsym a) s = .next { s with
      dec := { s.dec with
        pos := s.dec.pos + 1
        vacc := assembled s.dec q
        shift := BitVec.ofNat 7 (if 65 ≤ s.dec.shift.toNat + 5 then 65 else s.dec.shift.toNat + 5)
        flags := flagsAfter s.dec q }
      resp := some ⟨.ok, .none, [], 0, 0, 0⟩ }

/-- The payload placement of a varint in progress, bit by bit: with DEC_SHIFT at 60 payload bits 3:0
go to value bits 63:60 and bit 4 is dropped, from 64 on the whole payload is dropped, below 60 nothing
is, and OVF is set exactly when a dropped bit is 1 (spec/40_varint.md R106). -/
def Obligations.OversizedVarintBitsAreDropped : Prop :=
  ∀ (d : DecRegs) (q : Quantity),
    (d.shift.toNat + 5 ≤ 64 → flagsAfter d q = d.flags ∧
      ∀ j, j < 5 → (assembled d q).getLsbD (d.shift.toNat + j) =
        (d.vacc.getLsbD (d.shift.toNat + j) || q.getLsbD j)) ∧
    (d.shift.toNat = 60 →
      (∀ j, j < 4 → (assembled d q).getLsbD (60 + j) = (d.vacc.getLsbD (60 + j) || q.getLsbD j)) ∧
      flagOVF (flagsAfter d q) = (flagOVF d.flags || q.getLsbD 4)) ∧
    (64 ≤ d.shift.toNat → assembled d q = d.vacc ∧
      flagOVF (flagsAfter d q) = (flagOVF d.flags || decide (q.toNat % 32 ≠ 0))) ∧
    (∀ j, j < d.shift.toNat → (assembled d q).getLsbD j = d.vacc.getLsbD j) ∧
    flagHV (flagsAfter d q) = flagHV d.flags

/-- DSYM on the terminator of the version varint: DEC_VER takes the value; 1 opens phase HEADER, every
other value is UnsupportedVersion with that value (spec/43_point_stream.md R160, spec/42_header.md
R134). -/
def Obligations.DsymFinishesVersion : Prop :=
  ∀ (a : Word) (q : Quantity) (s : State),
    s.dec.st = .inPhase .version → lookup a = some q → q.toNat < 32 →
    (assembled s.dec q = 1 →
      exec (.dsym a) s = .next { s with
        dec := { afterTerminator s.dec q with ver := 1, st := .inPhase .header }
        resp := some ⟨.ok, .none, [], 0, 0, 0⟩ }) ∧
    (assembled s.dec q ≠ 1 →
      exec (.dsym a) s = .next { s with
        dec := { afterTerminator s.dec q with
          ver := assembled s.dec q, st := .failed, err := .unsupportedVersion }
        resp := some ⟨.unsupportedVersion, .none, [], assembled s.dec q, 0, 0⟩ })

/-- DSYM on the terminator of the headerContent varint: the three header fields of its value, HV set,
phase LAT, and the HEADER event with the fields (spec/43_point_stream.md R160, spec/42_header.md R132,
spec/30_encoding.md R84). -/
def Obligations.DsymFinishesHeader : Prop :=
  ∀ (a : Word) (q : Quantity) (s : State),
    s.dec.st = .inPhase .header → lookup a = some q → q.toNat < 32 →
    let h := (assembled s.dec q).toNat
    exec (.dsym a) s = .next { s with
      dec := { afterTerminator s.dec q with
        p2 := BitVec.ofNat 4 h, kind := BitVec.ofNat 3 (h / 16), p3 := BitVec.ofNat 64 (h / 128)
        flags := flagsAfter s.dec q ||| 0b01#2, st := .inPhase .lat }
      resp := some ⟨.ok, .header, [], BitVec.ofNat 64 (h % 16), BitVec.ofNat 64 (h / 16 % 8),
        BitVec.ofNat 64 (h / 128)⟩ }

/-- DSYM on the terminator of a delta varint: the zigzag-decoded delta is added to the accumulator of
its axis, and the last axis of a point (longitude when the kind is absent, the third otherwise) counts
the point and raises POINT with the new values; no other terminator does (spec/43_point_stream.md R160,
R161). -/
def Obligations.DsymFinishesDelta : Prop :=
  ∀ (a : Word) (q : Quantity) (s : State), lookup a = some q → q.toNat < 32 →
    let d := afterTerminator s.dec q
    let delta := zigzagDecode (assembled s.dec q)
    (s.dec.st = .inPhase .lat →
      exec (.dsym a) s = .next { s with
        dec := { d with lat := s.dec.lat + delta, st := .inPhase .lng }
        resp := some ⟨.ok, .none, [], 0, 0, 0⟩ }) ∧
    (s.dec.st = .inPhase .lng → s.dec.kind ≠ 0 →
      exec (.dsym a) s = .next { s with
        dec := { d with lng := s.dec.lng + delta, st := .inPhase .z }
        resp := some ⟨.ok, .none, [], 0, 0, 0⟩ }) ∧
    (s.dec.st = .inPhase .lng → s.dec.kind = 0 →
      exec (.dsym a) s = .next { s with
        dec := { d with lng := s.dec.lng + delta, npts := s.dec.npts + 1, st := .inPhase .lat }
        resp := some ⟨.ok, .point, [], s.dec.lat, s.dec.lng + delta, s.dec.z⟩ }) ∧
    (s.dec.st = .inPhase .z →
      exec (.dsym a) s = .next { s with
        dec := { d with z := s.dec.z + delta, npts := s.dec.npts + 1, st := .inPhase .lat }
        resp := some ⟨.ok, .point, [], s.dec.lat, s.dec.lng, s.dec.z + delta⟩ })

/-- DEND completes at a point boundary after the header, answers UnterminatedValue inside a varint or
before the header ends, TruncatedPoint between the varints of a point, BadSequence without a
transaction and the latched code when FAILED; it writes DEC_ST and, on an error it detects, DEC_ERR
(spec/43_point_stream.md R165). -/
def Obligations.DendDecidesCompleteness : Prop :=
  ∀ s : State,
    let failsWith (e : Status) : Prop :=
      exec .dend s = .next { s with
        dec := { s.dec with st := .failed, err := e }, resp := some ⟨e, .none, [], 0, 0, 0⟩ }
    (s.dec.st = .idle →
      exec .dend s = .next { s with resp := some ⟨.badSequence, .none, [], 0, 0, 0⟩ }) ∧
    (s.dec.st = .failed →
      exec .dend s = .next { s with resp := some ⟨s.dec.err, .none, [], 0, 0, 0⟩ }) ∧
    (s.dec.st = .inPhase .version ∨ s.dec.st = .inPhase .header → failsWith .unterminatedValue) ∧
    ((∃ p, s.dec.st = .inPhase p) → s.dec.shift ≠ 0 → failsWith .unterminatedValue) ∧
    (s.dec.st = .inPhase .lng ∨ s.dec.st = .inPhase .z → s.dec.shift = 0 → failsWith .truncatedPoint) ∧
    (s.dec.st = .inPhase .lat → s.dec.shift = 0 →
      exec .dend s = .next { s with
        dec := { s.dec with st := .idle }, resp := some ⟨.ok, .none, [], s.dec.npts, 0, 0⟩ })

/-- The number of POINT events since DSTART is DEC_NPTS, whatever is presented, and while every answer
is OK DEC_POS is the number of symbols presented (spec/10_state.md R38, R39, spec/43_point_stream.md
R161). -/
def Obligations.CountersCountPointsAndSymbols : Prop :=
  ∀ (syms : List Word) (s : State), ∃ rs u,
    runOps (.dstart :: syms.map .dsym) s = some (rs, u) ∧
    u.dec.npts = BitVec.ofNat 64 (pointEvents rs).length ∧
    ((∀ r ∈ rs, r.st = .ok) → u.dec.pos = BitVec.ofNat 64 syms.length)

/-! ## Errors -/

/-- While a unit is FAILED its data operations answer the latched code and change nothing, whatever
their operands; while it is IDLE they answer BadSequence and change nothing (spec/60_exceptions.md
R213, R205 item 2). -/
def Obligations.ClosedUnitsReplayOrRefuse : Prop :=
  ∀ (s : State) (i : Instr),
    i.mnemonic ∈ [Mnemonic.epoint, .eend, .dsym, .dend] →
    let (failed, idle, err) : Bool × Bool × Status :=
      if i.mnemonic ∈ [Mnemonic.epoint, .eend] then
        (s.enc.st == .failed, s.enc.st == .idle, s.enc.err)
      else (s.dec.st == .failed, s.dec.st == .idle, s.dec.err)
    (failed = true → exec i s = .next { s with resp := some ⟨err, .none, [], 0, 0, 0⟩ }) ∧
    (idle = true → exec i s = .next { s with resp := some ⟨.badSequence, .none, [], 0, 0, 0⟩ })

/-- Errors are precise: an operation that answers an error writes what the table of
spec/60_exceptions.md R210 lists for the code and its raiser, and nothing else. A protocol code and a
replayed latched code write no register, nor does the answer to an undefined opcode. -/
def Obligations.ErrorsArePrecise : Prop :=
  (∀ (s : State) (w : OpWord) (rest : List HostInput) (e : DecodeError),
    s.pending = .word w :: rest → decode w = .error e →
    ∃ r, r.st = .illegalOp ∧ step s = .next { s with pending := rest, resp := some r }) ∧
  ∀ (i : Instr) (s t : State) (r : Response), exec i s = .next t → t.resp = some r → r.st ≠ .ok →
    (t = { s with resp := some r } ∧
      (r.st = .badSequence ∨ r.st = .badRegister ∨
        (i.mnemonic ∈ [Mnemonic.epoint, .eend] ∧ s.enc.st = .failed ∧ r.st = s.enc.err) ∨
        (i.mnemonic ∈ [Mnemonic.dsym, .dend] ∧ s.dec.st = .failed ∧ r.st = s.dec.err))) ∨
    ((∃ a b c, i = .estart a b c) ∧ r.st ∈ [Status.invalidPrecision, .invalidKind, .reservedKind] ∧
      t = { s with enc := { s.enc with st := .failed, err := r.st }, resp := some r }) ∨
    ((∃ a q, i = .dsym a ∧ lookup a = some q ∧
      r = ⟨.unsupportedVersion, .none, [], assembled s.dec q, 0, 0⟩ ∧
      t = { s with
        dec := { afterTerminator s.dec q with
          st := .failed, err := .unsupportedVersion, ver := assembled s.dec q }
        resp := some r })) ∨
    ((∃ a, i = .dsym a ∧ r = ⟨.invalidSymbol, .none, [], a, s.dec.pos, 0⟩ ∧
      t = { s with dec := { s.dec with st := .failed, err := .invalidSymbol }, resp := some r })) ∨
    (i = .dend ∧ r.st ∈ [Status.truncatedPoint, .unterminatedValue] ∧
      t = { s with dec := { s.dec with st := .failed, err := r.st }, resp := some r })

/-- ENC leaves FAILED only by a successful ESTART, to ACTIVE, or by reset, to IDLE, and only a failing
ESTART replaces its latched code, always by the new one; DEC leaves FAILED only by DSTART, to VERSION, or by reset, to IDLE,
and keeps the first error. A unit fails with no protocol code and without an effect on the other unit
(spec/60_exceptions.md R214). -/
def Obligations.FailedIsLeftOnlyByStartOrReset : Prop :=
  ∀ s t : State, step s = .next t →
    (s.enc.st = .failed → t.enc.st ≠ .failed →
      (∃ rest, s.pending = .reset :: rest ∧ t.enc.st = .idle) ∨
      (∃ w rest a b c, s.pending = .word w :: rest ∧ decode w = .ok (.estart a b c) ∧
        t.enc.st = .active)) ∧
    (s.dec.st = .failed → t.dec.st ≠ .failed →
      (∃ rest, s.pending = .reset :: rest ∧ t.dec.st = .idle) ∨
      (∃ w rest, s.pending = .word w :: rest ∧ decode w = .ok .dstart ∧
        t.dec.st = .inPhase .version)) ∧
    (s.enc.st = .failed → t.enc.st = .failed → t.enc.err = s.enc.err ∨
      ∃ w rest a b c, s.pending = .word w :: rest ∧ decode w = .ok (.estart a b c) ∧
        validate a b c = some t.enc.err) ∧
    (∀ w rest a b c e, s.pending = .word w :: rest → decode w = .ok (.estart a b c) →
      validate a b c = some e → t.enc.st = .failed ∧ t.enc.err = e) ∧
    (s.dec.st = .failed → t.dec.st = .failed → t.dec.err = s.dec.err) ∧
    (s.enc.st ≠ .failed → t.enc.st = .failed →
      t.dec = s.dec ∧ t.enc.err ∉ [Status.illegalOp, .badSequence, .badRegister]) ∧
    (s.dec.st ≠ .failed → t.dec.st = .failed →
      t.enc = s.enc ∧ t.dec.err ∉ [Status.illegalOp, .badSequence, .badRegister])

/-- HV and OVF, once set, are cleared only by DSTART and reset; HV is set only by the DSYM that ends
the headerContent varint, OVF only by a DSYM that drops a 1 (spec/10_state.md R45). -/
def Obligations.FlagsSetAndClearedAsListed : Prop :=
  ∀ s t : State, step s = .next t →
    (flagHV s.dec.flags = true ∧ flagHV t.dec.flags = false ∨
      flagOVF s.dec.flags = true ∧ flagOVF t.dec.flags = false →
      ∃ rest, s.pending = .reset :: rest ∨
        ∃ w, s.pending = .word w :: rest ∧ decode w = .ok .dstart) ∧
    (flagHV s.dec.flags = false → flagHV t.dec.flags = true →
      s.dec.st = .inPhase .header ∧ ∃ w rest a q, s.pending = .word w :: rest ∧
        decode w = .ok (.dsym a) ∧ lookup a = some q ∧ q.toNat < 32) ∧
    (flagOVF s.dec.flags = false → flagOVF t.dec.flags = true →
      ∃ w rest a q, s.pending = .word w :: rest ∧ decode w = .ok (.dsym a) ∧ lookup a = some q ∧
        2 ^ 64 ≤ q.toNat % 32 * 2 ^ s.dec.shift.toNat)

/-- The codes each operation may answer, in every state that meets the invariants; it always answers
(an inference of the spec: spec/60_exceptions.md R202). -/
def Obligations.OperationsAnswerListedCodes : Prop :=
  ∀ (i : Instr) (s : State), Machine.Inv s →
    ∃ t r, exec i s = .next t ∧ t.resp = some r ∧ r.st ∈ answerable i

/-- Every response a step delivers is well shaped: an error carries no event, no symbol and no third
value, and there are at most 39 symbols, each from ALPHA (spec/60_exceptions.md R211,
spec/30_encoding.md R83). -/
def Obligations.StepKeepsResponsesWellShaped : Prop :=
  ∀ s t : State, step s = .next t →
    (∀ r, s.resp = some r → WellShaped r) → ∀ r, t.resp = some r → WellShaped r

/-! ## Invariants -/

/-- The reset state meets the invariants (spec/10_state.md R48, R49). -/
def Obligations.ResetMeetsInvariants : Prop := Machine.Inv State.reset

/-- Every step keeps the invariants (spec/10_state.md R48 with the facts of R33, R34, R45,
spec/40_varint.md R105 and spec/43_point_stream.md R150 that make it inductive). -/
def Obligations.StepKeepsInvariants : Prop :=
  ∀ s t : State, Machine.Inv s → step s = .next t → Machine.Inv t

/-- The listed invariants hold in every state reached from reset by any sequence of operation words
and reset events (an inference of the spec: spec/10_state.md R48). -/
def Obligations.ReachableStatesMeetListedInvariants : Prop :=
  ∀ (inputs : List HostInput) (n : Nat), ∃ t,
    Host.Core.run Sys2Proof.core n { State.reset with pending := inputs } = .next t ∧ ListedInvariants t

/-! ## Units and transactions -/

/-- An ENC operation reads and writes no DEC register, a DEC operation no ENC register, and the
stateless operations and RDREG write none; what a unit's operation answers depends on that unit alone
(spec/10_state.md R20). -/
def Obligations.UnitsShareNoState : Prop :=
  ∀ (i : Instr) (s s' t t' : State), exec i s = .next t → exec i s' = .next t' →
    (i.mnemonic.codecUnit ≠ some .enc → t.enc = s.enc) ∧
    (i.mnemonic.codecUnit ≠ some .dec → t.dec = s.dec) ∧
    (i.mnemonic.codecUnit = some .enc → s.enc = s'.enc → t.enc = t'.enc ∧ t.resp = t'.resp) ∧
    (i.mnemonic.codecUnit = some .dec → s.dec = s'.dec → t.dec = t'.dec ∧ t.resp = t'.resp)

/-- However the operations of ENC, of DEC and of neither are interleaved, each unit's operations get
the responses, and leave the unit in the state, that they would alone (an inference of the spec:
spec/20_memory.md R71). -/
def Obligations.InterleavedUnitsDoNotInterfere : Prop :=
  ∀ (u : CodecUnit) (is : List Instr) (s : State),
    let mine (i : Instr) : Bool := i.mnemonic.codecUnit == some u
    ∃ rs t rs' t',
      runOps is s = some (rs, t) ∧ runOps (is.filter mine) s = some (rs', t') ∧
      rs' = ((is.zip rs).filter (fun x => mine x.1)).map Prod.snd ∧
      (u = .enc → t'.enc = t.enc) ∧ (u = .dec → t'.dec = t.dec)

/-- The responses of a complete transaction do not depend on the state it starts in
(an inference of the spec: spec/70_reset_and_hazards.md R231). -/
def Obligations.TransactionsIgnoreStartState : Prop :=
  (∀ (p2 k p3 : Word) (pts : List Point) (s s' : State), ∃ rs u u',
    runOps (encodeOps p2 k p3 pts) s = some (rs, u) ∧
    runOps (encodeOps p2 k p3 pts) s' = some (rs, u')) ∧
  (∀ (syms : List Word) (s s' : State), ∃ rs u u',
    runOps (decodeOps syms) s = some (rs, u) ∧ runOps (decodeOps syms) s' = some (rs, u') ∧
    u.dec = u'.dec) ∧
  (∀ (i : Instr) (s s' : State), i.mnemonic ∈ [Mnemonic.zze, .zzd, .uenc] → ∃ r u u',
    perform i s = some (r, u) ∧ perform i s' = some (r, u'))

/-- ENCODE run on the block, from any state, gives encodeInts of its arguments; when validation fails,
every response is that error and emits nothing (an inference of the spec:
spec/44_system_and_host.md R185; the outcome is read from the responses, log 20). -/
def Obligations.EncodeTransactionComputesEncodeInts : Prop :=
  ∀ (p2 k p3 : Word) (pts : List Point) (s : State),
    runEncode p2 k p3 pts s = some (encodeInts p2 k p3 pts) ∧
    (∀ e, validate p2 k p3 = some e → ∃ rs u, runOps (encodeOps p2 k p3 pts) s = some (rs, u) ∧
      ∀ r ∈ rs, r.st = e ∧ r.syms = [])

/-- DECODE run on the block, from any state, gives decodeString of the symbols: the same header and
points, or the same error (an inference of the spec: spec/43_point_stream.md R171;
the header is read back from its event, log 20). -/
def Obligations.DecodeTransactionComputesDecodeString : Prop :=
  ∀ (syms : List Word) (s : State), runDecode syms s = some (decodeString syms)

/-- A peek gives the kind of the header, or the error its two varints give, and leaves DEC in phase LAT
with the kind readable (an inference of the spec: spec/44_system_and_host.md R187; log 17,
log 20). -/
def Obligations.PeekReadsKindOfHeader : Prop :=
  ∀ (syms : List Word) (s : State), ∃ u,
    (∀ e, decodeHeader syms = .error e → runPeek syms s = some (.error e, u)) ∧
    (∀ h n, decodeHeader syms = .ok (h, n) →
      runPeek syms s = some (.ok h.kind, u) ∧ u.dec.st = .inPhase .lat ∧ u.dec.kind = h.kind ∧
      flagHV u.dec.flags = true)

/-- Encoding and decoding integer points gives them back when every delta lies in -2^62 .. 2^62 - 1:
every response is OK, DEND counts the points and OVF stays 0 (an inference of the spec:
spec/43_point_stream.md R170; the outcome and its header are read from the responses, log 20). -/
def Obligations.RoundTripOfRecoverablePoints : Prop :=
  ∀ (p2 k p3 : Word) (pts : List Point) (s s' : State) (str : List Sym),
    runEncode p2 k p3 pts s = some (.ok str) →
    recoverableDeltas k { lat := 0, lng := 0, z := 0 } pts →
    runDecode (codePoints str) s' = some (.ok
      { header := { p2 := BitVec.ofNat 4 p2.toNat, kind := BitVec.ofNat 3 k.toNat, p3 := p3 }
        pts := pts.map (deliveredPoint k) }) ∧
    ∃ rs u, runOps (decodeOps (codePoints str)) s' = some (rs, u) ∧ (∀ r ∈ rs, r.st = .ok) ∧
      rs.getLast?.map (·.r0) = some (BitVec.ofNat 64 pts.length) ∧ flagOVF u.dec.flags = false

/-- Without the proviso, a delta outside -2^62 .. 2^62 - 1 puts its axis off by 2^63 from that point
on, and two such errors cancel (an inference of the spec:
spec/43_point_stream.md R170; the outcome and its header are read from the responses, log 20). -/
def Obligations.RoundTripDriftsByUnrecoverableDeltas : Prop :=
  ∀ (p2 k p3 : Word) (pts : List Point) (s s' : State) (str : List Sym),
    runEncode p2 k p3 pts s = some (.ok str) →
    runDecode (codePoints str) s' = some (.ok
      { header := { p2 := BitVec.ofNat 4 p2.toNat, kind := BitVec.ofNat 3 k.toNat, p3 := p3 }
        pts := driftedPoints k { lat := 0, lng := 0, z := 0 } { lat := 0, lng := 0, z := 0 } pts })

/-- Host and block together, with exact arithmetic in the host: scaling, encoding, decoding and
dividing gives every coordinate back within half a unit of its precision, for every rounding within
one half (an inference of the spec: spec/44_system_and_host.md R192; the
exact rationals are the model's choice, log 14; the outcome is read from the responses, log 20). -/
def Obligations.HostRoundTripWithinHalfUnit : Prop :=
  ∀ (hostRound : ℚ → ℤ), (∀ x : ℚ, |(hostRound x : ℚ) - x| ≤ 1 / 2) →
  ∀ (p2 k p3 : Word) (gs : List GeoPoint) (s s' : State), validate p2 k p3 = none →
    (∀ g ∈ gs, |g.lat * hostScale p2.toNat| ≤ 2 ^ 61 - 1 ∧ |g.lng * hostScale p2.toNat| ≤ 2 ^ 61 - 1 ∧
      (k ≠ 0 → |g.third * hostScale p3.toNat| ≤ 2 ^ 61 - 1)) →
    ∃ str pl, runEncode p2 k p3 (gs.map (hostPoint hostRound p2 k p3)) s = some (.ok str) ∧
      runDecode (codePoints str) s' = some (.ok pl) ∧
      List.Forall₂ (fun g p =>
        |hostCoordinate p2.toNat p.lat - g.lat| ≤ 1 / (2 * hostScale p2.toNat) ∧
        |hostCoordinate p2.toNat p.lng - g.lng| ≤ 1 / (2 * hostScale p2.toNat) ∧
        (k ≠ 0 → |hostCoordinate p3.toNat p.z - g.third| ≤ 1 / (2 * hostScale p3.toNat)))
        gs pl.pts

/-- The named default of HOST_ROUND stays within one half, and takes ties away from zero
(spec/44_system_and_host.md R190; log 14). -/
def Obligations.RoundHalfAwayStaysWithinHalf : Prop :=
  (∀ x : ℚ, |(roundHalfAway x : ℚ) - x| ≤ 1 / 2) ∧
  (∀ n : ℕ, roundHalfAway (n + 1 / 2) = n + 1) ∧ (∀ n : ℕ, roundHalfAway (-(n + 1 / 2)) = -(n + 1))

/-- The result of a transaction is defined only once its closing operation has answered: without it
there is none. With it, a response that is not OK makes the result that error, the first one, and
nothing else; only when every response is OK is there a string or a polyline with the points delivered. A result or
an error, and never both, is spec/60_exceptions.md R212; that an encode transaction too has no outcome
before its EEND, and that the error is the first one, is the model's reading (log 20, from
spec/92_eei_decisions.md D4). -/
def Obligations.OutcomeIsDefinedByClosingOperation : Prop :=
  (∀ (p2 k p3 : Word) (pts : List Point) (s : State),
    let opened : List Instr := .estart p2 k p3 :: pts.map (fun p => .epoint p.lat p.lng p.z)
    ∃ rs u r t, runOps opened s = some (rs, u) ∧ perform .eend u = some (r, t) ∧
      encodeOutcome (opened.zip rs) = none ∧
      ((∀ x ∈ rs ++ [r], x.st = .ok) → runEncode p2 k p3 pts s = some (.ok (emitted rs))) ∧
      (∀ before x after, rs ++ [r] = before ++ x :: after → (∀ y ∈ before, y.st = .ok) →
        x.st ≠ .ok → runEncode p2 k p3 pts s = some (.error x.st))) ∧
  (∀ (syms : List Word) (s : State),
    let opened : List Instr := .dstart :: syms.map .dsym
    ∃ rs u r t, runOps opened s = some (rs, u) ∧ perform .dend u = some (r, t) ∧
      decodeOutcome (opened.zip rs) = none ∧
      ((∀ x ∈ rs ++ [r], x.st = .ok) →
        ∃ h, runDecode syms s = some (.ok { header := h, pts := pointEvents rs })) ∧
      (∀ before x after, rs ++ [r] = before ++ x :: after → (∀ y ∈ before, y.st = .ok) →
        x.st ≠ .ok → runDecode syms s = some (.error x.st)))
end

