-- ==== Sys2Proof/Laws/State.lean ====
section
/-! SUPPORT. One lemma per field per named update of `State`, so that no proof unfolds an update. -/

namespace Sys2Proof.Machine

@[simp] theorem respond_enc (r : Response) (s : State) : (respond r s).enc = s.enc := rfl
@[simp] theorem respond_dec (r : Response) (s : State) : (respond r s).dec = s.dec := rfl
@[simp] theorem respond_pending (r : Response) (s : State) : (respond r s).pending = s.pending := rfl
@[simp] theorem respond_resp (r : Response) (s : State) : (respond r s).resp = some r := rfl

@[simp] theorem replay_enc (e : Status) (s : State) : (replay e s).enc = s.enc := rfl
@[simp] theorem replay_dec (e : Status) (s : State) : (replay e s).dec = s.dec := rfl
@[simp] theorem replay_pending (e : Status) (s : State) : (replay e s).pending = s.pending := rfl
@[simp] theorem replay_resp (e : Status) (s : State) :
    (replay e s).resp = some (errorResponse e 0 0) := rfl

@[simp] theorem latch_pending (e : Status) (s : State) : (latch e s).pending = s.pending := by
  unfold latch; split <;> rfl
@[simp] theorem latch_resp (e : Status) (s : State) : (latch e s).resp = s.resp := by
  unfold latch; split <;> rfl

@[simp] theorem raise_pending (e : Status) (r0 r1 : Word) (s : State) :
    (raise e r0 r1 s).pending = s.pending := by simp [raise]
@[simp] theorem raise_resp (e : Status) (r0 r1 : Word) (s : State) :
    (raise e r0 r1 s).resp = some (errorResponse e r0 r1) := rfl

@[simp] theorem applyReset_enc (s : State) : (applyReset s).enc = EncRegs.reset := rfl
@[simp] theorem applyReset_dec (s : State) : (applyReset s).dec = DecRegs.reset := rfl
@[simp] theorem applyReset_pending (s : State) : (applyReset s).pending = s.pending := rfl
@[simp] theorem applyReset_resp (s : State) : (applyReset s).resp = none := rfl

@[simp] theorem withFetchWord_enc (s : State) (nbits w : Nat) :
    (s.withFetchWord nbits w).enc = s.enc := rfl
@[simp] theorem withFetchWord_dec (s : State) (nbits w : Nat) :
    (s.withFetchWord nbits w).dec = s.dec := rfl
@[simp] theorem withFetchWord_resp (s : State) (nbits w : Nat) :
    (s.withFetchWord nbits w).resp = s.resp := rfl
@[simp] theorem withFetchWord_pending (s : State) (nbits w : Nat) :
    (s.withFetchWord nbits w).pending = .word (wordOfBits nbits w) :: s.pending := rfl

end Sys2Proof.Machine
end

