-- ==== Sys2Proof/Laws/Ops.lean ====
section
/-! SUPPORT. For each shared operation one lemma that says everything it can do. -/

namespace Sys2Proof.Machine

/-- A code latched in ENC writes `ENC_ST` and `ENC_ERR` and answers (spec/60_exceptions.md R210). -/
theorem raise_enc {e : Status} (h : latchUnit e = some .enc) (r0 r1 : Word) (s : State) :
    raise e r0 r1 s = { s with
      enc := { s.enc with st := .failed, err := e }, resp := some (errorResponse e r0 r1) } := by
  simp [raise, latch, h, respond]

/-- A code latched in DEC writes `DEC_ST` and `DEC_ERR` and answers (spec/60_exceptions.md R210). -/
theorem raise_dec {e : Status} (h : latchUnit e = some .dec) (r0 r1 : Word) (s : State) :
    raise e r0 r1 s = { s with
      dec := { s.dec with st := .failed, err := e }, resp := some (errorResponse e r0 r1) } := by
  simp [raise, latch, h, respond]

/-- A protocol code changes no register and answers (spec/60_exceptions.md R210). -/
theorem raise_protocol {e : Status} (h : latchUnit e = none) (r0 r1 : Word) (s : State) :
    raise e r0 r1 s = { s with resp := some (errorResponse e r0 r1) } := by
  simp [raise, latch, h, respond]

/-- A replay answers and changes nothing else (spec/60_exceptions.md R213). -/
theorem replay_eq (e : Status) (s : State) :
    replay e s = { s with resp := some (errorResponse e 0 0) } := rfl

/-- The answer to a rejected word changes no register (spec/44_system_and_host.md R181). -/
theorem answerRejected_eq (op : BitVec 8) (s : State) :
    answerRejected (.undefinedOpcode op) s =
      { s with resp := some (errorResponse .illegalOp (zext64 op) 0) } := rfl

/-- Every register read comes from the registers, not from the ports. -/
theorem readReg_congr {s t : State} (a : Word) (he : s.enc = t.enc) (hd : s.dec = t.dec) :
    readReg a s = readReg a t := by
  simp only [readReg, he, hd]

theorem fetch_nil {s : State} (h : s.pending = []) : fetch s = none := by
  simp [fetch, h]

theorem fetch_cons {s : State} {i : HostInput} {rest : List HostInput} (h : s.pending = i :: rest) :
    fetch s = some (i, { s with pending := rest }) := by
  simp [fetch, h]

/-- What one step can do: wait, reset, perform an operation, or answer an undefined opcode
(spec/00_scope.md R9). -/
theorem step_cases {s : State} {o : Host.Outcome State Fault Refusal} (h : step s = o) :
    (s.pending = [] ∧ o = .next s) ∨
    (∃ rest, s.pending = .reset :: rest ∧ o = .next (applyReset { s with pending := rest })) ∨
    (∃ w rest i, s.pending = .word w :: rest ∧ decode w = .ok i ∧
      o = exec i { s with pending := rest }) ∨
    (∃ w rest e, s.pending = .word w :: rest ∧ decode w = .error e ∧
      o = .next (answerRejected e { s with pending := rest })) := by
  subst h
  rcases hp : s.pending with _ | ⟨_ | _, rest⟩
  · exact .inl ⟨rfl, by simp [step, fetch_nil hp]⟩
  · rename_i w
    rcases hd : decode w with e | i
    · exact .inr (.inr (.inr ⟨w, rest, e, rfl, hd, by simp [step, fetch_cons hp, hd]⟩))
    · exact .inr (.inr (.inl ⟨w, rest, i, rfl, hd, by simp [step, fetch_cons hp, hd]⟩))
  · exact .inr (.inl ⟨rest, rfl, by simp [step, fetch_cons hp]⟩)

/-- The payload is the low five bits (spec/40_varint.md R103). -/
theorem payload_toNat (q : Quantity) : (payload q).toNat = q.toNat % 32 := by
  simp [payload]

/-- The continuation bit is set exactly from 32 on (spec/40_varint.md R103). -/
theorem continues_iff (q : Quantity) : continues q = true ↔ 32 ≤ q.toNat := by
  revert q; decide

/-- What the varint step can do, in the terms of Safety.lean (spec/40_varint.md R105). -/
theorem vstep_cases (c : Word) (d : DecRegs) :
    (lookup c = none ∧ vstep c d = .invalid) ∨
    (∃ q, lookup c = some q ∧ 32 ≤ q.toNat ∧ vstep c d = .continues { d with
      pos := d.pos + 1, vacc := assembled d q, flags := flagsAfter d q
      shift := BitVec.ofNat 7 (min (d.shift.toNat + 5) 65) }) ∨
    (∃ q, lookup c = some q ∧ q.toNat < 32 ∧
      vstep c d = .complete (afterTerminator d q) (assembled d q)) := by
  have flags (q : Quantity) : orOVF (q.toNat % 32 * 2 ^ d.shift.toNat / 2 ^ 64 != 0) d.flags
      = flagsAfter d q := by
    unfold orOVF flagsAfter
    have : (q.toNat % 32 * 2 ^ d.shift.toNat / 2 ^ 64 != 0) = true ↔
        2 ^ 64 ≤ q.toNat % 32 * 2 ^ d.shift.toNat := by
      rw [bne_iff_ne, Nat.ne_zero_iff_zero_lt, Nat.div_pos_iff]; omega
    by_cases h : 2 ^ 64 ≤ q.toNat % 32 * 2 ^ d.shift.toNat
    · rw [if_pos h, if_pos (this.2 h)]
    · rw [if_neg h, if_neg (fun hx => h (this.1 hx))]
  have value (q : Quantity) : d.vacc ||| BitVec.ofNat 64 (q.toNat % 32 * 2 ^ d.shift.toNat % 2 ^ 64)
      = assembled d q := by
    unfold assembled
    congr 1
    apply BitVec.eq_of_toNat_eq
    simp
  unfold vstep
  cases hq : lookup c with
  | none => exact .inl ⟨rfl, rfl⟩
  | some q =>
    simp only [payload_toNat, flags, value, Config.chunkBits, Config.shiftMax]
    by_cases hc : 32 ≤ q.toNat
    · exact .inr (.inl ⟨q, rfl, hc, by simp [(continues_iff q).2 hc]⟩)
    · have : continues q = false := by
        rw [← Bool.not_eq_true, continues_iff]; exact hc
      exact .inr (.inr ⟨q, rfl, by omega, by simp [this, afterTerminator]⟩)

end Sys2Proof.Machine
end

