-- ==== Sys2Proof/Laws/Exec.lean ====
section
/-! SUPPORT. What every operation has in common: it answers, and it neither reads nor writes the
ports but for its own response (spec/00_scope.md R9, spec/30_encoding.md R83). -/

namespace Sys2Proof.Machine

/-- The end of a varint in any phase answers and leaves ENC and the inputs alone. -/
theorem finishVarint_answers (p : Phase) (v : Word) (s : State) :
    (∃ r, (finishVarint p v s).resp = some r) ∧
    (finishVarint p v s).pending = s.pending ∧ (finishVarint p v s).enc = s.enc := by
  cases p <;> simp only [finishVarint]
  · split <;> simp [raise_dec (e := .unsupportedVersion) rfl]
  · simp
  · simp
  · split <;> simp
  · simp

/-- The end of a varint does not read the ports. -/
theorem finishVarint_ports (p : Phase) (v : Word) (s : State) (inputs : List HostInput)
    (x : Option Response) :
    finishVarint p v { s with pending := inputs, resp := x } =
      { finishVarint p v s with pending := inputs } := by
  cases p <;> simp only [finishVarint]
  · split <;> rfl
  · rfl
  · rfl
  · split <;> rfl
  · rfl

/-- Every operation answers in every state, and leaves the host's inputs alone. -/
theorem exec_answers (i : Instr) (s : State) :
    ∃ t r, exec i s = .next t ∧ t.resp = some r ∧ t.pending = s.pending := by
  cases i <;> simp only [exec]
  case zze => exact ⟨_, _, rfl, rfl, rfl⟩
  case zzd => exact ⟨_, _, rfl, rfl, rfl⟩
  case uenc => exact ⟨_, _, rfl, rfl, rfl⟩
  case dstart => exact ⟨_, _, rfl, rfl, rfl⟩
  case estart => unfold execEstart; split <;> exact ⟨_, _, rfl, rfl, by simp⟩
  case epoint =>
    unfold execEpoint
    split
    · exact ⟨_, _, rfl, rfl, by simp⟩
    · exact ⟨_, _, rfl, rfl, by simp⟩
    · dsimp only
      split <;> exact ⟨_, _, rfl, rfl, by simp⟩
  case eend => unfold execEend; split <;> exact ⟨_, _, rfl, rfl, by simp⟩
  case dsym =>
    unfold execDsym
    split
    · exact ⟨_, _, rfl, rfl, by simp⟩
    · exact ⟨_, _, rfl, rfl, by simp⟩
    · rename_i p _
      split
      · exact ⟨_, _, rfl, rfl, by simp⟩
      · exact ⟨_, _, rfl, rfl, by simp⟩
      · rename_i d v _
        obtain ⟨⟨r, hr⟩, hp, -⟩ := finishVarint_answers p v { s with dec := d }
        exact ⟨_, r, rfl, hr, by rw [hp]⟩
  case dend =>
    unfold execDend
    repeat' split
    all_goals exact ⟨_, _, rfl, rfl, by simp⟩
  case rdreg => unfold execRdreg; split <;> exact ⟨_, _, rfl, rfl, by simp⟩

/-- No operation reads the ports: with other inputs and another last response it does the same. -/
theorem exec_ports {i : Instr} {s t : State} (h : exec i s = .next t) (inputs : List HostInput)
    (x : Option Response) :
    exec i { s with pending := inputs, resp := x } = .next { t with pending := inputs } := by
  cases i <;> simp only [exec] at h ⊢
  case zze => cases h; rfl
  case zzd => cases h; rfl
  case uenc => cases h; rfl
  case dstart => cases h; rfl
  case estart a b c =>
    unfold execEstart at h ⊢
    split at h
    · rename_i e he
      cases h
      simp only [raise, respond, latch]
      congr 1
      split <;> rfl
    · cases h; rfl
  case epoint =>
    unfold execEpoint at h ⊢
    cases hs : s.enc.st <;> simp only [hs] at h ⊢
    · cases h; rfl
    · split at h <;> cases h <;> simp_all [respond]
    · cases h; rfl
  case eend =>
    unfold execEend at h ⊢
    cases hs : s.enc.st <;> simp only [hs] at h ⊢ <;> cases h <;> rfl
  case dsym a =>
    unfold execDsym at h ⊢
    cases hs : s.dec.st <;> simp only [hs] at h ⊢
    · cases h; rfl
    · cases hv : vstep a s.dec <;> simp only [hv] at h ⊢ <;> cases h
      · rfl
      · rfl
      · rename_i p d v
        exact congrArg Host.Outcome.next (finishVarint_ports p v { s with dec := d } inputs x)
    · cases h; rfl
  case dend =>
    unfold execDend at h ⊢
    cases hs : s.dec.st <;> simp only [hs] at h ⊢
    · cases h; rfl
    · split at h
      · cases h; rw [if_pos (by assumption)]; rfl
      · rw [if_neg (by assumption)]
        split at h
        · cases h; rw [if_pos (by assumption)]; rfl
        · rw [if_neg (by assumption)]
          split at h
          · cases h; rw [if_pos (by assumption)]; rfl
          · cases h; rw [if_neg (by assumption)]; rfl
    · cases h; rfl
  case rdreg a =>
    unfold execRdreg at h ⊢
    rw [readReg_congr (s := { s with pending := inputs, resp := x }) (t := s) a rfl rfl]
    split at h <;> cases h <;> rfl

/-- `perform` always answers, with the response the operation left. -/
theorem perform_answers (i : Instr) (s : State) :
    ∃ r t, perform i s = some (r, t) ∧ exec i s = .next t ∧ t.resp = some r ∧
      t.pending = s.pending := by
  obtain ⟨t, r, h, hr, hp⟩ := exec_answers i s
  exact ⟨r, t, by simp [perform, h, hr], h, hr, hp⟩

/-- A run of the machine one step at a time. -/
theorem run_of_step {s t : State} (h : step s = .next t) (n : Nat) :
    Host.Core.run Sys2Proof.core (n + 1) s = Host.Core.run Sys2Proof.core n t := by
  have h' : Sys2Proof.core.step s = .next t := h
  simp only [Host.Core.run, h']

/-- A list of operations one by one. -/
theorem runOps_cons {i : Instr} {s t : State} {r : Response} (h : perform i s = some (r, t))
    (is : List Instr) :
    runOps (i :: is) s = (runOps is t).map (fun x => (r :: x.1, x.2)) := by
  simp only [runOps, h]
  cases runOps is t <;> rfl

/-- A list of operations in two parts. -/
theorem runOps_append (is js : List Instr) (s : State) :
    runOps (is ++ js) s =
      (runOps is s).bind (fun x => (runOps js x.2).map (fun y => (x.1 ++ y.1, y.2))) := by
  induction is generalizing s with
  | nil => cases h : runOps js s <;> simp [runOps, h]
  | cons i is ih =>
    obtain ⟨r, t, h, -⟩ := perform_answers i s
    rw [List.cons_append, runOps_cons h, runOps_cons h, ih]
    cases runOps is t with
    | none => rfl
    | some x => cases h' : runOps js x.2 <;> simp [h']

end Sys2Proof.Machine
end

