-- ==== Sys2Proof/Laws/Effect.lean ====
section
/-! SUPPORT. Everything an operation can do, said once: `exec_effect` turns `exec i s = .next t` into
one named case of `Effect`, with the next state written out. Invariants and whole-machine rules are
case splits over it, and no later proof unfolds a meaning. -/

namespace Sys2Proof.Machine

/-- The ways `exec i s = .next t` comes about. -/
inductive Effect : Instr → State → State → Prop where
  | zze (a : Word) (s : State) :
      Effect (.zze a) s { s with resp := some { okResponse with r0 := zigzagEncode a } }
  | zzd (a : Word) (s : State) :
      Effect (.zzd a) s { s with resp := some { okResponse with r0 := zigzagDecode a } }
  | uenc (a : Word) (s : State) :
      Effect (.uenc a) s { s with resp := some { okResponse with syms := encodeUnsigned a } }
  | estartRefused (a b c : Word) (s : State) (e : Status) (he : validate a b c = some e)
      (hc : e = .invalidPrecision ∨ e = .invalidKind ∨ e = .reservedKind) :
      Effect (.estart a b c) s { s with
        enc := { s.enc with st := .failed, err := e }, resp := some (errorResponse e 0 0) }
  | estartOpened (a b c : Word) (s : State) (he : validate a b c = none) :
      Effect (.estart a b c) s { s with
        enc := { st := .active, err := .ok, p2 := precisionBits a, kind := kindBits b,
                 p3 := precisionBits c, plat := 0, plng := 0, pz := 0 }
        resp := some { okResponse with
          syms := encodeUnsigned Config.cfgVersion
            ++ encodeUnsigned (packHeader (precisionBits a) (kindBits b) (precisionBits c))
          r0 := packHeader (precisionBits a) (kindBits b) (precisionBits c) } }
  | epointThree (a b c : Word) (s : State) (hs : s.enc.st = .active) (hk : s.enc.kind ≠ 0) :
      Effect (.epoint a b c) s { s with
        enc := { s.enc with plat := a, plng := b, pz := c }
        resp := some { okResponse with
          syms := deltaSyms a s.enc.plat ++ deltaSyms b s.enc.plng ++ deltaSyms c s.enc.pz
          r0 := a - s.enc.plat, r1 := b - s.enc.plng, r2 := c - s.enc.pz } }
  | epointTwo (a b c : Word) (s : State) (hs : s.enc.st = .active) (hk : s.enc.kind = 0) :
      Effect (.epoint a b c) s { s with
        enc := { s.enc with plat := a, plng := b }
        resp := some { okResponse with
          syms := deltaSyms a s.enc.plat ++ deltaSyms b s.enc.plng
          r0 := a - s.enc.plat, r1 := b - s.enc.plng } }
  | eend (s : State) (hs : s.enc.st = .active) :
      Effect .eend s { s with enc := { s.enc with st := .idle }, resp := some okResponse }
  | encIdle (i : Instr) (s : State) (hi : (∃ a b c, i = .epoint a b c) ∨ i = .eend)
      (hs : s.enc.st = .idle) :
      Effect i s { s with resp := some (errorResponse .badSequence 0 0) }
  | encFailed (i : Instr) (s : State) (hi : (∃ a b c, i = .epoint a b c) ∨ i = .eend)
      (hs : s.enc.st = .failed) :
      Effect i s { s with resp := some (errorResponse s.enc.err 0 0) }
  | dstart (s : State) :
      Effect .dstart s { s with
        dec := { DecRegs.reset with st := .inPhase .version }, resp := some okResponse }
  | dsymInvalid (a : Word) (s : State) (p : Phase) (hs : s.dec.st = .inPhase p)
      (hl : lookup a = none) :
      Effect (.dsym a) s { s with
        dec := { s.dec with st := .failed, err := .invalidSymbol }
        resp := some (errorResponse .invalidSymbol a s.dec.pos) }
  | dsymContinues (a : Word) (s : State) (p : Phase) (q : Quantity) (hs : s.dec.st = .inPhase p)
      (hl : lookup a = some q) (hq : 32 ≤ q.toNat) :
      Effect (.dsym a) s { s with
        dec := { s.dec with
          pos := s.dec.pos + 1, vacc := assembled s.dec q, flags := flagsAfter s.dec q
          shift := BitVec.ofNat 7 (min (s.dec.shift.toNat + 5) 65) }
        resp := some okResponse }
  | dsymVersionBad (a : Word) (s : State) (q : Quantity) (hs : s.dec.st = .inPhase .version)
      (hl : lookup a = some q) (hq : q.toNat < 32) (hv : assembled s.dec q ≠ 1) :
      Effect (.dsym a) s { s with
        dec := { afterTerminator s.dec q with
          ver := assembled s.dec q, st := .failed, err := .unsupportedVersion }
        resp := some (errorResponse .unsupportedVersion (assembled s.dec q) 0) }
  | dsymVersion (a : Word) (s : State) (q : Quantity) (hs : s.dec.st = .inPhase .version)
      (hl : lookup a = some q) (hq : q.toNat < 32) (hv : assembled s.dec q = 1) :
      Effect (.dsym a) s { s with
        dec := { afterTerminator s.dec q with ver := 1, st := .inPhase .header }
        resp := some okResponse }
  | dsymHeader (a : Word) (s : State) (q : Quantity) (hs : s.dec.st = .inPhase .header)
      (hl : lookup a = some q) (hq : q.toNat < 32) :
      Effect (.dsym a) s { s with
        dec := { afterTerminator s.dec q with
          p2 := (unpackHeader (assembled s.dec q)).p2
          kind := (unpackHeader (assembled s.dec q)).kind
          p3 := (unpackHeader (assembled s.dec q)).p3
          flags := setHV (flagsAfter s.dec q), st := .inPhase .lat }
        resp := some (headerResponse (unpackHeader (assembled s.dec q))) }
  | dsymLat (a : Word) (s : State) (q : Quantity) (hs : s.dec.st = .inPhase .lat)
      (hl : lookup a = some q) (hq : q.toNat < 32) :
      Effect (.dsym a) s { s with
        dec := { afterTerminator s.dec q with
          lat := s.dec.lat + zigzagDecode (assembled s.dec q), st := .inPhase .lng }
        resp := some okResponse }
  | dsymLngThree (a : Word) (s : State) (q : Quantity) (hs : s.dec.st = .inPhase .lng)
      (hl : lookup a = some q) (hq : q.toNat < 32) (hk : s.dec.kind ≠ 0) :
      Effect (.dsym a) s { s with
        dec := { afterTerminator s.dec q with
          lng := s.dec.lng + zigzagDecode (assembled s.dec q), st := .inPhase .z }
        resp := some okResponse }
  | dsymLngTwo (a : Word) (s : State) (q : Quantity) (hs : s.dec.st = .inPhase .lng)
      (hl : lookup a = some q) (hq : q.toNat < 32) (hk : s.dec.kind = 0) :
      Effect (.dsym a) s { s with
        dec := { afterTerminator s.dec q with
          lng := s.dec.lng + zigzagDecode (assembled s.dec q)
          npts := s.dec.npts + 1, st := .inPhase .lat }
        resp := some (pointResponse s.dec.lat (s.dec.lng + zigzagDecode (assembled s.dec q)) s.dec.z) }
  | dsymZ (a : Word) (s : State) (q : Quantity) (hs : s.dec.st = .inPhase .z)
      (hl : lookup a = some q) (hq : q.toNat < 32) :
      Effect (.dsym a) s { s with
        dec := { afterTerminator s.dec q with
          z := s.dec.z + zigzagDecode (assembled s.dec q)
          npts := s.dec.npts + 1, st := .inPhase .lat }
        resp := some (pointResponse s.dec.lat s.dec.lng (s.dec.z + zigzagDecode (assembled s.dec q))) }
  | dendUnterminated (s : State) (p : Phase) (hs : s.dec.st = .inPhase p)
      (hp : p = .version ∨ p = .header ∨ s.dec.shift ≠ 0) :
      Effect .dend s { s with
        dec := { s.dec with st := .failed, err := .unterminatedValue }
        resp := some (errorResponse .unterminatedValue 0 0) }
  | dendTruncated (s : State) (p : Phase) (hs : s.dec.st = .inPhase p) (hp : p = .lng ∨ p = .z)
      (hz : s.dec.shift = 0) :
      Effect .dend s { s with
        dec := { s.dec with st := .failed, err := .truncatedPoint }
        resp := some (errorResponse .truncatedPoint 0 0) }
  | dendComplete (s : State) (hs : s.dec.st = .inPhase .lat) (hz : s.dec.shift = 0) :
      Effect .dend s { s with
        dec := { s.dec with st := .idle }, resp := some { okResponse with r0 := s.dec.npts } }
  | decIdle (i : Instr) (s : State) (hi : (∃ a, i = .dsym a) ∨ i = .dend) (hs : s.dec.st = .idle) :
      Effect i s { s with resp := some (errorResponse .badSequence 0 0) }
  | decFailed (i : Instr) (s : State) (hi : (∃ a, i = .dsym a) ∨ i = .dend)
      (hs : s.dec.st = .failed) :
      Effect i s { s with resp := some (errorResponse s.dec.err 0 0) }
  | rdreg (a v : Word) (s : State) (hv : readReg a s = some v) :
      Effect (.rdreg a) s { s with resp := some { okResponse with r0 := v } }
  | rdregBad (a : Word) (s : State) (hv : readReg a s = none) :
      Effect (.rdreg a) s { s with resp := some (errorResponse .badRegister a 0) }

/-- The codes `validate` answers are those of ENC (spec/42_header.md R135). -/
theorem validate_codes {a b c : Word} {e : Status} (h : validate a b c = some e) :
    e = .invalidPrecision ∨ e = .invalidKind ∨ e = .reservedKind := by
  unfold validate at h
  split at h
  · exact .inl (Option.some.inj h).symm
  · split at h
    · exact .inr (.inl (Option.some.inj h).symm)
    · split at h
      · exact .inr (.inr (Option.some.inj h).symm)
      · exact absurd h (by simp)

/-- What DSYM can do on a terminator, by phase (spec/43_point_stream.md R160). -/
theorem finishVarint_effect {a : Word} {s : State} {p : Phase} {q : Quantity}
    (hs : s.dec.st = .inPhase p) (hl : lookup a = some q) (hq : q.toNat < 32) :
    Effect (.dsym a) s
      (finishVarint p (assembled s.dec q) { s with dec := afterTerminator s.dec q }) := by
  cases p
  case version =>
    by_cases hv : assembled s.dec q = 1
    · have h := Effect.dsymVersion a s q hs hl hq hv
      simpa [finishVarint, Config.cfgVersion, hv, respond] using h
    · have h := Effect.dsymVersionBad a s q hs hl hq hv
      have hv' : assembled s.dec q ≠ Config.cfgVersion := hv
      simp only [finishVarint, if_pos hv', raise_dec (e := .unsupportedVersion) rfl]
      exact h
  case header => exact .dsymHeader a s q hs hl hq
  case lat => exact .dsymLat a s q hs hl hq
  case lng =>
    by_cases hk : s.dec.kind = 0
    · have h := Effect.dsymLngTwo a s q hs hl hq hk
      have hk' : ¬ (afterTerminator s.dec q).kind ≠ Config.kindAbsent := fun x => x hk
      simp only [finishVarint, if_neg hk']
      exact h
    · have h := Effect.dsymLngThree a s q hs hl hq hk
      have hk' : (afterTerminator s.dec q).kind ≠ Config.kindAbsent := hk
      simp only [finishVarint, if_pos hk']
      exact h
  case z => exact .dsymZ a s q hs hl hq

/-- Every operation does one of the things `Effect` lists. -/
theorem exec_effect {i : Instr} {s t : State} (h : exec i s = .next t) : Effect i s t := by
  cases i <;> simp only [exec] at h
  case zze => cases h; exact .zze _ _
  case zzd => cases h; exact .zzd _ _
  case uenc => cases h; exact .uenc _ _
  case dstart => cases h; exact .dstart _
  case estart a b c =>
    unfold execEstart at h
    split at h
    · rename_i e he
      have hc := validate_codes he
      have hu : latchUnit e = some .enc := by rcases hc with rfl | rfl | rfl <;> rfl
      rw [raise_enc hu] at h
      cases h
      exact .estartRefused a b c s e he hc
    · rename_i he
      cases h
      exact .estartOpened a b c s he
  case epoint a b c =>
    unfold execEpoint at h
    split at h
    · rename_i hs
      cases h
      exact .encIdle _ s (.inl ⟨a, b, c, rfl⟩) hs
    · rename_i hs
      cases h
      exact .encFailed _ s (.inl ⟨a, b, c, rfl⟩) hs
    · rename_i hs
      dsimp only at h
      split at h
      · rename_i hk
        cases h
        exact .epointThree a b c s hs hk
      · rename_i hk
        cases h
        exact .epointTwo a b c s hs (Decidable.not_not.1 hk)
  case eend =>
    unfold execEend at h
    split at h
    · rename_i hs; cases h; exact .encIdle _ s (.inr rfl) hs
    · rename_i hs; cases h; exact .encFailed _ s (.inr rfl) hs
    · rename_i hs; cases h; exact .eend s hs
  case dsym a =>
    unfold execDsym at h
    split at h
    · rename_i hs; cases h; exact .decIdle _ s (.inl ⟨a, rfl⟩) hs
    · rename_i hs; cases h; exact .decFailed _ s (.inl ⟨a, rfl⟩) hs
    · rename_i p hs
      rcases vstep_cases a s.dec with ⟨hl, hv⟩ | ⟨q, hl, hq, hv⟩ | ⟨q, hl, hq, hv⟩ <;>
        rw [hv] at h <;> cases h
      · rw [raise_dec (e := .invalidSymbol) rfl]
        exact .dsymInvalid a s p hs hl
      · exact .dsymContinues a s p q hs hl hq
      · exact finishVarint_effect hs hl hq
  case dend =>
    unfold execDend at h
    split at h
    · rename_i hs; cases h; exact .decIdle _ s (.inr rfl) hs
    · rename_i hs; cases h; exact .decFailed _ s (.inr rfl) hs
    · rename_i p hs
      split at h
      · rename_i hp
        cases h
        rw [raise_dec (e := .unterminatedValue) rfl]
        exact .dendUnterminated s p hs (hp.elim .inl (fun x => .inr (.inl x)))
      · rename_i hp
        split at h
        · rename_i hz
          cases h
          rw [raise_dec (e := .unterminatedValue) rfl]
          exact .dendUnterminated s p hs (.inr (.inr hz))
        · rename_i hz
          split at h
          · rename_i hp'
            cases h
            rw [raise_dec (e := .truncatedPoint) rfl]
            exact .dendTruncated s p hs hp' (Decidable.not_not.1 hz)
          · rename_i hp'
            cases h
            have hlat : s.dec.st = .inPhase .lat := by
              rw [hs]; cases p <;> simp at hp hp' ⊢
            exact .dendComplete s hlat (Decidable.not_not.1 hz)
  case rdreg a =>
    unfold execRdreg at h
    split at h
    · rename_i v hv; cases h; exact .rdreg a v s hv
    · rename_i hv; cases h; exact .rdregBad a s hv

end Sys2Proof.Machine
end

