-- ==== Sys2Proof/Laws/Encoding.lean ====
section
/-! SUPPORT. The four fields of an operation word and `packWord` are inverse to each other
(spec/30_encoding.md R80), and the opcode map inverts the opcodes (R82). -/

namespace Sys2Proof

/-- The bits of a packed word, field by field (spec/30_encoding.md R80). -/
theorem packWord_getLsbD (op : BitVec 8) (a b c : Word) (i : Nat) :
    (packWord op a b c).getLsbD i =
      if i < 8 then op.getLsbD i
      else if i < 72 then a.getLsbD (i - 8)
      else if i < 136 then b.getLsbD (i - 72)
      else c.getLsbD (i - 136) := by
  change BitVec.getLsbD (w := 64 + (64 + (64 + 8))) (c ++ (b ++ (a ++ op))) i = _
  rw [BitVec.getLsbD_append, BitVec.getLsbD_append, BitVec.getLsbD_append]
  by_cases h1 : i < 8
  · rw [if_pos (by omega), if_pos (by omega), if_pos h1, if_pos h1]
  · by_cases h2 : i < 72
    · rw [if_pos (by omega), if_pos (by omega), if_neg h1, if_neg h1, if_pos h2]
    · by_cases h3 : i < 136
      · rw [if_pos (by omega), if_neg (by omega), if_neg h1, if_neg h2, if_pos h3]
      · rw [if_neg (by omega), if_neg h1, if_neg h2, if_neg h3]

theorem opcodeField_packWord (op : BitVec 8) (a b c : Word) :
    opcodeField (packWord op a b c) = op := by
  apply BitVec.eq_of_getLsbD_eq
  intro i hi
  rw [opcodeField, BitVec.getLsbD_extractLsb', packWord_getLsbD, if_pos (by omega)]
  simp [hi]

theorem fieldA_packWord (op : BitVec 8) (a b c : Word) : fieldA (packWord op a b c) = a := by
  apply BitVec.eq_of_getLsbD_eq
  intro i hi
  rw [fieldA, BitVec.getLsbD_extractLsb', packWord_getLsbD, if_neg (by omega), if_pos (by omega),
    Nat.add_sub_cancel_left]
  simp [hi]

theorem fieldB_packWord (op : BitVec 8) (a b c : Word) : fieldB (packWord op a b c) = b := by
  apply BitVec.eq_of_getLsbD_eq
  intro i hi
  rw [fieldB, BitVec.getLsbD_extractLsb', packWord_getLsbD, if_neg (by omega), if_neg (by omega),
    if_pos (by omega), Nat.add_sub_cancel_left]
  simp [hi]

theorem fieldC_packWord (op : BitVec 8) (a b c : Word) : fieldC (packWord op a b c) = c := by
  apply BitVec.eq_of_getLsbD_eq
  intro i hi
  rw [fieldC, BitVec.getLsbD_extractLsb', packWord_getLsbD, if_neg (by omega), if_neg (by omega),
    if_neg (by omega), Nat.add_sub_cancel_left]
  simp [hi]

/-- A word is its four fields. -/
theorem packWord_fields (w : OpWord) :
    packWord (opcodeField w) (fieldA w) (fieldB w) (fieldC w) = w := by
  apply BitVec.eq_of_getLsbD_eq
  intro i hi
  rw [packWord_getLsbD]
  unfold opcodeField fieldA fieldB fieldC
  simp only [BitVec.getLsbD_extractLsb']
  by_cases h1 : i < 8
  · rw [if_pos h1]; simp [h1]
  · by_cases h2 : i < 72
    · rw [if_neg h1, if_pos h2, show 8 + (i - 8) = i by omega]; simp; omega
    · by_cases h3 : i < 136
      · rw [if_neg h1, if_neg h2, if_pos h3, show 72 + (i - 72) = i by omega]; simp; omega
      · rw [if_neg h1, if_neg h2, if_neg h3, show 136 + (i - 136) = i by omega]; simp; omega

/-- The opcode map answers only a mnemonic whose opcode it was given (spec/30_encoding.md R82). -/
theorem opcode_of_mnemonicOfOpcode {op : BitVec 8} {m : Mnemonic}
    (h : mnemonicOfOpcode op = some m) : m.opcode = op := by
  revert h; revert m; revert op; decide

/-- Every mnemonic is found from its opcode (spec/30_encoding.md R82). -/
theorem mnemonicOfOpcode_opcode (m : Mnemonic) : mnemonicOfOpcode m.opcode = some m := by
  cases m <;> rfl

/-- A packed word of a known mnemonic is canonical when the fields its format skips are 0. -/
theorem canonicalWord_packWord (m : Mnemonic) (a b c : Word) :
    canonicalWord (packWord m.opcode a b c) =
      match m.format with
      | .abc => true
      | .a => b == 0 && c == 0
      | .n => a == 0 && b == 0 && c == 0 := by
  simp only [canonicalWord, opcodeField_packWord, fieldA_packWord, fieldB_packWord,
    fieldC_packWord, mnemonicOfOpcode_opcode, Option.map_some]
  cases m <;> rfl

end Sys2Proof
end

