-- ==== Sys2Proof/Laws/HostDuties.lean ====
section
/-! SUPPORT. What a host presents to EPOINT, said once (spec/44_system_and_host.md R190). -/

namespace Sys2Proof.Machine

theorem fitsS64_iff (v : ℤ) : fitsS64 v = true ↔ -(2 ^ 63 : ℤ) ≤ v ∧ v < (2 ^ 63 : ℤ) := by
  simp [fitsS64]

/-- A number that fits is the signed value of its 64-bit pattern. -/
theorem toInt_ofInt_of_fits {v : ℤ} (h : fitsS64 v = true) : (BitVec.ofInt 64 v).toInt = v := by
  obtain ⟨hl, hh⟩ := (fitsS64_iff v).1 h
  exact BitVec.toInt_ofInt_eq_self (by decide) (by simpa using hl) (by simpa using hh)

/-- A point the host presents is the scaled point, and every coordinate the block reads is the scaled
number itself, never a wrapped one (log 22). -/
theorem hostPresents_some {hostRound : ℚ → ℤ} {p2 k p3 : Word} {g : GeoPoint} {p : Point}
    (h : hostPresents hostRound p2 k p3 g = some p) :
    p = hostPoint hostRound p2 k p3 g ∧
    p.lat.toInt = hostScaled hostRound p2.toNat g.lat ∧
    p.lng.toInt = hostScaled hostRound p2.toNat g.lng ∧
    (k ≠ 0 → p.z.toInt = hostScaled hostRound p3.toNat g.third) := by
  unfold hostPresents at h
  split at h
  · rename_i fits
    simp only [Bool.and_eq_true, Bool.or_eq_true, beq_iff_eq] at fits
    obtain ⟨⟨hlat, hlng⟩, hz⟩ := fits
    cases h
    refine ⟨rfl, toInt_ofInt_of_fits hlat, toInt_ofInt_of_fits hlng, fun hk => ?_⟩
    simp only [hostPoint, if_neg hk]
    exact toInt_ofInt_of_fits (hz.resolve_left hk)
  · exact absurd h (by simp)

/-- A latitude that does not fit is refused (spec/93_implementation_defined.md U9). -/
theorem hostPresents_refuses_lat {hostRound : ℚ → ℤ} {p2 k p3 : Word} {g : GeoPoint}
    (h : fitsS64 (hostScaled hostRound p2.toNat g.lat) = false) :
    hostPresents hostRound p2 k p3 g = none := by
  simp [hostPresents, h]

end Sys2Proof.Machine
end

