-- ==== Sys2Proof/Laws/PerInstr.lean ====
section
/-! SUPPORT. Statements about every operation as syntax, one lemma per constructor. -/

namespace Sys2Proof.Laws.EncodeCanonical

/-- The encoder writes 0 in every field the operation does not read (spec/30_encoding.md R88). -/
def Statement (i : Instr) : Prop := canonicalWord (encode i) = true

theorem zze (a : Word) : Statement (.zze a) := canonicalWord_packWord .zze a 0 0
theorem zzd (a : Word) : Statement (.zzd a) := canonicalWord_packWord .zzd a 0 0
theorem uenc (a : Word) : Statement (.uenc a) := canonicalWord_packWord .uenc a 0 0
theorem estart (a b c : Word) : Statement (.estart a b c) := canonicalWord_packWord .estart a b c
theorem epoint (a b c : Word) : Statement (.epoint a b c) := canonicalWord_packWord .epoint a b c
theorem eend : Statement .eend := canonicalWord_packWord .eend 0 0 0
theorem dstart : Statement .dstart := canonicalWord_packWord .dstart 0 0 0
theorem dsym (a : Word) : Statement (.dsym a) := canonicalWord_packWord .dsym a 0 0
theorem dend : Statement .dend := canonicalWord_packWord .dend 0 0 0
theorem rdreg (a : Word) : Statement (.rdreg a) := canonicalWord_packWord .rdreg a 0 0

end Sys2Proof.Laws.EncodeCanonical
end

