-- ==== Sys2Proof/Laws/Tables.lean ====
section
/-! SUPPORT. The two tables are inverse to each other (spec/20_memory.md R63), checked entry by entry. -/

namespace Sys2Proof.Machine

/-- Every quantity is found again from its symbol's code point (spec/20_memory.md R63). -/
theorem lookup_alpha (q : Quantity) : lookup (zext64 (alpha q)) = some q := by
  revert q; decide

/-- Every valid entry of `INV` names the symbol that `ALPHA` gives its quantity (spec/20_memory.md R63). -/
theorem alpha_inv (j : Fin 78) (h : (inv j).getLsbD 6 = true) :
    (alpha ((inv j).extractLsb' 0 6)).toNat = j.val + 45 :=
  tables_inverse.2 j h

/-- Every unused entry of `INV` holds quantity 0 (spec/20_memory.md R62). -/
theorem inv_unused (j : Fin 78) (h : (inv j).getLsbD 6 = false) : inv j = 0 := by
  revert j; decide

/-- The symbols' code points lie in the range of `INV` (spec/20_memory.md R62). -/
theorem alpha_range (q : Quantity) : 45 ≤ (alpha q).toNat ∧ (alpha q).toNat ≤ 122 := by
  revert q; decide

end Sys2Proof.Machine
end

