-- ==== Sys2Proof/Laws/Transaction.lean ====
section
/-! SUPPORT. When a transaction is closed, and what `ENCODE` and `DECODE` are on their responses
(spec/60_exceptions.md R212). -/

namespace Sys2Proof.Machine

/-- Every operation of a list is answered. -/
theorem runOps_length {is : List Instr} {s u : State} {rs : List Response}
    (h : runOps is s = some (rs, u)) : rs.length = is.length := by
  induction is generalizing s rs with
  | nil => cases h; rfl
  | cons i is ih =>
    obtain ⟨r, t, hp, -⟩ := perform_answers i s
    rw [runOps_cons hp] at h
    cases ht : runOps is t with
    | none => simp [ht] at h
    | some x =>
      obtain ⟨rs', u'⟩ := x
      simp only [ht, Option.map_some, Option.some.injEq, Prod.mk.injEq] at h
      obtain ⟨rfl, rfl⟩ := h
      simp [ih ht]

/-- A closed transaction ends with its closing operation, and every operation of the unit is in it. -/
theorem closedTransaction_some {u : CodecUnit} {start body stop : Mnemonic} {tr : Trace}
    {rs : List Response} (h : closedTransaction u start body stop tr = some rs) :
    rs = (ofUnit u tr).map (·.2) ∧
    (ofUnit u tr).map (fun x => x.1.mnemonic) =
      start :: (List.replicate ((ofUnit u tr).length - 2) body ++ [stop]) := by
  unfold closedTransaction at h
  dsimp only at h
  split at h
  · rename_i shape
    exact ⟨(Option.some.inj h).symm, shape⟩
  · exact absurd h (by simp)

/-- Operations that are a whole transaction of one unit are closed by their responses. -/
theorem closedTransaction_zip {u : CodecUnit} {start body stop : Mnemonic} {is : List Instr}
    {rs : List Response} (hlen : rs.length = is.length)
    (hunit : ∀ i ∈ is, i.mnemonic.codecUnit = some u)
    (hshape : is.map Instr.mnemonic = start :: (List.replicate (is.length - 2) body ++ [stop])) :
    closedTransaction u start body stop (is.zip rs) = some rs := by
  have mine : ofUnit u (is.zip rs) = is.zip rs := by
    refine List.filter_eq_self.2 fun x hx => ?_
    simp [hunit x.1 (List.of_mem_zip hx).1]
  have ops : (is.zip rs).map (fun x => x.1.mnemonic) = is.map Instr.mnemonic := by
    rw [show (fun x : Instr × Response => x.1.mnemonic) = Instr.mnemonic ∘ Prod.fst from rfl,
      ← List.map_map, List.map_fst_zip (by omega)]
  have answers : (is.zip rs).map (fun x => x.2) = rs := List.map_snd_zip (by omega)
  have count : (is.zip rs).length = is.length := by simp [hlen]
  simp only [closedTransaction, mine, ops, count, answers]
  exact if_pos hshape

/-- `ENCODE` is closed by its EEND. -/
theorem closedTransaction_encodeOps (p2 k p3 : Word) (pts : List Point) {rs : List Response}
    (hlen : rs.length = (encodeOps p2 k p3 pts).length) :
    closedTransaction .enc .estart .epoint .eend ((encodeOps p2 k p3 pts).zip rs) = some rs := by
  refine closedTransaction_zip hlen ?_ ?_
  · simp only [encodeOps, List.mem_cons, List.mem_append, List.mem_map, List.not_mem_nil, or_false]
    rintro i (rfl | ⟨p, -, rfl⟩ | rfl) <;> rfl
  · simp [encodeOps, Instr.mnemonic, Function.comp_def]

/-- `DECODE` is closed by its DEND. -/
theorem closedTransaction_decodeOps (syms : List Word) {rs : List Response}
    (hlen : rs.length = (decodeOps syms).length) :
    closedTransaction .dec .dstart .dsym .dend ((decodeOps syms).zip rs) = some rs := by
  refine closedTransaction_zip hlen ?_ ?_
  · simp only [decodeOps, List.mem_cons, List.mem_append, List.mem_map, List.not_mem_nil, or_false]
    rintro i (rfl | ⟨c, -, rfl⟩ | rfl) <;> rfl
  · simp [decodeOps, Instr.mnemonic, Function.comp_def]

/-- What `ENCODE` gives, from its responses. -/
theorem runEncode_eq {p2 k p3 : Word} {pts : List Point} {s u : State} {rs : List Response}
    (h : runOps (encodeOps p2 k p3 pts) s = some (rs, u)) :
    runEncode p2 k p3 pts s =
      match firstError rs with
      | some e => some (.error e)
      | none => some (.ok (emitted rs)) := by
  simp only [runEncode, runTrace, h, Option.map_some, Option.bind_some, encodeOutcome,
    closedTransaction_encodeOps p2 k p3 pts (runOps_length h)] <;> rfl

/-- What `DECODE` gives, from its responses. -/
theorem runDecode_eq {syms : List Word} {s u : State} {rs : List Response}
    (h : runOps (decodeOps syms) s = some (rs, u)) :
    runDecode syms s =
      match firstError rs, headerEvent rs with
      | some e, _ => some (.error e)
      | none, some hd => some (.ok { header := hd, pts := pointEvents rs })
      | none, none => none := by
  simp only [runDecode, runTrace, h, Option.map_some, Option.bind_some, decodeOutcome,
    closedTransaction_decodeOps syms (runOps_length h)] <;> rfl

end Sys2Proof.Machine
end

