-- ==== Sys2Proof/Laws/Varint.lean ====
section
/-! SUPPORT. One round of each varint loop, and what the two flags become, each said once
(spec/40_varint.md R100, R102, R106). -/

namespace Sys2Proof.Machine

/-- One round of the encoder's loop, in numbers (spec/40_varint.md R100). -/
theorem encodeChunks_succ (fuel : Nat) (v : Word) : encodeChunks (fuel + 1) v =
    if v.toNat / 32 ≠ 0 then
      alpha (BitVec.ofNat 6 (32 + v.toNat % 32))
        :: encodeChunks fuel (BitVec.ofNat 64 (v.toNat / 32))
    else [alpha (BitVec.ofNat 6 (v.toNat % 32))] := by
  have hlt := v.isLt
  have shifted : v >>> 5 = BitVec.ofNat 64 (v.toNat / 32) := by
    apply BitVec.eq_of_toNat_eq
    simp [Nat.shiftRight_eq_div_pow]
    omega
  have more : v >>> 5 ≠ 0 ↔ v.toNat / 32 ≠ 0 := by
    rw [shifted]
    refine not_congr ⟨fun h => ?_, fun h => by rw [h]; rfl⟩
    have := congrArg BitVec.toNat h
    simp at this
    omega
  have withFlag : (1#1 ++ (v.extractLsb' 0 5 : BitVec 5) : BitVec 6)
      = BitVec.ofNat 6 (32 + v.toNat % 32) := by
    apply BitVec.eq_of_toNat_eq
    have hm : v.toNat % 32 < 2 ^ 5 := by omega
    rw [BitVec.toNat_append]
    simp [Nat.shiftLeft_eq]
    rw [← Nat.two_pow_add_eq_or_of_lt hm 1]
    omega
  have noFlag : (0#1 ++ (v.extractLsb' 0 5 : BitVec 5) : BitVec 6)
      = BitVec.ofNat 6 (v.toNat % 32) := by
    apply BitVec.eq_of_toNat_eq
    rw [BitVec.toNat_append]
    simp
    omega
  simp only [encodeChunks, withFlag, noFlag]
  by_cases h : v.toNat / 32 ≠ 0
  · rw [if_pos h, if_pos (more.2 h), shifted]
  · rw [if_neg h, if_neg (fun x => h (more.1 x))]

/-- The fuel of the encoder never matters once the value fits in it (spec/40_varint.md R101; log 10). -/
theorem encodeChunks_fuel (n extra : Nat) (v : Word) (h : v.toNat < 32 ^ (n + 1)) :
    encodeChunks (n + 1 + extra) v = encodeChunks (n + 1) v := by
  induction n generalizing v with
  | zero =>
    rw [show 0 + 1 + extra = extra + 1 by omega, encodeChunks_succ, encodeChunks_succ,
      if_neg (by omega), if_neg (by omega)]
  | succ n ih =>
    have hlt := v.isLt
    rw [show n + 1 + 1 + extra = n + 1 + extra + 1 by omega, encodeChunks_succ, encodeChunks_succ,
      ih]
    simp
    rw [Nat.mod_eq_of_lt (by omega)]
    apply Nat.div_lt_of_lt_mul
    rw [Nat.pow_succ] at h
    omega

/-- One round of the reference decoder's loop (spec/40_varint.md R102). -/
theorem decodeLoop_cons {c : Word} {q : Quantity} (h : lookup c = some q)
    (result : Word) (shift i : Nat) (rest : List Word) :
    decodeLoop result shift i (c :: rest) =
      if 32 ≤ q.toNat then
        decodeLoop (result ||| (zext64 (payload q) <<< shift)) (min (shift + 5) 65) (i + 1) rest
      else .ok (result ||| (zext64 (payload q) <<< shift), i + 1) := by
  simp only [decodeLoop, h, ← continues_iff]

/-- A symbol leaves `HV` alone (spec/40_varint.md R105). -/
@[simp] theorem flagHV_flagsAfter (d : DecRegs) (q : Quantity) :
    flagHV (flagsAfter d q) = flagHV d.flags := by
  unfold flagsAfter
  split
  · generalize d.flags = f
    revert f
    decide
  · rfl

/-- A symbol sets `OVF` exactly when it drops a 1 (spec/40_varint.md R106). -/
@[simp] theorem flagOVF_flagsAfter (d : DecRegs) (q : Quantity) :
    flagOVF (flagsAfter d q) =
      (flagOVF d.flags || decide (2 ^ 64 ≤ q.toNat % 32 * 2 ^ d.shift.toNat)) := by
  unfold flagsAfter
  split <;> rename_i h <;> simp only [h]
  · generalize d.flags = f
    revert f
    decide
  · simp

@[simp] theorem flagHV_setHV (f : BitVec 2) : flagHV (setHV f) = true := by
  revert f; decide
@[simp] theorem flagOVF_setHV (f : BitVec 2) : flagOVF (setHV f) = flagOVF f := by
  revert f; decide

end Sys2Proof.Machine
end

