-- ==== Sys2Proof/Tests/Slice0.lean ====
section
/-! SUPPORT. The model's own tests, expected values from spec/95_test_vectors.md (cited by section)
unless a comment says otherwise, and for every statement with hypotheses a witness that meets them. -/

namespace Sys2Proof.Tests
open Sys2Proof.Machine

/-! ## Well-formedness of an assembler line (spec/30_encoding.md R88) -/

theorem test_wf_accepts_estart : (AsmLine.mk .estart [5, 0, 0]).error? = none := by decide
theorem test_wf_refuses_operand_count :
    (AsmLine.mk .estart [5]).error? = some .operandCount ∧
    (AsmLine.mk .eend [0]).error? = some .operandCount := by decide
theorem test_wf_refuses_operand_range :
    (AsmLine.mk .zze [2 ^ 64]).error? = some .operandRange ∧
    (AsmLine.mk .zze [-2 ^ 63 - 1]).error? = some .operandRange := by decide
theorem test_wf_accepts_range_ends :
    (AsmLine.mk .zze [2 ^ 64 - 1]).wf = true ∧ (AsmLine.mk .zze [-2 ^ 63]).wf = true := by decide
theorem test_assemble_negative :
    assemble (AsmLine.mk .zze [-27]) = .ok (.zze 0xFFFFFFFFFFFFFFE5) := by decide

/-! ## Decoding: words written out as `opcode / a / b / c` (spec/30_encoding.md R80, R82) -/

/-- The word written `opcode / a / b / c` in a listing, bit 0 the lowest of the opcode (R80, R88). -/
def word (opcode a b c : Nat) : OpWord :=
  BitVec.ofNat 200 (opcode + a * 2 ^ 8 + b * 2 ^ 72 + c * 2 ^ 136)

theorem test_decode_zze : decode (word 0x01 0xFFFFFFFFFFFFFFE5 0 0) = .ok (.zze (-27)) := by decide
theorem test_decode_zzd : decode (word 0x02 0x1FB 0 0) = .ok (.zzd 507) := by decide
theorem test_decode_uenc : decode (word 0x03 0x25 0 0) = .ok (.uenc 37) := by decide
theorem test_decode_estart : decode (word 0x10 5 2 7) = .ok (.estart 5 2 7) := by decide
theorem test_decode_epoint :
    decode (word 0x11 0x4C7334 0xD45BD 0x0A) = .ok (.epoint 5010228 869821 10) := by decide
theorem test_decode_eend : decode (word 0x12 0 0 0) = .ok .eend := by decide
theorem test_decode_dstart : decode (word 0x20 0 0 0) = .ok .dstart := by decide
theorem test_decode_dsym : decode (word 0x21 0x42 0 0) = .ok (.dsym 66) := by decide
theorem test_decode_dend : decode (word 0x22 0 0 0) = .ok .dend := by decide
theorem test_decode_rdreg : decode (word 0x30 0x20 0 0) = .ok (.rdreg 0x20) := by decide
theorem test_decode_refuses_undefined :
    decode (word 0xFF 1 2 3) = .error (.undefinedOpcode 0xFF) ∧
    decode (word 0 0 0 0) = .error (.undefinedOpcode 0) := by decide
theorem test_decode_ignores_unread_fields :
    decode (word 0x03 0x25 9 9) = .ok (.uenc 37) ∧ decode (word 0x22 9 9 9) = .ok .dend := by decide
theorem test_decodeTableWord :
    decodeTableWord 8 0x12 = some .eend ∧ decodeTableWord 72 0x4221 = some (.dsym 66) ∧
    decodeTableWord 8 0x00 = none := by decide

/-! ## The tables (spec/20_memory.md R61, R62; section 2) -/

theorem test_lookup_valid :
    lookup 45 = some 62 ∧ lookup 48 = some 52 ∧ lookup 57 = some 61 ∧ lookup 65 = some 0 ∧
    lookup 90 = some 25 ∧ lookup 95 = some 63 ∧ lookup 97 = some 26 ∧ lookup 122 = some 51 := by
  decide
theorem test_lookup_invalid :
    [0, 44, 46, 47, 58, 64, 91, 94, 96, 123, 255, 321, 0x100000042, 0xFFFFFFFFFFFFFFFF].all
      (fun c => lookup c == none) = true := by decide

/-! ## One operation at a time -/

/-- The response of one operation in a state. -/
def answer (i : Instr) (s : State) : Option Response := (perform i s).map (·.1)

/-- An open encode transaction of kind `k` with the given previous point. -/
def encoding (k : BitVec 3) (lat lng z : Word) : State :=
  { State.reset with enc :=
    { st := .active, err := .ok, p2 := 5, kind := k, p3 := 0, plat := lat, plng := lng, pz := z } }

/-- ENC after a refused ESTART. -/
def encFailed : State :=
  { State.reset with enc := { EncRegs.reset with st := .failed, err := .reservedKind } }

/-- An open decode transaction in phase `p` of a version-1 string of kind `k`, with a varint of which
`shift` bits are in `vacc`. -/
def decoding (p : Phase) (k : BitVec 3) (vacc : Word) (shift : BitVec 7) : State :=
  { State.reset with dec :=
    { DecRegs.reset with
      st := .inPhase p, ver := if p = .version then 0 else 1, kind := k, vacc := vacc, shift := shift
      flags := if p = .version ∨ p = .header then 0 else 1 } }

/-- DEC after a string cut between the varints of a point. -/
def decFailed : State :=
  { State.reset with dec :=
    { DecRegs.reset with st := .failed, err := .truncatedPoint, ver := 1, flags := 1 } }

/-- The state with one word to perform next. -/
def presenting (w : OpWord) (s : State) : State := { s with pending := [.word w] }

theorem test_withFetchWord_runs_word :
    step (State.reset.withFetchWord 72 0x2503) = exec (.uenc 37) State.reset := rfl

theorem test_zze : answer (.zze (-27)) State.reset = some { okResponse with r0 := 53 } := by decide
theorem test_zze_least :
    answer (.zze 0x8000000000000000) State.reset
      = some { okResponse with r0 := 0xFFFFFFFFFFFFFFFF } := by decide
theorem test_zzd : answer (.zzd 507) State.reset = some { okResponse with r0 := -254 } := by decide
theorem test_zzd_top : answer (.zzd 0x8000000000000001) State.reset
    = some { okResponse with r0 := 0x3FFFFFFFFFFFFFFF } := by decide
/-- `"_f"`. -/
theorem test_uenc : answer (.uenc 1023) State.reset = some { okResponse with syms := [95, 102] } := by
  decide
/-- `"-___________P"`. -/
theorem test_uenc_long : answer (.uenc 0xFFFFFFFFFFFFFFFE) State.reset
    = some { okResponse with syms := 45 :: List.replicate 11 95 ++ [80] } := by decide
/-- `"BlB"`. -/
theorem test_estart : answer (.estart 5 2 0) decFailed
    = some { okResponse with syms := [66, 108, 66], r0 := 37 } := by decide
theorem test_estart_priority :
    answer (.estart 15 4 16) State.reset = some { okResponse with st := .invalidPrecision } ∧
    answer (.estart 5 8 0) State.reset = some { okResponse with st := .invalidKind } ∧
    answer (.estart 5 5 0) State.reset = some { okResponse with st := .reservedKind } := by decide
/-- `"1B7P"`, deltas -27 and -254. -/
theorem test_epoint : answer (.epoint 5010201 869567 99) (encoding 0 5010228 869821 0)
    = some { okResponse with syms := [49, 66, 55, 80], r0 := -27, r1 := -254 } := by decide
theorem test_epoint_idle :
    answer (.epoint 1 2 3) State.reset = some { okResponse with st := .badSequence } := by decide
theorem test_eend : (perform .eend (encoding 0 1 2 0)).map (·.2.enc.st) = some .idle := by decide
theorem test_eend_failed :
    answer .eend encFailed = some { okResponse with st := .reservedKind } := by decide
theorem test_dstart : (perform .dstart decFailed).map (fun x => (x.1, x.2.dec.st, x.2.dec.err))
    = some (okResponse, .inPhase .version, .ok) := by decide
/-- `"BpiC"`: the header 2121 is read with kind 4 and precision3D 16. -/
theorem test_dsym_header : answer (.dsym 67) (decoding .header 0 0x49 10)
    = some { okResponse with ev := .header, r0 := 9, r1 := 4, r2 := 16 } := by decide
theorem test_dsym_invalid : answer (.dsym 46) (decoding .lat 0 0 0)
    = some { okResponse with st := .invalidSymbol, r0 := 46 } := by decide
theorem test_dend_truncated : answer .dend (decoding .lng 0 0 0)
    = some { okResponse with st := .truncatedPoint } := by decide
theorem test_dend_cut_varint : answer .dend (decoding .lng 0 26 5)
    = some { okResponse with st := .unterminatedValue } := by decide
theorem test_rdreg : answer (.rdreg 0x10) decFailed = some { okResponse with r0 := 7 } := by decide
theorem test_rdreg_bad : answer (.rdreg 0x100) State.reset
    = some { okResponse with st := .badRegister, r0 := 256 } := by decide
/-- 13th payload 16 at position 60: bit 4 is dropped and recorded. -/
theorem test_oversized_symbol :
    (perform (.dsym 81) (decoding .lat 0 0 60)).map (fun x => (x.2.dec.lat, x.2.dec.flags))
      = some (0, 3) := by decide

/-! ## Witnesses: the hypotheses of the statements can be met -/

theorem witness_EncodeOfDecodeIsIdentityOnCanonicalWords :
    (decode (word 0x03 0x25 0 0) = .ok (.uenc 37) ∧ canonicalWord (word 0x03 0x25 0 0) = true) ∧
    (decode (word 0x03 0x25 9 0) = .ok (.uenc 37) ∧ canonicalWord (word 0x03 0x25 9 0) = false) := by
  decide

theorem witness_DecodeReadsOpcodeAndFields :
    ∀ op ∈ [0x01, 0x02, 0x03, 0x10, 0x11, 0x12, 0x20, 0x21, 0x22, 0x30],
      (word op (2 ^ 64 - 1) (2 ^ 64 - 1) (2 ^ 64 - 1)).toNat % 256 = op := by decide

theorem witness_StepRunsDecodedOperation :
    State.reset.pending = [] ∧
    (presenting (word 0x12 0 0 0) State.reset).pending = [.word (word 0x12 0 0 0)] ∧
    decode (word 0x12 0 0 0) = .ok .eend := by decide

theorem witness_UndefinedOpcodeIsAnsweredIllegalOp :
    ∀ op ∈ [0x00, 0x04, 0x0F, 0x13, 0x1F, 0x23, 0x2F, 0x31, 0xFF],
      (presenting (word op 1 2 3) State.reset).pending = [.word (word op 1 2 3)] ∧
      (word op 1 2 3).toNat % 256 ∉ [0x01, 0x02, 0x03, 0x10, 0x11, 0x12, 0x20, 0x21, 0x22, 0x30] := by
  decide

/-- Two words that agree on their opcode and on the fields it reads. -/
def agree (w w' : OpWord) : Prop :=
  opcodeField w = opcodeField w' ∧
  (opcodeField w ∈ [0x01#8, 0x02#8, 0x03#8, 0x10#8, 0x11#8, 0x21#8, 0x30#8] → fieldA w = fieldA w') ∧
  (opcodeField w ∈ [0x10#8, 0x11#8] → fieldB w = fieldB w' ∧ fieldC w = fieldC w')

theorem witness_UnreadFieldsHaveNoEffect :
    agree (word 0x22 1 2 3) (word 0x22 4 5 6) ∧ agree (word 0x03 1 2 3) (word 0x03 1 5 6) ∧
    agree (word 0x11 1 2 3) (word 0x11 1 2 3) ∧ agree (word 0x04 1 2 3) (word 0x04 4 5 6) := by
  unfold agree
  decide

theorem witness_ResetEventResetsEveryRegister :
    ({ encoding 1 2 3 4 with pending := [.reset] } : State).pending = .reset :: [] := by decide

theorem witness_RegistersReadResetValues :
    [0x00, 0x07, 0x10, 0x1D, 0x20].all isRegisterIndex = true := by decide

theorem witness_RdregReadsNamedRegister :
    [0x08, 0x0F, 0x1E, 0x1F, 0x21, 0xFFFFFFFFFFFFFFFF].any isRegisterIndex = false := by decide

theorem witness_RegistersChangeOnlyByListedWriters : ∃ t,
    exec (.estart 5 0 0) State.reset = .next t ∧ readReg 0x02 t ≠ readReg 0x02 State.reset :=
  ⟨_, rfl, by decide⟩

theorem witness_EncodeUnsignedProperties :
    (31 : Word).toNat ≤ 31 ∧ 31 < (32 : Word).toNat ∧
    12 < (encodeUnsigned 0x1000000000000000).length ∧ 0 < 1 ∧ 1 + 1 = (encodeUnsigned 32).length := by decide

theorem witness_ReencodingRestoresCanonicalVarints :
    decodeUnsigned [108, 66] 0 = .ok (37, 2) ∧ decodeUnsigned [104, 65] 0 = .ok (1, 2) := by decide

theorem witness_NonCanonicalVarintsAreAccepted :
    encodeUnsigned 37 = [37, 1].map alpha ∧ encodeUnsigned 0 = [0].map alpha ∧
    encodeUnsigned 0xFFFFFFFFFFFFFFFF = (List.replicate 12 63 ++ [15]).map alpha := by decide

theorem witness_ZigzagInverseLaw :
    2 ^ 63 ≤ (zigzagEncode 0x4000000000000000).toNat ∧
    ¬ 2 ^ 63 ≤ (zigzagEncode 0x3FFFFFFFFFFFFFFF).toNat := by decide

theorem witness_EstartRefusesBadHeader :
    15 < (16 : Word).toNat ∧ 7 < (8 : Word).toNat ∧ ¬ 7 < (7 : Word).toNat ∧
    ((4 : Word).toNat = 4 ∧ (5 : Word).toNat = 5) ∧ ¬ 15 < (15 : Word).toNat := by decide

theorem witness_EstartOpensTransaction :
    (15 : Word).toNat ≤ 15 ∧ ((3 : Word).toNat ≤ 7 ∧ (3 : Word).toNat ≠ 4 ∧ (3 : Word).toNat ≠ 5) ∧
    ((7 : Word).toNat ≤ 7 ∧ (7 : Word).toNat ≠ 4 ∧ (7 : Word).toNat ≠ 5) := by decide

theorem witness_EpointEncodesPoint :
    State.reset.enc.st = .idle ∧ encFailed.enc.st = .failed ∧
    ((encoding 0 1 2 0).enc.st = .active ∧ (encoding 0 1 2 0).enc.kind = 0) ∧
    ((encoding 7 1 2 3).enc.st = .active ∧ (encoding 7 1 2 3).enc.kind ≠ 0) := by decide

theorem witness_EendClosesTransaction :
    State.reset.enc.st = .idle ∧ encFailed.enc.st = .failed ∧ (encoding 0 1 2 0).enc.st = .active := by
  decide

theorem witness_DsymRefusals :
    State.reset.dec.st = .idle ∧ decFailed.dec.st = .failed ∧
    (∀ p : Phase, (decoding p 0 0 0).dec.st = .inPhase p) ∧
    lookup 44 = none ∧ lookup 123 = none ∧ lookup 96 = none :=
  ⟨by decide, by decide, fun _ => rfl, by decide, by decide, by decide⟩

theorem witness_DsymContinuesVarint :
    (∀ p : Phase, (decoding p 0 0 60).dec.st = .inPhase p) ∧
    (lookup 103 = some 32 ∧ 32 ≤ (32 : Quantity).toNat) ∧
    (lookup 95 = some 63 ∧ 32 ≤ (63 : Quantity).toNat) :=
  ⟨fun _ => rfl, by decide, by decide⟩

theorem witness_OversizedVarintBitsAreDropped :
    (decoding .lat 0 0 0).dec.shift.toNat + 5 ≤ 64 ∧ (decoding .lat 0 0 55).dec.shift.toNat + 5 ≤ 64 ∧
    (decoding .lat 0 0 60).dec.shift.toNat = 60 ∧ 64 ≤ (decoding .lat 0 0 65).dec.shift.toNat ∧
    64 ≤ (decoding .lat 0 0 64).dec.shift.toNat := by decide

theorem witness_DsymFinishesVersion :
    (decoding .version 0 0 0).dec.st = .inPhase .version ∧
    (lookup 66 = some 1 ∧ (1 : Quantity).toNat < 32 ∧ assembled (decoding .version 0 0 0).dec 1 = 1) ∧
    (lookup 102 = some 31 ∧ (31 : Quantity).toNat < 32 ∧
      assembled (decoding .version 0 0 0).dec 31 ≠ 1) := by decide

theorem witness_DsymFinishesHeader :
    (decoding .header 0 0x49 10).dec.st = .inPhase .header ∧ lookup 67 = some 2 ∧
    (2 : Quantity).toNat < 32 := by decide

theorem witness_DsymFinishesDelta :
    (lookup 102 = some 31 ∧ (31 : Quantity).toNat < 32) ∧
    (decoding .lat 0 0 0).dec.st = .inPhase .lat ∧
    ((decoding .lng 1 0 0).dec.st = .inPhase .lng ∧ (decoding .lng 1 0 0).dec.kind ≠ 0) ∧
    ((decoding .lng 0 0 0).dec.st = .inPhase .lng ∧ (decoding .lng 0 0 0).dec.kind = 0) ∧
    (decoding .z 7 0 0).dec.st = .inPhase .z := by decide

theorem witness_DendDecidesCompleteness :
    State.reset.dec.st = .idle ∧ decFailed.dec.st = .failed ∧
    (decoding .version 0 0 0).dec.st = .inPhase .version ∧
    (decoding .header 0 0 0).dec.st = .inPhase .header ∧
    ((decoding .lat 0 8 5).dec.st = .inPhase .lat ∧ (decoding .lat 0 8 5).dec.shift ≠ 0) ∧
    ((decoding .lng 0 0 0).dec.st = .inPhase .lng ∧ (decoding .lng 0 0 0).dec.shift = 0) ∧
    ((decoding .z 1 0 0).dec.st = .inPhase .z ∧ (decoding .z 1 0 0).dec.shift = 0) ∧
    ((decoding .lat 0 0 0).dec.st = .inPhase .lat ∧ (decoding .lat 0 0 0).dec.shift = 0) := by decide

theorem witness_CountersCountPointsAndSymbols :
    (runOps (.dstart :: [66, 65, 66, 67].map .dsym) decFailed).map (fun x => x.1.map (·.st))
      = some [.ok, .ok, .ok, .ok, .ok] := by decide

theorem witness_ClosedUnitsReplayOrRefuse :
    (Instr.mnemonic (.epoint 1 2 3) ∈ [Mnemonic.epoint, .eend, .dsym, .dend] ∧
      (encFailed.enc.st == .failed) = true ∧ (State.reset.enc.st == .idle) = true) ∧
    (Instr.mnemonic .dend ∈ [Mnemonic.epoint, .eend, .dsym, .dend] ∧
      (decFailed.dec.st == .failed) = true ∧ (State.reset.dec.st == .idle) = true) := by decide

theorem witness_ErrorsArePrecise :
    (decode (word 0x31 0 0 0) = .error (.undefinedOpcode 0x31) ∧
      (presenting (word 0x31 0 0 0) encFailed).pending = [.word (word 0x31 0 0 0)]) ∧
    (∃ t r, exec (.dsym 67) (decoding .version 0 0 0) = .next t ∧ t.resp = some r ∧
      r.st = .unsupportedVersion) ∧
    (∃ t r, exec (.estart 16 0 0) encFailed = .next t ∧ t.resp = some r ∧ r.st = .invalidPrecision) ∧
    (∃ t r, exec .dend decFailed = .next t ∧ t.resp = some r ∧ r.st = .truncatedPoint) :=
  ⟨by decide, ⟨_, _, rfl, rfl, rfl⟩, ⟨_, _, rfl, rfl, rfl⟩, ⟨_, _, rfl, rfl, rfl⟩⟩

theorem witness_FailedIsLeftOnlyByStartOrReset :
    (∃ t, step (presenting (word 0x10 5 0 0) encFailed) = .next t ∧ encFailed.enc.st = .failed ∧
      t.enc.st ≠ .failed) ∧
    (∃ t, step (presenting (word 0x20 0 0 0) decFailed) = .next t ∧ decFailed.dec.st = .failed ∧
      t.dec.st ≠ .failed) ∧
    (∃ t, step (presenting (word 0x10 16 0 0) encFailed) = .next t ∧ t.enc.st = .failed ∧
      t.enc.err ≠ encFailed.enc.err ∧ decode (word 0x10 16 0 0) = .ok (.estart 16 0 0) ∧
      validate 16 0 0 = some .invalidPrecision) ∧
    (∃ t, step (presenting (word 0x21 66 0 0) decFailed) = .next t ∧ t.dec.st = .failed) ∧
    (∃ t, step (presenting (word 0x10 5 4 0) State.reset) = .next t ∧
      State.reset.enc.st ≠ .failed ∧ t.enc.st = .failed) ∧
    (∃ t, step (presenting (word 0x21 46 0 0) (decoding .lat 0 0 0)) = .next t ∧
      (decoding .lat 0 0 0).dec.st ≠ .failed ∧ t.dec.st = .failed) :=
  ⟨⟨_, rfl, by decide, by decide⟩, ⟨_, rfl, by decide, by decide⟩,
    ⟨_, rfl, by decide, by decide, by decide, by decide⟩, ⟨_, rfl, by decide⟩, ⟨_, rfl, by decide, by decide⟩, ⟨_, rfl, by decide, by decide⟩⟩

theorem witness_FlagsSetAndClearedAsListed :
    (∃ t, step (presenting (word 0x20 0 0 0) (decoding .lat 0 0 0)) = .next t ∧
      flagHV (decoding .lat 0 0 0).dec.flags = true ∧ flagHV t.dec.flags = false) ∧
    (∃ t, step (presenting (word 0x21 66 0 0) (decoding .header 0 0 0)) = .next t ∧
      flagHV (decoding .header 0 0 0).dec.flags = false ∧ flagHV t.dec.flags = true) ∧
    (∃ t, step (presenting (word 0x21 81 0 0) (decoding .lat 0 0 60)) = .next t ∧
      flagOVF (decoding .lat 0 0 60).dec.flags = false ∧ flagOVF t.dec.flags = true) :=
  ⟨⟨_, rfl, by decide, by decide⟩, ⟨_, rfl, by decide, by decide⟩, ⟨_, rfl, by decide, by decide⟩⟩

/-- A string cut inside a delta varint, next to an open encode transaction. -/
def busy : State := { encoding 1 2 3 4 with dec := (decoding .lng 0 26 5).dec }

/-- The invariants hold in a state with both units in the middle of their work. -/
theorem busy_inv : Inv busy :=
  { listed :=
      { encErrIffFailed := by decide
        decErrIffFailed := by decide
        encErrCodes := by decide
        decErrCodes := by decide
        encKindNotReserved := by decide
        decShiftLegal := by decide
        decVaccClear := by decide
        decShiftBusy := fun _ => .inl ⟨.lng, rfl⟩
        decNoHeader := by decide
        decTwoAxes := by decide
        decP3Bound := by decide
        decVersion := by decide }
    headerPending := by decide
    versionPending := by decide
    headerKnown := by decide
    vaccBelowShift := by decide
    encTwoAxes := by decide }

theorem witness_OperationsAnswerListedCodes : Inv busy := busy_inv

theorem witness_StepKeepsResponsesWellShaped : ∃ t,
    step (presenting (word 0x03 37 0 0) State.reset) = .next t ∧
    (∀ r, (presenting (word 0x03 37 0 0) State.reset).resp = some r → WellShaped r) ∧
    t.resp ≠ none :=
  ⟨_, rfl, fun _ h => by simp [presenting, State.reset] at h, by decide⟩

theorem witness_StepKeepsInvariants : Inv busy ∧ ∃ t, step busy = .next t :=
  ⟨busy_inv, _, rfl⟩

theorem witness_UnitsShareNoState :
    (∃ t t', exec (.epoint 5 6 7) busy = .next t ∧ exec (.epoint 5 6 7) (encoding 1 2 3 4) = .next t' ∧
      (Instr.mnemonic (.epoint 5 6 7)).codecUnit = some .enc ∧ busy.enc = (encoding 1 2 3 4).enc) ∧
    (∃ t t', exec .dend busy = .next t ∧ exec .dend (decoding .lng 0 26 5) = .next t' ∧
      (Instr.mnemonic .dend).codecUnit = some .dec ∧ busy.dec = (decoding .lng 0 26 5).dec) :=
  ⟨⟨_, _, rfl, rfl, rfl, rfl⟩, ⟨_, _, rfl, rfl, rfl, rfl⟩⟩

theorem witness_TransactionsIgnoreStartState :
    Instr.mnemonic (.uenc 5) ∈ [Mnemonic.zze, .zzd, .uenc] := by decide

theorem witness_EncodeTransactionComputesEncodeInts :
    validate 5 4 0 = some .reservedKind ∧ validate 16 8 0 = some .invalidPrecision ∧
    validate 5 8 0 = some .invalidKind := by decide

theorem witness_PeekReadsKindOfHeader :
    (decodeHeader [66, 108, 66] = .ok ({ p2 := 5, kind := 2, p3 := 0 }, 3)) ∧
    (decodeHeader [66, 108] = .error .unterminatedValue) ∧
    (decodeHeader [67, 70] = .error .unsupportedVersion) ∧
    (decodeHeader [66, 44] = .error .invalidSymbol) := by decide

/-- `"BlDCEG"` (section 5, and the EPOINT of kind 6 there). -/
theorem witness_RoundTripOfRecoverablePoints :
    runEncode 5 6 0 [⟨1, 2, 3⟩] State.reset = some (.ok [66, 108, 68, 67, 69, 71]) ∧
    recoverableDeltas 6 ⟨0, 0, 0⟩ [⟨1, 2, 3⟩] :=
  ⟨by decide, by simp only [recoverableDeltas, recoverable]; decide⟩

/-- The wrap row of section 5: deltas outside -2^62 .. 2^62 - 1. -/
theorem witness_RoundTripDriftsByUnrecoverableDeltas :
    (runEncode 0 0 0 [⟨0x7FFFFFFFFFFFFFFF, 0x8000000000000000, 0⟩] State.reset).map Except.isOk = some true ∧
    ¬ recoverable 0x7FFFFFFFFFFFFFFF :=
  ⟨by decide, by simp only [recoverable]; decide⟩

/-- The trace of a list of operations from reset. -/
def traceOf (is : List Instr) : Trace := (runTrace is State.reset).getD []

/-- `DSTART`, `'B'`, `'F'` have no result before DEND has answered, and a polyline without points then;
an operation of ENC, or of neither unit, in between changes nothing (spec/20_memory.md R71). -/
theorem test_outcome_needs_dend :
    decodeOutcome (traceOf [.dstart, .dsym 66, .dsym 70]) = none ∧
    (decodeOutcome (traceOf [.dstart, .dsym 66, .uenc 9, .estart 5 0 0, .dsym 70, .dend])).map
      (fun o => o.toOption) = some (some { header := { p2 := 5, kind := 0, p3 := 0 }, pts := [] }) := by
  decide

/-- An encode transaction has no string before EEND has answered; the symbols of UENC are not in it. -/
theorem test_outcome_needs_eend :
    encodeOutcome (traceOf [.estart 5 0 0, .epoint 1 2 3]) = none ∧
    (encodeOutcome (traceOf [.estart 5 0 0, .uenc 9, .epoint 1 2 3, .eend])).map (fun o => o.toOption)
      = some (some [66, 70, 67, 69]) := by
  decide

/-- `"BF"` and `ESTART 5, 0, 0` end without an error; `"CF"` and `ESTART 5, 4, 0` begin with one. -/
theorem witness_OutcomeIsDefinedByClosingOperation :
    (traceOf (encodeOps 5 0 0 [])).map (fun x => x.2.st) = [.ok, .ok] ∧
    (traceOf (encodeOps 5 4 0 [])).map (fun x => x.2.st) = [] ++ .reservedKind :: [.reservedKind] ∧
    (traceOf (decodeOps [66, 70])).map (fun x => x.2.st) = [.ok, .ok, .ok, .ok] ∧
    (traceOf (decodeOps [67, 70])).map (fun x => x.2.st)
      = [.ok] ++ .unsupportedVersion :: [.unsupportedVersion, .unsupportedVersion] := by decide

/-- The first point of S1, with the nearest integer as the rounding. -/
theorem witness_HostRoundTripWithinHalfUnit :
    (∀ x : ℚ, |((round x : ℤ) : ℚ) - x| ≤ 1 / 2) ∧ validate 5 2 0 = none ∧
    |(5010228 / 100000 : ℚ) * hostScale (5 : Word).toNat| ≤ 2 ^ 61 - 1 ∧
    |(869821 / 100000 : ℚ) * hostScale (5 : Word).toNat| ≤ 2 ^ 61 - 1 ∧
    ((2 : Word) ≠ 0 → |(10 : ℚ) * hostScale (0 : Word).toNat| ≤ 2 ^ 61 - 1) := by
  have h5 : (5 : Word).toNat = 5 := rfl
  have h0 : (0 : Word).toNat = 0 := rfl
  refine ⟨fun x => ?_, by decide, ?_, ?_, fun _ => ?_⟩
  · rw [abs_sub_comm]
    exact abs_sub_round x
  all_goals norm_num [hostScale, h5, h0]

end Sys2Proof.Tests
end

/-! ## Registers and counters of the state (spec/10_state.md)

What RDREG reads right after reset (R49), and what the two counters `DEC_NPTS` and `DEC_POS` hold in
a decode transaction (R38, R39). The counters are two inductions over the symbols presented, each over
one rule for DSYM that is a case split over `Effect`. -/

namespace Sys2Proof.Machine

/-! ### Reading a register -/

/-- RDREG of a register index answers its value and changes no register (spec/44_system_and_host.md
R180). -/
theorem exec_rdreg_of_readReg {a v : Word} {s : State} (h : readReg a s = some v) :
    exec (.rdreg a) s = .next { s with resp := some { okResponse with r0 := v } } := by
  simp only [exec, execRdreg, h, respond]

/-- The register map ends at `CFG_VERSION`, index 0x20 (spec/10_state.md R21). -/
theorem toNat_lt_of_isRegisterIndex {a : Word} (h : isRegisterIndex a = true) : a.toNat < 0x21 := by
  simp only [isRegisterIndex, Bool.or_eq_true, Bool.and_eq_true, decide_eq_true_eq] at h
  omega

/-- The `reset` column of the register map, row by row (spec/10_state.md R21). -/
theorem readReg_reset_of_fin (n : Fin 0x21) (h : isRegisterIndex (BitVec.ofNat 64 n) = true) :
    readReg (BitVec.ofNat 64 n) State.reset =
      some (if BitVec.ofNat 64 n = 0x20 then 1 else 0) := by
  revert n; decide

/-- Right after reset every register reads 0, and `CFG_VERSION` 1 (spec/10_state.md R49). -/
theorem readReg_reset {a : Word} (h : isRegisterIndex a = true) :
    readReg a State.reset = some (if a = 0x20 then 1 else 0) := by
  have ha : BitVec.ofNat 64 a.toNat = a := by simp
  have row := readReg_reset_of_fin ⟨a.toNat, toNat_lt_of_isRegisterIndex h⟩
  rw [ha] at row
  exact row h

/-! ### Runs of operations -/

/-- An operation performed is one of the cases of `Effect`, and its response is the one it left. -/
theorem effect_of_perform {i : Instr} {s t : State} {r : Response} (h : perform i s = some (r, t)) :
    Effect i s t ∧ t.resp = some r := by
  obtain ⟨r', t', hp, he, hr, -⟩ := perform_answers i s
  obtain ⟨rfl, rfl⟩ : r' = r ∧ t' = t := by simpa using hp.symm.trans h
  exact ⟨exec_effect he, hr⟩

/-- Every list of operations is answered in every state (spec/00_scope.md R9). -/
theorem runOps_answers (is : List Instr) (s : State) : ∃ rs u, runOps is s = some (rs, u) := by
  induction is generalizing s with
  | nil => exact ⟨[], s, rfl⟩
  | cons i is ih =>
    obtain ⟨r, t, hp, -⟩ := perform_answers i s
    obtain ⟨rs, u, hu⟩ := ih t
    exact ⟨r :: rs, u, by simp [runOps_cons hp, hu]⟩

/-- A run of a non-empty list is its first operation and the run of the rest. -/
theorem runOps_cons_eq_some {i : Instr} {is : List Instr} {s u : State} {rs : List Response} :
    runOps (i :: is) s = some (rs, u) ↔
      ∃ r t rs', perform i s = some (r, t) ∧ runOps is t = some (rs', u) ∧ rs = r :: rs' := by
  obtain ⟨r, t, hp, -⟩ := perform_answers i s
  obtain ⟨rs', u', ht⟩ := runOps_answers is t
  simp only [runOps_cons hp, hp, ht, Option.map_some, Option.some.injEq, Prod.mk.injEq]
  constructor
  · rintro ⟨rfl, rfl⟩
    exact ⟨r, t, rs', ⟨rfl, rfl⟩, ht, rfl⟩
  · rintro ⟨_, _, _, ⟨rfl, rfl⟩, hu, rfl⟩
    obtain ⟨rfl, rfl⟩ : rs' = _ ∧ u' = u := by simpa using ht.symm.trans hu
    exact ⟨rfl, rfl⟩

/-- DSTART answers OK from every state and opens a transaction (spec/43_point_stream.md R158). -/
theorem perform_dstart (s : State) :
    perform .dstart s = some (okResponse, { s with
      dec := { DecRegs.reset with st := .inPhase .version }, resp := some okResponse }) := rfl

/-! ### The counters -/

/-- A response adds a point to those delivered exactly when its event is POINT (spec/30_encoding.md
R84). -/
theorem length_pointEvents_cons (r : Response) (rs : List Response) :
    (pointEvents (r :: rs)).length = (if r.ev = .point then 1 else 0) + (pointEvents rs).length := by
  by_cases h : r.ev = .point
  · simp [pointEvents, h, Nat.add_comm]
  · simp [pointEvents, h]

/-- DSYM adds one to `DEC_NPTS` exactly with a POINT event (spec/10_state.md R39). -/
theorem dsym_npts {a : Word} {s t : State} {r : Response} (h : perform (.dsym a) s = some (r, t)) :
    t.dec.npts = s.dec.npts + if r.ev = .point then 1 else 0 := by
  obtain ⟨he, hr⟩ := effect_of_perform h
  cases he
  case dsymLngTwo | dsymZ => cases hr; rfl
  all_goals
    cases hr
    exact (BitVec.add_zero _).symm

/-- In an open transaction a DSYM answered OK consumes its symbol and leaves the transaction open
(spec/10_state.md R38, spec/43_point_stream.md R160). -/
theorem dsym_ok_pos {a : Word} {s t : State} {r : Response} {p : Phase}
    (h : perform (.dsym a) s = some (r, t)) (hs : s.dec.st = .inPhase p) (hok : r.st = .ok) :
    t.dec.pos = s.dec.pos + 1 ∧ ∃ p', t.dec.st = .inPhase p' := by
  obtain ⟨he, hr⟩ := effect_of_perform h
  cases he
  case dsymInvalid | dsymVersionBad => cases hr; cases hok
  case encIdle hi _ | encFailed hi _ => simp at hi
  case decIdle _ hidle => cases hidle.symm.trans hs
  case decFailed _ hfailed => cases hfailed.symm.trans hs
  case dsymContinues => exact ⟨rfl, p, hs⟩
  all_goals exact ⟨rfl, _, rfl⟩

/-- Over any symbols `DEC_NPTS` grows by the number of POINT events (spec/10_state.md R39). -/
theorem runOps_dsym_npts {syms : List Word} {s u : State} {rs : List Response}
    (h : runOps (syms.map .dsym) s = some (rs, u)) :
    u.dec.npts = s.dec.npts + BitVec.ofNat 64 (pointEvents rs).length := by
  induction syms generalizing s rs with
  | nil => cases h; simp [pointEvents]
  | cons a syms ih =>
    obtain ⟨r, t, rs', hp, ht, rfl⟩ := runOps_cons_eq_some.1 h
    rw [ih ht, dsym_npts hp, length_pointEvents_cons, BitVec.ofNat_add, BitVec.add_assoc]
    split <;> rfl

/-- In an open transaction, while every answer is OK, `DEC_POS` grows by the number of symbols
(spec/10_state.md R38). -/
theorem runOps_dsym_pos {syms : List Word} {s u : State} {rs : List Response} {p : Phase}
    (h : runOps (syms.map .dsym) s = some (rs, u)) (hs : s.dec.st = .inPhase p)
    (hok : ∀ r ∈ rs, r.st = .ok) :
    u.dec.pos = s.dec.pos + BitVec.ofNat 64 syms.length := by
  induction syms generalizing s rs p with
  | nil => cases h; simp
  | cons a syms ih =>
    obtain ⟨r, t, rs', hp, ht, rfl⟩ := runOps_cons_eq_some.1 h
    obtain ⟨hr, hrs⟩ := List.forall_mem_cons.1 hok
    obtain ⟨hpos, p', hp'⟩ := dsym_ok_pos hp hs hr
    rw [ih ht hp' hrs, hpos, List.length_cons, Nat.add_comm, BitVec.ofNat_add, BitVec.add_assoc]
    rfl

/-! ### The statements -/

/-- Settles O10: the answer of RDREG is `readReg`, which in the reset state is the `reset` column. -/
theorem registersReadResetValues : Obligations.RegistersReadResetValues := by
  intro a ha
  exact exec_rdreg_of_readReg (readReg_reset ha)

/-- Settles O38: DSTART leaves both counters 0 in an open transaction, and the DSYMs after it count
up from there. -/
theorem countersCountPointsAndSymbols : Obligations.CountersCountPointsAndSymbols := by
  intro syms s
  obtain ⟨rs, u, hrun⟩ := runOps_answers (.dstart :: syms.map .dsym) s
  obtain ⟨r, t, rs', hp, ht, rfl⟩ := runOps_cons_eq_some.1 hrun
  obtain ⟨rfl, rfl⟩ : okResponse = r ∧ _ = t := by simpa using (perform_dstart s).symm.trans hp
  refine ⟨_, u, hrun, ?_, fun hok => ?_⟩
  · rw [runOps_dsym_npts ht, length_pointEvents_cons]
    simp [okResponse, DecRegs.reset]
  · rw [runOps_dsym_pos ht rfl (List.forall_mem_cons.1 hok).2]
    simp [DecRegs.reset]

end Sys2Proof.Machine

/-! ## The tables and the symbol lookup (spec/20_memory.md, spec/40_varint.md R104)

`lookup` reads `INV` for the code points in its range. That `INV` is the inverse of `ALPHA` (R63) is
`tables_inverse`; the two directions below add to it that all 64 bits of the code point count. -/

namespace Sys2Proof.Machine

/-- The ranges of `ALPHA`: `A` to `Z`, `a` to `z`, `0` to `9`, `-` and `_` (spec/20_memory.md R61). -/
theorem alpha_toNat (q : Quantity) :
    (alpha q).toNat =
      if q.toNat ≤ 25 then 65 + q.toNat
      else if q.toNat ≤ 51 then 97 + (q.toNat - 26)
      else if q.toNat ≤ 61 then 48 + (q.toNat - 52)
      else if q.toNat = 62 then 45 else 95 := by
  revert q; decide

/-- What `lookup` finds is the quantity of the valid entry of `INV` that stands for the code point
(spec/40_varint.md R104). -/
theorem exists_inv_of_lookup_eq_some {c : Word} {q : Quantity} (h : lookup c = some q) :
    ∃ j : Fin 78, c.toNat = j.val + 45 ∧ (inv j).getLsbD 6 = true ∧
      (inv j).extractLsb' 0 6 = q := by
  unfold lookup at h
  split at h
  case isFalse => cases h
  case isTrue hrange =>
    dsimp only at h
    split at h
    case isFalse => cases h
    case isTrue hvalid => exact ⟨_, (Nat.sub_add_cancel hrange.1).symm, hvalid, Option.some.inj h⟩

/-- A symbol as a 64-bit operand keeps its code point. -/
theorem toNat_zext64_alpha (q : Quantity) : (zext64 (alpha q)).toNat = (alpha q).toNat :=
  BitVec.toNat_setWidth_of_le (by decide)

/-- `lookup` finds a quantity exactly for the code point of its symbol, compared on all 64 bits
(spec/40_varint.md R104). -/
theorem lookup_eq_some_iff {c : Word} {q : Quantity} :
    lookup c = some q ↔ c.toNat = (alpha q).toNat := by
  constructor
  · intro h
    obtain ⟨j, hc, hvalid, rfl⟩ := exists_inv_of_lookup_eq_some h
    rw [hc, alpha_inv j hvalid]
  · intro h
    obtain rfl : c = zext64 (alpha q) := BitVec.eq_of_toNat_eq (h.trans (toNat_zext64_alpha q).symm)
    exact lookup_alpha q

/-- Settles O13: the ranges of `ALPHA`, and `INV` as its inverse (R63) carried over to `lookup`. -/
theorem lookupInvertsAlphabet : Obligations.LookupInvertsAlphabet :=
  ⟨alpha_toNat, fun _ _ => lookup_eq_some_iff⟩

end Sys2Proof.Machine

/-! ## The operation word (spec/30_encoding.md R80, R81, R82)

Where the four fields stand in the word as a number, and that a word is decoded from its opcode and
from those operand fields alone that the format of the opcode reads. -/

namespace Sys2Proof

/-! ### The fields as numbers -/

/-- Field `opcode` is the lowest eight bits (spec/30_encoding.md R80). -/
theorem opcodeField_toNat (w : OpWord) : (opcodeField w).toNat = w.toNat % 256 := by
  rw [opcodeField, BitVec.extractLsb'_toNat, Nat.shiftRight_zero]

/-- An operand field is the word divided by the weight of its lowest bit (spec/30_encoding.md
R80). -/
theorem extractLsb'_eq_ofNat_div (w : OpWord) (start : Nat) :
    w.extractLsb' start 64 = BitVec.ofNat 64 (w.toNat / 2 ^ start) := by
  rw [BitVec.extractLsb', Nat.shiftRight_eq_div_pow]

theorem fieldA_eq_ofNat_div (w : OpWord) : fieldA w = BitVec.ofNat 64 (w.toNat / 2 ^ 8) :=
  extractLsb'_eq_ofNat_div w 8

theorem fieldB_eq_ofNat_div (w : OpWord) : fieldB w = BitVec.ofNat 64 (w.toNat / 2 ^ 72) :=
  extractLsb'_eq_ofNat_div w 72

theorem fieldC_eq_ofNat_div (w : OpWord) : fieldC w = BitVec.ofNat 64 (w.toNat / 2 ^ 136) :=
  extractLsb'_eq_ofNat_div w 136

/-! ### Decoding -/

/-- A word whose opcode is a mnemonic's decodes to that mnemonic's operation (spec/30_encoding.md
R82). -/
theorem decode_of_opcodeField {w : OpWord} {m : Mnemonic} (h : opcodeField w = m.opcode) :
    decode w = .ok (buildInstr (fieldA w) (fieldB w) (fieldC w) m) := by
  simp only [decode, h, mnemonicOfOpcode_opcode]

/-- The same with the word as a number (spec/30_encoding.md R80, R82). -/
theorem decode_of_toNat_mod {w : OpWord} (m : Mnemonic) (h : w.toNat % 256 = m.opcode.toNat) :
    decode w = .ok (buildInstr (BitVec.ofNat 64 (w.toNat / 2 ^ 8))
      (BitVec.ofNat 64 (w.toNat / 2 ^ 72)) (BitVec.ofNat 64 (w.toNat / 2 ^ 136)) m) := by
  have hop : opcodeField w = m.opcode := BitVec.eq_of_toNat_eq ((opcodeField_toNat w).trans h)
  rw [decode_of_opcodeField hop, fieldA_eq_ofNat_div, fieldB_eq_ofNat_div, fieldC_eq_ofNat_div]

/-! ### The fields a format reads -/

/-- An operation depends only on the operands its format reads (spec/30_encoding.md R81). -/
theorem buildInstr_congr {m : Mnemonic} {a b c a' b' c' : Word} (ha : m.format ≠ .n → a = a')
    (hbc : m.format = .abc → b = b' ∧ c = c') : buildInstr a b c m = buildInstr a' b' c' m := by
  cases m
  case eend | dstart | dend => rfl
  case zze | zzd | uenc | dsym | rdreg => rw [ha (by decide)]; rfl
  case estart | epoint =>
    obtain ⟨rfl, rfl⟩ := hbc rfl
    rw [ha (by decide)]

/-- The opcodes whose format reads `a` (spec/30_encoding.md R81, R82). -/
theorem format_ne_n_iff (m : Mnemonic) : m.format ≠ .n ↔
    m.opcode ∈ [0x01#8, 0x02#8, 0x03#8, 0x10#8, 0x11#8, 0x21#8, 0x30#8] := by
  cases m <;> decide

/-- The opcodes whose format reads `b` and `c` (spec/30_encoding.md R81, R82). -/
theorem format_eq_abc_iff (m : Mnemonic) : m.format = .abc ↔ m.opcode ∈ [0x10#8, 0x11#8] := by
  cases m <;> decide

/-- Words with the same opcode that agree on the fields its format reads decode alike; an undefined
opcode reads none (spec/30_encoding.md R81, R85). -/
theorem decode_congr {w w' : OpWord} (hop : opcodeField w = opcodeField w')
    (ha : ∀ m : Mnemonic, m.opcode = opcodeField w → m.format ≠ .n → fieldA w = fieldA w')
    (hbc : ∀ m : Mnemonic, m.opcode = opcodeField w → m.format = .abc →
      fieldB w = fieldB w' ∧ fieldC w = fieldC w') :
    decode w = decode w' := by
  unfold decode
  rw [← hop]
  cases hm : mnemonicOfOpcode (opcodeField w) with
  | none => rfl
  | some m =>
    have hcode := opcode_of_mnemonicOfOpcode hm
    exact congrArg Except.ok (buildInstr_congr (ha m hcode) (hbc m hcode))

end Sys2Proof

namespace Sys2Proof.Machine

/-- The step sees of a presented word only what it decodes to (spec/30_encoding.md R85). -/
theorem step_word_congr {w w' : OpWord} (h : decode w = decode w') (s : State)
    (rest : List HostInput) :
    step { s with pending := .word w :: rest } = step { s with pending := .word w' :: rest } := by
  simp only [step, fetch, h]

/-! ### The statements -/

/-- Settles O3: each line is `decode_of_toNat_mod` for one mnemonic, whose opcode is the number
given. -/
theorem decodeReadsOpcodeAndFields : Obligations.DecodeReadsOpcodeAndFields := fun _ =>
  ⟨decode_of_toNat_mod .zze, decode_of_toNat_mod .zzd, decode_of_toNat_mod .uenc,
    decode_of_toNat_mod .estart, decode_of_toNat_mod .epoint, decode_of_toNat_mod .eend,
    decode_of_toNat_mod .dstart, decode_of_toNat_mod .dsym, decode_of_toNat_mod .dend,
    decode_of_toNat_mod .rdreg⟩

/-- Settles O7: words that agree on the fields read decode alike, and so step alike. -/
theorem unreadFieldsHaveNoEffect : Obligations.UnreadFieldsHaveNoEffect := by
  intro s w w' rest hop ha hbc
  have hdecode : decode w = decode w' := decode_congr hop
    (fun m hm hread => ha (hm ▸ (format_ne_n_iff m).1 hread))
    (fun m hm hread => hbc (hm ▸ (format_eq_abc_iff m).1 hread))
  exact step_word_congr hdecode s rest

end Sys2Proof.Machine

/-! ## The varint encoder, and superfluous chunks (spec/40_varint.md R100, R107, R108)

The encoder as a recursion on the value alone, its induction, and the list of chunks it emits. The
decoder's value of a varint does not change when its terminator is turned into a continuing symbol
and zero chunks follow. -/

namespace Sys2Proof.Machine

/-! ### The encoder as a recursion on the value -/

/-- What the encoder goes on with after one symbol is the quotient itself, nothing of it dropped. -/
theorem toNat_ofNat_div_chunk (v : Word) : (BitVec.ofNat 64 (v.toNat / 32)).toNat = v.toNat / 32 :=
  Nat.mod_eq_of_lt (Nat.lt_of_le_of_lt (Nat.div_le_self _ _) v.isLt)

/-- A value below 32 is one symbol (spec/40_varint.md R100). -/
theorem encodeUnsigned_of_lt {v : Word} (h : v.toNat < 32) :
    encodeUnsigned v = [alpha (BitVec.ofNat 6 v.toNat)] := by
  rw [encodeUnsigned, Config.maxSymsPerValue, encodeChunks_succ, if_neg (by omega),
    Nat.mod_eq_of_lt h]

/-- Of a longer value the low chunk comes first, continuing; what is left has 59 bits, for which 12
symbols are as many as 13 (spec/40_varint.md R100; log 10). -/
theorem encodeUnsigned_of_ge {v : Word} (h : 32 ≤ v.toNat) :
    encodeUnsigned v = alpha (BitVec.ofNat 6 (32 + v.toNat % 32)) ::
      encodeUnsigned (BitVec.ofNat 64 (v.toNat / 32)) := by
  have hrest : (BitVec.ofNat 64 (v.toNat / 32)).toNat < 32 ^ (11 + 1) := by
    rw [toNat_ofNat_div_chunk]
    omega
  rw [encodeUnsigned, Config.maxSymsPerValue, encodeChunks_succ, if_pos (by omega),
    ← encodeChunks_fuel 11 1 _ hrest]
  rfl

/-- Induction along the encoder's loop. -/
theorem chunk_induction {P : Word → Prop} (single : ∀ v : Word, v.toNat < 32 → P v)
    (more : ∀ v : Word, 32 ≤ v.toNat → P (BitVec.ofNat 64 (v.toNat / 32)) → P v)
    (v : Word) : P v := by
  induction hn : v.toNat using Nat.strongRecOn generalizing v with
  | ind n ih =>
    by_cases h : v.toNat < 32
    · exact single v h
    · exact more v (by omega) (ih _ (by rw [← hn]; omega) _ (toNat_ofNat_div_chunk v))

/-! ### The chunks as a list -/

/-- The number of chunks of a value: its digits in base 32, at least one. -/
def chunkCount (x : Nat) : Nat := Nat.log 32 x + 1

/-- Symbol `k` of a value of `n` chunks. -/
def chunkSym (x n k : Nat) : Sym :=
  alpha (BitVec.ofNat 6 (x / 2 ^ (5 * k) % 32 + if k + 1 < n then 32 else 0))

theorem chunkCount_pos (x : Nat) : 0 < chunkCount x := Nat.succ_pos _

theorem chunkCount_of_lt {x : Nat} (h : x < 32) : chunkCount x = 1 := by
  rw [chunkCount, Nat.log_of_lt h]

theorem chunkCount_of_ge {x : Nat} (h : 32 ≤ x) : chunkCount x = chunkCount (x / 32) + 1 := by
  rw [chunkCount, chunkCount, Nat.log_of_one_lt_of_le (by decide) h]

/-- The same number from the bit length (spec/40_varint.md R101). -/
theorem chunkCount_eq_ite (x : Nat) :
    chunkCount x = if x ≤ 31 then 1 else (Nat.log2 x + 5) / 5 := by
  split
  · exact chunkCount_of_lt (by omega)
  · have hbits : Nat.log 32 x = Nat.log2 x / 5 := by
      rw [Nat.log2_eq_log_two]
      exact Nat.log_pow_left 2 5 x
    rw [chunkCount, hbits]
    omega

/-- The first symbol of a longer value. -/
theorem chunkSym_zero (x : Nat) {n : Nat} (h : 0 < n) :
    chunkSym x (n + 1) 0 = alpha (BitVec.ofNat 6 (32 + x % 32)) := by
  rw [chunkSym, if_pos (by omega), Nat.mul_zero, Nat.pow_zero, Nat.div_one, Nat.add_comm]

/-- The later symbols are those of the quotient. -/
theorem chunkSym_succ (x n k : Nat) : chunkSym x (n + 1) (k + 1) = chunkSym (x / 32) n k := by
  have hdiv : x / 2 ^ (5 * (k + 1)) = x / 32 / 2 ^ (5 * k) := by
    rw [Nat.div_div_eq_div_mul, Nat.mul_succ, Nat.pow_add, Nat.mul_comm]
  simp only [chunkSym, hdiv, Nat.add_lt_add_iff_right]

/-- The encoder emits the chunks of the value, least significant first (spec/40_varint.md R100). -/
theorem encodeUnsigned_eq_chunks (v : Word) : encodeUnsigned v =
    (List.range (chunkCount v.toNat)).map (chunkSym v.toNat (chunkCount v.toNat)) := by
  induction v using chunk_induction with
  | single v h =>
    rw [encodeUnsigned_of_lt h, chunkCount_of_lt h]
    simp [chunkSym, Nat.mod_eq_of_lt h]
  | more v h ih =>
    rw [encodeUnsigned_of_ge h, ih, toNat_ofNat_div_chunk, chunkCount_of_ge h,
      List.range_succ_eq_map, List.map_cons, List.map_map, chunkSym_zero _ (chunkCount_pos _)]
    exact congrArg _ (List.map_congr_left fun k _ => (chunkSym_succ _ _ k).symm)

/-- UENC answers the encoding of its operand and changes no register (spec/40_varint.md R108). -/
theorem exec_uenc (a : Word) (s : State) : exec (.uenc a) s =
    .next { s with resp := some { okResponse with syms := encodeUnsigned a } } := rfl

/-! ### Superfluous chunks -/

theorem alpha_injective : Function.Injective alpha := fun p q h =>
  Option.some.inj (by rw [← lookup_alpha p, h, lookup_alpha])

/-- The one quantity of a value below 32 is the value (spec/40_varint.md R100). -/
theorem quantities_of_lt {v : Word} {qs : List Quantity} (hv : v.toNat < 32)
    (h : encodeUnsigned v = qs.map alpha) : qs = [BitVec.ofNat 6 v.toNat] := by
  rw [encodeUnsigned_of_lt hv] at h
  exact List.map_injective_iff.2 alpha_injective h.symm

/-- The quantities of a longer value: the low chunk with the continuation bit, and those of the
quotient (spec/40_varint.md R100). -/
theorem quantities_of_ge {v : Word} {qs : List Quantity} (hv : 32 ≤ v.toNat)
    (h : encodeUnsigned v = qs.map alpha) :
    ∃ qs', qs = BitVec.ofNat 6 (32 + v.toNat % 32) :: qs' ∧
      encodeUnsigned (BitVec.ofNat 64 (v.toNat / 32)) = qs'.map alpha := by
  rw [encodeUnsigned_of_ge hv, eq_comm, List.map_eq_cons_iff] at h
  obtain ⟨q, qs', rfl, hq, hqs⟩ := h
  exact ⟨qs', by rw [alpha_injective hq], hqs.symm⟩

/-- A symbol with its continuation bit set adds its payload and the decoder goes on
(spec/40_varint.md R102). -/
theorem decodeLoop_continuing (q : Quantity) (r : Word) (shift i : Nat) (rest : List Word) :
    decodeLoop r shift i (zext64 (alpha (q ||| 0x20#6)) :: rest) =
      decodeLoop (r ||| (zext64 (payload q) <<< shift)) (min (shift + 5) 65) (i + 1) rest := by
  have hbit : 32 ≤ (q ||| 0x20#6).toNat := by revert q; decide
  have hpay : payload (q ||| 0x20#6) = payload q := by revert q; decide
  rw [decodeLoop_cons (lookup_alpha _), if_pos hbit, hpay]

/-- The payload as a word is the low five bits of the quantity's number (spec/40_varint.md R103). -/
theorem zext64_payload_ofNat (x : Nat) :
    zext64 (payload (BitVec.ofNat 6 x)) = BitVec.ofNat 64 (x % 32) := by
  apply BitVec.eq_of_toNat_eq
  rw [zext64, BitVec.toNat_setWidth_of_le (by decide), payload_toNat, BitVec.toNat_ofNat,
    BitVec.toNat_ofNat]
  omega

/-- A shift count at its saturation shifts everything out, like any larger one (spec/10_state.md
R37). -/
theorem shiftLeft_min_shiftMax (v : Word) (n : Nat) : v <<< min n 65 = v <<< n := by
  rcases Nat.le_total n 65 with h | h
  · rw [Nat.min_eq_left h]
  · rw [Nat.min_eq_right h, BitVec.shiftLeft_eq_zero (by decide),
      BitVec.shiftLeft_eq_zero (by omega)]

/-- A value is its low chunk and its quotient put side by side. -/
theorem eq_chunk_or_quotient (v : Word) :
    v = BitVec.ofNat 64 (v.toNat % 32) ||| (BitVec.ofNat 64 (v.toNat / 32) <<< 5) := by
  apply BitVec.eq_of_toNat_eq
  have hlow : v.toNat % 32 < 2 ^ 5 := Nat.mod_lt _ (by decide)
  have hfit : 2 ^ 5 * (v.toNat / 32) < 2 ^ 64 := by omega
  rw [BitVec.toNat_or, BitVec.toNat_shiftLeft, toNat_ofNat_div_chunk, BitVec.toNat_ofNat,
    Nat.mod_eq_of_lt (by omega), Nat.shiftLeft_eq, Nat.mul_comm, Nat.mod_eq_of_lt hfit,
    Nat.or_comm, ← Nat.two_pow_add_eq_or_of_lt hlow]
  omega

/-- The two parts stay side by side at any position of the result. -/
theorem shiftLeft_eq_chunk_or_quotient (v : Word) (shift : Nat) :
    v <<< shift = (BitVec.ofNat 64 (v.toNat % 32) <<< shift) |||
      (BitVec.ofNat 64 (v.toNat / 32) <<< (shift + 5)) := by
  conv_lhs => rw [eq_chunk_or_quotient v]
  rw [BitVec.shiftLeft_or_distrib, ← BitVec.shiftLeft_add, Nat.add_comm]

theorem codePoints_cons (x : Sym) (xs : List Sym) :
    codePoints (x :: xs) = zext64 x :: codePoints xs := rfl

theorem codePoints_append (xs ys : List Sym) :
    codePoints (xs ++ ys) = codePoints xs ++ codePoints ys := List.map_append

/-- With all symbols continuing, the decoder has the encoded value after them and is still inside
the varint (spec/40_varint.md R107). -/
theorem decodeLoop_all_continuing (v : Word) {qs : List Quantity}
    (h : encodeUnsigned v = qs.map alpha) (r : Word) (shift i : Nat) (rest : List Word) :
    decodeLoop r shift i (codePoints (qs.map fun q => alpha (q ||| 0x20#6)) ++ rest) =
      decodeLoop (r ||| v <<< shift) (min (shift + 5 * qs.length) 65) (i + qs.length) rest := by
  induction v using chunk_induction generalizing qs r shift i with
  | single v hv =>
    obtain rfl := quantities_of_lt hv h
    have hword : BitVec.ofNat 64 (v.toNat % 32) = v := by
      rw [Nat.mod_eq_of_lt hv, BitVec.ofNat_toNat, BitVec.setWidth_eq]
    have hround := decodeLoop_continuing (BitVec.ofNat 6 v.toNat) r shift i rest
    rw [zext64_payload_ofNat, hword] at hround
    exact hround
  | more v hv ih =>
    obtain ⟨qs', rfl, hqs⟩ := quantities_of_ge hv h
    have hlow : (32 + v.toNat % 32) % 32 = v.toNat % 32 := by omega
    have hshift : min (min (shift + 5) 65 + 5 * qs'.length) 65
        = min (shift + 5 * (qs'.length + 1)) 65 := by omega
    rw [List.map_cons, codePoints_cons, List.cons_append, decodeLoop_continuing,
      zext64_payload_ofNat, hlow, ih hqs, hshift, shiftLeft_min_shiftMax,
      BitVec.or_assoc, ← shiftLeft_eq_chunk_or_quotient, List.length_cons, Nat.add_assoc,
      Nat.add_comm 1]

/-- Zero chunks and a zero terminator add nothing, wherever they stand (spec/40_varint.md R107). -/
theorem decodeLoop_zeros (zeros : Nat) (r : Word) (shift i : Nat) (t : List Word) :
    decodeLoop r shift i (codePoints (List.replicate zeros (alpha 0x20#6) ++ [alpha 0]) ++ t) =
      .ok (r, i + zeros + 1) := by
  have hzero (n : Nat) : r ||| (zext64 (payload 0) <<< n) = r := by
    rw [show zext64 (payload 0) = 0#64 from rfl, BitVec.zero_shiftLeft, BitVec.or_zero]
  induction zeros generalizing shift i with
  | zero =>
    rw [List.replicate_zero, List.nil_append, codePoints_cons, List.cons_append,
      decodeLoop_cons (lookup_alpha 0), if_neg (by decide), hzero]
  | succ zeros ih =>
    have hround := decodeLoop_continuing 0 r shift i
      (codePoints (List.replicate zeros (alpha 0x20#6) ++ [alpha 0]) ++ t)
    rw [hzero, ih, Nat.add_right_comm i, Nat.add_assoc i] at hround
    exact hround

/-! ### The statements -/

/-- Settles O14: one round of the loop in the two cases of the value. -/
theorem encodeUnsignedFollowsLoop : Obligations.EncodeUnsignedFollowsLoop := by
  intro v
  split
  · exact encodeUnsigned_of_ge (by omega)
  · rw [Nat.mod_eq_of_lt (by omega)]
    exact encodeUnsigned_of_lt (by omega)

/-- Settles O18: the continuing symbols leave the value in the result, the zeros after them keep
it. -/
theorem nonCanonicalVarintsAreAccepted : Obligations.NonCanonicalVarintsAreAccepted := by
  intro v qs zeros t h
  have hloop := decodeLoop_all_continuing v h 0 0 0
    (codePoints (List.replicate zeros (alpha 0x20#6) ++ [alpha 0]) ++ t)
  have hresult : (0 : Word) ||| v <<< 0 = v := by rw [BitVec.shiftLeft_zero]; exact BitVec.zero_or
  rw [decodeLoop_zeros, hresult, Nat.zero_add] at hloop
  rw [List.append_assoc, codePoints_append, List.append_assoc, decodeUnsigned,
    List.drop_zero, hloop]
  rfl

/-- Settles O19: UENC answers the encoding of its operand, which is the list of its chunks. -/
theorem uencEmitsChunks : Obligations.UencEmitsChunks := by
  intro a s n
  have hn : n = chunkCount a.toNat := (chunkCount_eq_ite a.toNat).symm
  rw [exec_uenc, encodeUnsigned_eq_chunks, ← hn]
  rfl

end Sys2Proof.Machine

/-! ## The signed value transform (spec/41_zigzag.md R120, R122, R124, R125)

The two converters as integer arithmetic, one equation per branch of their definitions: the encoder
branches on the sign of its operand, the decoder on the parity. -/

namespace Sys2Proof.Machine

/-! ### The bit operations as arithmetic -/

/-- The complement of an integer's word is the word of its reflection at -1/2. -/
theorem not_ofInt (z : Int) : ~~~(BitVec.ofInt 64 z) = BitVec.ofInt 64 (-z - 1) := by
  rw [BitVec.not_eq_neg_add, Int.sub_eq_add_neg, BitVec.ofInt_add, BitVec.ofInt_neg,
    BitVec.ofInt_neg, BitVec.sub_eq_add_neg]
  rfl

/-- The same for a word's own signed value. -/
theorem toInt_not (w : Word) : (~~~w).toInt = -w.toInt - 1 := by
  have hsum := BitVec.toNat_not (x := w)
  rw [BitVec.toInt_eq_toNat_cond, BitVec.toInt_eq_toNat_cond]
  omega

/-- Doubling is modulo 2^64: the sign bit is shifted out (spec/41_zigzag.md R120). -/
theorem shiftLeft_one_eq_ofInt (v : Word) : v <<< 1 = BitVec.ofInt 64 (2 * v.toInt) := by
  rw [BitVec.shiftLeft_eq_mul_twoPow, Int.mul_comm, BitVec.ofInt_mul, BitVec.ofInt_toInt]
  rfl

theorem getLsbD_63_iff_neg (v : Word) : v.getLsbD 63 = true ↔ v.toInt < 0 := by
  rw [← BitVec.msb_eq_getLsbD_last v, BitVec.msb_eq_toInt, decide_eq_true_iff]

theorem getLsbD_zero_iff_odd (u : Word) : u.getLsbD 0 = true ↔ u.toNat % 2 = 1 := by
  rw [← BitVec.testBit_toNat, Nat.testBit_zero, decide_eq_true_iff]

/-- The arithmetic shift by one is floor division by two (spec/41_zigzag.md R122). -/
theorem sshiftRight_one_eq_ofInt (w : Word) : w.sshiftRight 1 = BitVec.ofInt 64 (w.toInt / 2) := by
  rw [BitVec.sshiftRight_eq, Int.shiftRight_eq_div_pow]
  rfl

/-! ### The converters, branch by branch -/

theorem zigzagEncode_of_nonneg {v : Word} (h : 0 ≤ v.toInt) :
    zigzagEncode v = BitVec.ofInt 64 (2 * v.toInt) := by
  have hbit : ¬ v.getLsbD 63 = true := fun hb => Int.not_lt.2 h ((getLsbD_63_iff_neg v).1 hb)
  rw [zigzagEncode, if_neg hbit, shiftLeft_one_eq_ofInt]

theorem zigzagEncode_of_neg {v : Word} (h : v.toInt < 0) :
    zigzagEncode v = BitVec.ofInt 64 (-2 * v.toInt - 1) := by
  rw [zigzagEncode, if_pos ((getLsbD_63_iff_neg v).2 h), shiftLeft_one_eq_ofInt, not_ofInt,
    Int.neg_mul]

theorem zigzagDecode_of_even {u : Word} (h : u.toNat % 2 = 0) :
    zigzagDecode u = BitVec.ofInt 64 (u.toInt / 2) := by
  have hbit : ¬ u.getLsbD 0 = true := by rw [getLsbD_zero_iff_odd]; omega
  rw [zigzagDecode, if_neg hbit, sshiftRight_one_eq_ofInt]

theorem zigzagDecode_of_odd {u : Word} (h : u.toNat % 2 = 1) :
    zigzagDecode u = BitVec.ofInt 64 ((-u.toInt - 1) / 2) := by
  rw [zigzagDecode, if_pos ((getLsbD_zero_iff_odd u).2 h), sshiftRight_one_eq_ofInt, toInt_not]

/-! ### The operations -/

/-- ZZE answers the encoding of its operand and changes no register (spec/41_zigzag.md R124). -/
theorem exec_zze (a : Word) (s : State) : exec (.zze a) s =
    .next { s with resp := some { okResponse with r0 := zigzagEncode a } } := rfl

/-- ZZD answers the decoding of its operand and changes no register (spec/41_zigzag.md R125). -/
theorem exec_zzd (a : Word) (s : State) : exec (.zzd a) s =
    .next { s with resp := some { okResponse with r0 := zigzagDecode a } } := rfl

/-! ### The statements -/

/-- Settles O20, by the sign of the operand. -/
theorem zzeAnswersZigzagOfOperand : Obligations.ZzeAnswersZigzagOfOperand := by
  intro a s
  rw [exec_zze]
  split
  case isTrue h => rw [zigzagEncode_of_nonneg h]; rfl
  case isFalse h => rw [zigzagEncode_of_neg (Int.not_le.1 h)]; rfl

/-- Settles O21, by the parity of the operand: at 2^63 its signed value drops by 2^64, and so what
is shifted changes sign. -/
theorem zzdAnswersLiteralDecoding : Obligations.ZzdAnswersLiteralDecoding := by
  intro a s u
  have hsign : a.toInt = if u < 2 ^ 63 then u else u - 2 ^ 64 := by
    rw [BitVec.toInt_eq_toNat_cond]
    omega
  rw [exec_zzd]
  split
  case isTrue heven =>
    rw [zigzagDecode_of_even (by omega), hsign]
    split
    · rfl
    · rw [show (u - 2 ^ 64) / 2 = u / 2 - 2 ^ 63 by omega]; rfl
  case isFalse hodd =>
    rw [zigzagDecode_of_odd (by omega), hsign]
    split
    · rw [show (-u - 1) / 2 = -((u + 1) / 2) by omega]; rfl
    · rw [show (-(u - 2 ^ 64) - 1) / 2 = (2 ^ 64 - 1 - u) / 2 by omega]; rfl

end Sys2Proof.Machine

/-! ## The header, ESTART, and the version of a decoded string (spec/42_header.md)

The packed header as a number (R130, R132) and the checks of `validate` as comparisons of numbers
(R135): with these ESTART has two outcomes, by what `validate` answers (R136). DSYM on a terminator
ends its varint in the phase at hand, which in phase VERSION compares it with `CFG_VERSION` (R134). -/

namespace Sys2Proof.Machine

/-! ### The packed header as a number -/

/-- A field shifted above `n` lower bits is multiplied by their weight, when it still fits. -/
theorem toNat_zext64_shiftLeft {w : Nat} (v : BitVec w) (n : Nat) (h : w + n ≤ 64) :
    (zext64 v <<< n).toNat = 2 ^ n * v.toNat := by
  have hfit : 2 ^ n * v.toNat < 2 ^ 64 := calc
    2 ^ n * v.toNat < 2 ^ n * 2 ^ w := Nat.mul_lt_mul_of_pos_left v.isLt (Nat.two_pow_pos n)
    _ = 2 ^ (w + n) := by rw [← Nat.pow_add, Nat.add_comm]
    _ ≤ 2 ^ 64 := Nat.pow_le_pow_right (by decide) h
  rw [BitVec.toNat_shiftLeft, zext64, BitVec.toNat_setWidth_of_le (by omega), Nat.shiftLeft_eq,
    Nat.mul_comm, Nat.mod_eq_of_lt hfit]

/-- The three fields lie side by side, so putting them together is adding (spec/42_header.md
R130). -/
theorem packHeader_toNat (p2 : BitVec 4) (k : BitVec 3) (p3 : BitVec 4) :
    (packHeader p2 k p3).toNat = p3.toNat * 128 + k.toNat * 16 + p2.toNat := by
  have hp2 : p2.toNat < 2 ^ 4 := p2.isLt
  have hk : 2 ^ 4 * k.toNat < 2 ^ 7 := by have := k.isLt; omega
  rw [packHeader, BitVec.or_assoc, BitVec.toNat_or, BitVec.toNat_or,
    toNat_zext64_shiftLeft p3 7 (by decide), toNat_zext64_shiftLeft k 4 (by decide), zext64,
    BitVec.toNat_setWidth_of_le (by decide), ← Nat.two_pow_add_eq_or_of_lt hp2,
    ← Nat.two_pow_add_eq_or_of_lt (by omega)]
  omega

theorem unpackHeader_p2_toNat (h : Word) : (unpackHeader h).p2.toNat = h.toNat % 16 := by
  rw [unpackHeader, BitVec.extractLsb'_toNat, Nat.shiftRight_zero]

theorem unpackHeader_kind_toNat (h : Word) : (unpackHeader h).kind.toNat = h.toNat / 16 % 8 := by
  rw [unpackHeader, BitVec.extractLsb'_toNat, Nat.shiftRight_eq_div_pow]

/-- Precision3D is everything from bit 7 up (spec/42_header.md R132). -/
theorem unpackHeader_p3_toNat (h : Word) : (unpackHeader h).p3.toNat = h.toNat / 128 := by
  rw [unpackHeader, BitVec.toNat_ushiftRight, Nat.shiftRight_eq_div_pow]

/-! ### ESTART -/

theorem precisionBits_eq_ofNat (v : Word) : precisionBits v = BitVec.ofNat 4 v.toNat := by
  rw [precisionBits, BitVec.extractLsb', Nat.shiftRight_zero]

theorem kindBits_eq_ofNat (v : Word) : kindBits v = BitVec.ofNat 3 v.toNat := by
  rw [kindBits, BitVec.extractLsb', Nat.shiftRight_zero]

/-- What ESTART packs from operands in range (spec/42_header.md R130, R136). -/
theorem packHeader_operands {a b c : Word} (ha : a.toNat ≤ 15) (hb : b.toNat ≤ 7)
    (hc : c.toNat ≤ 15) :
    packHeader (precisionBits a) (kindBits b) (precisionBits c) =
      BitVec.ofNat 64 (c.toNat * 128 + b.toNat * 16 + a.toNat) := by
  apply BitVec.eq_of_toNat_eq
  rw [packHeader_toNat, precisionBits_eq_ofNat, kindBits_eq_ofNat, precisionBits_eq_ofNat]
  simp only [BitVec.toNat_ofNat]
  omega

/-- The checks of the header operands as comparisons of their numbers (spec/42_header.md R135). -/
theorem validate_eq (a b c : Word) : validate a b c =
    if 15 < a.toNat ∨ 15 < c.toNat then some .invalidPrecision
    else if 7 < b.toNat then some .invalidKind
    else if b.toNat = 4 ∨ b.toNat = 5 then some .reservedKind
    else none := by
  have reserved (n : Fin 8) : b = BitVec.ofNat 64 n ↔ b.toNat = n := by
    rw [← BitVec.toNat_inj, BitVec.toNat_ofNat, Nat.mod_eq_of_lt (by omega)]
  have four : b = zext64 Config.kindReserved1 ↔ b.toNat = 4 := reserved 4
  have five : b = zext64 Config.kindReserved2 ↔ b.toNat = 5 := reserved 5
  simp only [validate, four, five, BitVec.lt_def]
  rfl

/-- A header in range whose kind is not reserved passes every check (spec/42_header.md R135). -/
theorem validate_eq_none {a b c : Word} (ha : a.toNat ≤ 15) (hc : c.toNat ≤ 15) (hb : b.toNat ≤ 7)
    (h4 : b.toNat ≠ 4) (h5 : b.toNat ≠ 5) : validate a b c = none := by
  rw [validate_eq, if_neg (by omega), if_neg (by omega), if_neg (by omega)]

/-- A refused ESTART latches its code in ENC and answers it (spec/42_header.md R136,
spec/60_exceptions.md R210). -/
theorem exec_estart_refused {a b c : Word} {e : Status} (h : validate a b c = some e) (s : State) :
    exec (.estart a b c) s = .next { s with
      enc := { s.enc with st := .failed, err := e }, resp := some (errorResponse e 0 0) } := by
  have hunit : latchUnit e = some .enc := by
    rcases validate_codes h with rfl | rfl | rfl <;> rfl
  simp only [exec, execEstart, h, raise_enc hunit]

/-- An accepted ESTART writes every register of ENC and emits version and header
(spec/42_header.md R136). -/
theorem exec_estart_opened {a b c : Word} (h : validate a b c = none) (s : State) :
    exec (.estart a b c) s = .next { s with
      enc := { st := .active, err := .ok, p2 := precisionBits a, kind := kindBits b,
               p3 := precisionBits c, plat := 0, plng := 0, pz := 0 }
      resp := some { okResponse with
        syms := encodeUnsigned Config.cfgVersion
          ++ encodeUnsigned (packHeader (precisionBits a) (kindBits b) (precisionBits c))
        r0 := packHeader (precisionBits a) (kindBits b) (precisionBits c) } } := by
  simp only [exec, execEstart, h, respond]

/-- The version is the one symbol `B` (spec/42_header.md R133). -/
theorem encodeUnsigned_cfgVersion : encodeUnsigned Config.cfgVersion = [66#8] :=
  encodeUnsigned_of_lt (by decide)

/-- A varint has one symbol per chunk of its value (spec/40_varint.md R101). -/
theorem length_encodeUnsigned (v : Word) : (encodeUnsigned v).length = chunkCount v.toNat := by
  rw [encodeUnsigned_eq_chunks, List.length_map, List.length_range]

/-- A packed header, at most 2047, has one to three chunks. -/
theorem chunkCount_of_le_2047 {x : Nat} (h : x ≤ 2047) :
    chunkCount x = if x ≤ 31 then 1 else if x ≤ 1023 then 2 else 3 := by
  split
  case isTrue hone => exact chunkCount_of_lt (by omega)
  case isFalse hone =>
    rw [chunkCount_of_ge (by omega)]
    split
    case isTrue htwo => rw [chunkCount_of_lt (by omega)]
    case isFalse htwo => rw [chunkCount_of_ge (by omega), chunkCount_of_lt (by omega)]

/-! ### DSYM on a terminator -/

/-- A terminator completes the varint in progress (spec/40_varint.md R105). -/
theorem vstep_terminator {c : Word} {q : Quantity} (hl : lookup c = some q) (hq : q.toNat < 32)
    (d : DecRegs) : vstep c d = .complete (afterTerminator d q) (assembled d q) := by
  rcases vstep_cases c d with ⟨hnone, -⟩ | ⟨q', hl', hq', -⟩ | ⟨q', hl', -, hv⟩
  · cases hl.symm.trans hnone
  · cases hl.symm.trans hl'
    omega
  · cases hl.symm.trans hl'
    exact hv

/-- In an open transaction a terminator ends its varint in the phase at hand
(spec/43_point_stream.md R160). -/
theorem exec_dsym_terminator {a : Word} {q : Quantity} {p : Phase} {s : State}
    (hs : s.dec.st = .inPhase p) (hl : lookup a = some q) (hq : q.toNat < 32) :
    exec (.dsym a) s =
      .next (finishVarint p (assembled s.dec q) { s with dec := afterTerminator s.dec q }) := by
  simp only [exec, execDsym, hs, vstep_terminator hl hq]

/-- Version 1 opens phase HEADER (spec/43_point_stream.md R160). -/
theorem finishVarint_version_supported (s : State) : finishVarint .version 1 s = { s with
    dec := { s.dec with ver := 1, st := .inPhase .header }, resp := some okResponse } := rfl

/-- Any other version is kept in `DEC_VER` and fails DEC (spec/42_header.md R134). -/
theorem finishVarint_version_unsupported {v : Word} (hv : v ≠ 1) (s : State) :
    finishVarint .version v s = { s with
      dec := { s.dec with ver := v, st := .failed, err := .unsupportedVersion }
      resp := some (errorResponse .unsupportedVersion v 0) } := by
  have hcfg : v ≠ Config.cfgVersion := hv
  simp only [finishVarint, if_pos hcfg, raise_dec (e := .unsupportedVersion) rfl]

/-! ### The statements -/

/-- Settles O24: the sum of the packed fields, with its bound from their widths, and one division
per unpacked field. -/
theorem headerPacksAndUnpacksFields : Obligations.HeaderPacksAndUnpacksFields := by
  refine ⟨fun p2 k p3 => ⟨packHeader_toNat p2 k p3, ?_⟩, fun h =>
    ⟨unpackHeader_p2_toNat h, unpackHeader_kind_toNat h, unpackHeader_p3_toNat h⟩⟩
  rw [packHeader_toNat]
  have hp2 := p2.isLt
  have hk := k.isLt
  have hp3 := p3.isLt
  omega

/-- Settles O26: the chain of checks of the statement is that of `validate`, and its answer decides
what ESTART does. -/
theorem estartRefusesBadHeader : Obligations.EstartRefusesBadHeader := by
  intro a b c s
  have hvalidate := validate_eq a b c
  dsimp only
  split_ifs at hvalidate ⊢ with hprecision hkind hreserved
  · exact exec_estart_refused hvalidate s
  · exact exec_estart_refused hvalidate s
  · exact exec_estart_refused hvalidate s
  · exact ⟨_, exec_estart_opened hvalidate s, rfl⟩

/-- Settles O27: a good header passes the checks; one symbol of version and the chunks of the packed
header. -/
theorem estartOpensTransaction : Obligations.EstartOpensTransaction := by
  intro a b c s ha hc hb h4 h5 h syms
  have hh : h ≤ 2047 := by omega
  constructor
  · rw [exec_estart_opened (validate_eq_none ha hc hb h4 h5), packHeader_operands ha hb hc,
      encodeUnsigned_cfgVersion, precisionBits_eq_ofNat, kindBits_eq_ofNat, precisionBits_eq_ofNat]
    rfl
  · have hvalue : (BitVec.ofNat 64 h).toNat = h := Nat.mod_eq_of_lt (by omega)
    rw [List.length_cons, length_encodeUnsigned, hvalue, chunkCount_of_le_2047 hh]
    split
    · rfl
    · split <;> rfl

/-- Settles O34: the terminator ends the version varint, whose value is 1 or is not. -/
theorem dsymFinishesVersion : Obligations.DsymFinishesVersion := by
  intro a q s hs hl hq
  rw [exec_dsym_terminator hs hl hq]
  refine ⟨fun hv => ?_, fun hv => ?_⟩
  · rw [hv, finishVarint_version_supported]
    rfl
  · rw [finishVarint_version_unsupported hv]
    rfl

end Sys2Proof.Machine

/-! ## The point stream: EPOINT, EEND, DSTART and DEND (spec/43_point_stream.md)

Outside an open transaction the operations of a unit only answer. In ACTIVE, EPOINT emits one varint
per axis, each of 1 to 13 symbols (R150, R151); inside an open decode transaction DEND looks at the
phase and at `DEC_SHIFT` only, and three outcomes remain (R165). -/

namespace Sys2Proof.Machine

/-! ### Closed units -/

/-- EPOINT and EEND without a transaction (spec/43_point_stream.md R150, R155). -/
theorem exec_of_enc_idle {i : Instr} {s : State} (hi : (∃ a b c, i = .epoint a b c) ∨ i = .eend)
    (hs : s.enc.st = .idle) :
    exec i s = .next { s with resp := some (errorResponse .badSequence 0 0) } := by
  rcases hi with ⟨a, b, c, rfl⟩ | rfl
  · simp only [exec, execEpoint, hs, raise_protocol (e := .badSequence) rfl]
  · simp only [exec, execEend, hs, raise_protocol (e := .badSequence) rfl]

/-- EPOINT and EEND in FAILED (spec/60_exceptions.md R213). -/
theorem exec_of_enc_failed {i : Instr} {s : State} (hi : (∃ a b c, i = .epoint a b c) ∨ i = .eend)
    (hs : s.enc.st = .failed) :
    exec i s = .next { s with resp := some (errorResponse s.enc.err 0 0) } := by
  rcases hi with ⟨a, b, c, rfl⟩ | rfl
  · simp only [exec, execEpoint, hs, replay_eq]
  · simp only [exec, execEend, hs, replay_eq]

/-- DSYM and DEND without a transaction (spec/43_point_stream.md R160, R165). -/
theorem exec_of_dec_idle {i : Instr} {s : State} (hi : (∃ a, i = .dsym a) ∨ i = .dend)
    (hs : s.dec.st = .idle) :
    exec i s = .next { s with resp := some (errorResponse .badSequence 0 0) } := by
  rcases hi with ⟨a, rfl⟩ | rfl
  · simp only [exec, execDsym, hs, raise_protocol (e := .badSequence) rfl]
  · simp only [exec, execDend, hs, raise_protocol (e := .badSequence) rfl]

/-- DSYM and DEND in FAILED (spec/60_exceptions.md R213). -/
theorem exec_of_dec_failed {i : Instr} {s : State} (hi : (∃ a, i = .dsym a) ∨ i = .dend)
    (hs : s.dec.st = .failed) :
    exec i s = .next { s with resp := some (errorResponse s.dec.err 0 0) } := by
  rcases hi with ⟨a, rfl⟩ | rfl
  · simp only [exec, execDsym, hs, replay_eq]
  · simp only [exec, execDend, hs, replay_eq]

/-! ### The open encode transaction -/

/-- EPOINT without a third axis: operand `c` is not used (spec/43_point_stream.md R150). -/
theorem exec_epoint_two {s : State} (hs : s.enc.st = .active) (hk : s.enc.kind = 0)
    (a b c : Word) :
    exec (.epoint a b c) s = .next { s with
      enc := { s.enc with plat := a, plng := b }
      resp := some { okResponse with
        syms := deltaSyms a s.enc.plat ++ deltaSyms b s.enc.plng
        r0 := a - s.enc.plat, r1 := b - s.enc.plng } } := by
  have habsent : ¬ s.enc.kind ≠ Config.kindAbsent := not_not_intro hk
  simp only [exec, execEpoint, hs, if_neg habsent, respond]

/-- EPOINT with a third axis (spec/43_point_stream.md R150). -/
theorem exec_epoint_three {s : State} (hs : s.enc.st = .active) (hk : s.enc.kind ≠ 0)
    (a b c : Word) :
    exec (.epoint a b c) s = .next { s with
      enc := { s.enc with plat := a, plng := b, pz := c }
      resp := some { okResponse with
        syms := deltaSyms a s.enc.plat ++ deltaSyms b s.enc.plng ++ deltaSyms c s.enc.pz
        r0 := a - s.enc.plat, r1 := b - s.enc.plng, r2 := c - s.enc.pz } } := by
  have hpresent : s.enc.kind ≠ Config.kindAbsent := hk
  simp only [exec, execEpoint, hs, if_pos hpresent, respond]

/-- EEND in ACTIVE (spec/43_point_stream.md R155). -/
theorem exec_eend_active {s : State} (hs : s.enc.st = .active) :
    exec .eend s =
      .next { s with enc := { s.enc with st := .idle }, resp := some okResponse } := by
  simp only [exec, execEend, hs, respond]

/-- A varint has 1 to 13 symbols: a value below 2^64 has at most 13 digits in base 32
(spec/40_varint.md R101). -/
theorem length_encodeUnsigned_bounds (v : Word) :
    1 ≤ (encodeUnsigned v).length ∧ (encodeUnsigned v).length ≤ 13 := by
  rw [length_encodeUnsigned]
  have hfit : v.toNat < 32 ^ 13 := by omega
  exact ⟨chunkCount_pos _, Nat.log_lt_of_lt_pow' (by decide) hfit⟩

/-- One axis of a point takes 1 to 13 symbols (spec/43_point_stream.md R151). -/
theorem length_deltaSyms_bounds (cur prev : Word) :
    1 ≤ (deltaSyms cur prev).length ∧ (deltaSyms cur prev).length ≤ 13 :=
  length_encodeUnsigned_bounds _

/-! ### DEND in an open transaction -/

/-- DEND before the header ends, or inside a varint (spec/43_point_stream.md R165). -/
theorem exec_dend_unterminated {s : State} {p : Phase} (hs : s.dec.st = .inPhase p)
    (hp : p = .version ∨ p = .header ∨ s.dec.shift ≠ 0) :
    exec .dend s = .next { s with
      dec := { s.dec with st := .failed, err := .unterminatedValue }
      resp := some (errorResponse .unterminatedValue 0 0) } := by
  simp only [exec, execDend, hs, raise_dec (e := .unterminatedValue) rfl]
  by_cases hearly : p = .version ∨ p = .header
  · rw [if_pos hearly]
  · have hopen : s.dec.shift ≠ 0 := (or_assoc.2 hp).resolve_left hearly
    rw [if_neg hearly, if_pos hopen]

/-- DEND between the varints of a point (spec/43_point_stream.md R165). -/
theorem exec_dend_truncated {s : State} {p : Phase} (hs : s.dec.st = .inPhase p)
    (hp : p = .lng ∨ p = .z) (hz : s.dec.shift = 0) :
    exec .dend s = .next { s with
      dec := { s.dec with st := .failed, err := .truncatedPoint }
      resp := some (errorResponse .truncatedPoint 0 0) } := by
  have hlate : ¬ (p = .version ∨ p = .header) := by rcases hp with rfl | rfl <;> decide
  simp only [exec, execDend, hs, if_neg hlate, if_neg (not_not_intro hz), if_pos hp,
    raise_dec (e := .truncatedPoint) rfl]

/-- DEND at a point boundary (spec/43_point_stream.md R165). -/
theorem exec_dend_complete {s : State} (hs : s.dec.st = .inPhase .lat) (hz : s.dec.shift = 0) :
    exec .dend s = .next { s with
      dec := { s.dec with st := .idle }, resp := some { okResponse with r0 := s.dec.npts } } := by
  have hlate : ¬ (Phase.lat = .version ∨ Phase.lat = .header) := by decide
  have hboundary : ¬ (Phase.lat = .lng ∨ Phase.lat = .z) := by decide
  simp only [exec, execDend, hs, if_neg hlate, if_neg (not_not_intro hz), if_neg hboundary, respond]

/-! ### The statements -/

/-- Settles O28, by the state of ENC and the kind: the symbol counts add up over the two or three
axes. -/
theorem epointEncodesPoint : Obligations.EpointEncodesPoint := by
  intro a b c s
  obtain ⟨latMin, latMax⟩ := length_deltaSyms_bounds a s.enc.plat
  obtain ⟨lngMin, lngMax⟩ := length_deltaSyms_bounds b s.enc.plng
  refine ⟨exec_of_enc_idle (.inl ⟨a, b, c, rfl⟩), exec_of_enc_failed (.inl ⟨a, b, c, rfl⟩),
    fun hs hk => ⟨exec_epoint_two hs hk a b c, ?_⟩,
    fun hs hk => ⟨exec_epoint_three hs hk a b c, ?_⟩⟩
  · rw [List.length_append]
    exact ⟨Nat.add_le_add latMin lngMin, Nat.add_le_add latMax lngMax⟩
  · obtain ⟨zMin, zMax⟩ := length_deltaSyms_bounds c s.enc.pz
    rw [List.length_append, List.length_append]
    exact ⟨Nat.add_le_add (Nat.add_le_add latMin lngMin) zMin,
      Nat.add_le_add (Nat.add_le_add latMax lngMax) zMax⟩

/-- Settles O37, by the state of DEC, the phase, and whether a varint is in progress. -/
theorem dendDecidesCompleteness : Obligations.DendDecidesCompleteness := by
  intro s
  refine ⟨exec_of_dec_idle (.inr rfl), exec_of_dec_failed (.inr rfl), ?beforeHeaderEnds,
    fun ⟨_, hs⟩ hopen => exec_dend_unterminated hs (.inr (.inr hopen)), ?insidePoint,
    exec_dend_complete⟩
  case beforeHeaderEnds =>
    rintro (hs | hs)
    · exact exec_dend_unterminated hs (.inl rfl)
    · exact exec_dend_unterminated hs (.inr (.inl rfl))
  case insidePoint =>
    rintro (hs | hs) hz
    · exact exec_dend_truncated hs (.inl rfl) hz
    · exact exec_dend_truncated hs (.inr rfl) hz

/-- Settles O29, by the state of ENC. -/
theorem eendClosesTransaction : Obligations.EendClosesTransaction := fun _ =>
  ⟨exec_of_enc_idle (.inr rfl), exec_of_enc_failed (.inr rfl), exec_eend_active⟩

/-- Settles O30: DSTART does not look at the state of DEC. -/
theorem dstartClearsDecoder : Obligations.DstartClearsDecoder := fun _ => rfl

end Sys2Proof.Machine

/-! ## RDREG and undefined opcodes (spec/44_system_and_host.md R180, R181)

RDREG is total: an index of the register map answers its register, every other 64-bit index
`BadRegister`. A word is undefined exactly when its low eight bits are no opcode of R82; it is then
answered without touching a register. -/

namespace Sys2Proof

/-- Every opcode is one of the ten numbers (spec/30_encoding.md R82). -/
theorem opcode_toNat_mem (m : Mnemonic) : m.opcode.toNat ∈
    [0x01, 0x02, 0x03, 0x10, 0x11, 0x12, 0x20, 0x21, 0x22, 0x30] := by
  cases m <;> decide

/-- A word whose opcode is none of the ten numbers is rejected with that opcode (spec/30_encoding.md
R85). -/
theorem decode_of_undefined {w : OpWord}
    (h : w.toNat % 256 ∉ [0x01, 0x02, 0x03, 0x10, 0x11, 0x12, 0x20, 0x21, 0x22, 0x30]) :
    decode w = .error (.undefinedOpcode (opcodeField w)) := by
  unfold decode
  cases hm : mnemonicOfOpcode (opcodeField w) with
  | none => rfl
  | some m =>
    rw [← opcodeField_toNat, ← opcode_of_mnemonicOfOpcode hm] at h
    exact absurd (opcode_toNat_mem m) h

end Sys2Proof

namespace Sys2Proof.Machine

/-- Zero extension keeps the number (spec/00_scope.md R8). -/
theorem zext64_eq_ofNat {n : Nat} (v : BitVec n) : zext64 v = BitVec.ofNat 64 v.toNat :=
  (BitVec.ofNat_toNat 64 v).symm

/-- The step answers a rejected word and takes it (spec/30_encoding.md R85). -/
theorem step_of_decode_error {s : State} {w : OpWord} {rest : List HostInput} {e : DecodeError}
    (hp : s.pending = .word w :: rest) (hd : decode w = .error e) :
    step s = .next (answerRejected e { s with pending := rest }) := by
  simp only [step, fetch_cons hp, hd]

/-- Outside the register map nothing is read (spec/10_state.md R21). -/
theorem readReg_eq_none {a : Word} (h : isRegisterIndex a = false) (s : State) :
    readReg a s = none := by
  unfold readReg
  split
  case h_24 => rfl
  all_goals
    rename_i ha
    simp [isRegisterIndex, ha] at h

/-- RDREG of a 64-bit value that is no register index changes no register
(spec/44_system_and_host.md R180). -/
theorem exec_rdreg_of_readReg_eq_none {a : Word} {s : State} (h : readReg a s = none) :
    exec (.rdreg a) s = .next { s with resp := some (errorResponse .badRegister a 0) } := by
  simp only [exec, execRdreg, h, raise_protocol (e := .badRegister) rfl]

/-! ### The statements -/

/-- Settles O6: the decoder rejects the word with its opcode, and the answer to a rejected word is
an error response alone. -/
theorem undefinedOpcodeIsAnsweredIllegalOp : Obligations.UndefinedOpcodeIsAnsweredIllegalOp := by
  refine ⟨rfl, fun s w rest hp hop => ?_⟩
  rw [step_of_decode_error hp (decode_of_undefined hop), answerRejected_eq, zext64_eq_ofNat,
    opcodeField_toNat]
  rfl

/-- Settles O11: `exec_rdreg_of_readReg` for each row of the register map, where the narrow
registers are zero-extended and the enumerated ones stand for their numbers. -/
theorem rdregReadsNamedRegister : Obligations.RdregReadsNamedRegister := by
  intro s answers encState decState code
  have row {a v : Word} (h : readReg a s = some v) : answers a v := exec_rdreg_of_readReg h
  have narrow {a : Word} {n : Nat} {v : BitVec n} (h : readReg a s = some (zext64 v)) :
      answers a (BitVec.ofNat 64 v.toNat) := zext64_eq_ofNat v ▸ row h
  have henc : zext64 (encStCode s.enc.st) = encState := by
    unfold encState
    cases s.enc.st <;> rfl
  have hdec : zext64 (decStCode s.dec.st) = decState := by
    unfold decState
    rcases s.dec.st with _ | p | _
    case inPhase => cases p <;> rfl
    all_goals rfl
  have hcode (e : Status) : zext64 (statusCode e) = code e := by cases e <;> rfl
  refine ⟨row (congrArg some henc), row (congrArg some (hcode _)),
    narrow rfl, narrow rfl, narrow rfl, row rfl, row rfl, row rfl,
    row (congrArg some hdec), row (congrArg some (hcode _)), row rfl,
    narrow rfl, narrow rfl, row rfl, row rfl, row rfl, row rfl, row rfl, narrow rfl, narrow rfl,
    row rfl, row rfl, row rfl, fun a ha => ?unmapped⟩
  case unmapped => exact exec_rdreg_of_readReg_eq_none (readReg_eq_none ha s)

end Sys2Proof.Machine

/-! ## Errors (spec/60_exceptions.md R210, R213, R214)

What an operation that answers an error writes is read off `Effect` case by case. What becomes of
the state and the latched code of a unit in one step is said once for each unit, by `EncMove` and
`DecMove`; how a unit enters and leaves FAILED follows from these. -/

namespace Sys2Proof.Machine

/-! ### The data operations of a unit -/

/-- The data operations of ENC (spec/60_exceptions.md R213). -/
theorem mnemonic_mem_encData_iff {i : Instr} :
    i.mnemonic ∈ [Mnemonic.epoint, .eend] ↔ (∃ a b c, i = .epoint a b c) ∨ i = .eend := by
  cases i <;> simp [Instr.mnemonic]

/-- The data operations of DEC (spec/60_exceptions.md R213). -/
theorem mnemonic_mem_decData_iff {i : Instr} :
    i.mnemonic ∈ [Mnemonic.dsym, .dend] ↔ (∃ a, i = .dsym a) ∨ i = .dend := by
  cases i <;> simp [Instr.mnemonic]

/-! ### The codes that a latch takes -/

/-- A code a unit latches is no protocol code (spec/60_exceptions.md R200, column `latched`). -/
theorem not_mem_protocol_of_latchUnit {e : Status} {u : CodecUnit} (h : latchUnit e = some u) :
    e ∉ [Status.illegalOp, .badSequence, .badRegister] := by
  cases e <;> simp [latchUnit] at h ⊢

/-- The codes of a refused header are latched in ENC (spec/42_header.md R135). -/
theorem latchUnit_of_validate {a b c : Word} {e : Status} (h : validate a b c = some e) :
    latchUnit e = some .enc := by
  rcases validate_codes h with rfl | rfl | rfl <;> rfl

/-! ### The state and the latch of a unit in one step -/

/-- The step performs the operation a word decodes to (spec/30_encoding.md R80, R82). -/
theorem step_of_decode_ok {s : State} {w : OpWord} {rest : List HostInput} {i : Instr}
    (hp : s.pending = .word w :: rest) (hd : decode w = .ok i) :
    step s = exec i { s with pending := rest } := by
  simp only [step, fetch_cons hp, hd]

/-- What a step from `s` to `t` does to `ENC_ST` and `ENC_ERR` (spec/10_state.md R22,
spec/60_exceptions.md R214). -/
inductive EncMove (s t : State) : Prop where
  | keep (hst : t.enc.st = s.enc.st) (herr : t.enc.err = s.enc.err)
  | reset {rest : List HostInput} (hp : s.pending = .reset :: rest) (ht : t.enc.st = .idle)
  | start {w : OpWord} {rest : List HostInput} {a b c : Word} (hp : s.pending = .word w :: rest)
      (hd : decode w = .ok (.estart a b c)) (ht : t.enc.st = .active)
  | close (hs : s.enc.st = .active) (ht : t.enc.st = .idle)
  | fail {w : OpWord} {rest : List HostInput} {a b c : Word} (hp : s.pending = .word w :: rest)
      (hd : decode w = .ok (.estart a b c)) (hv : validate a b c = some t.enc.err)
      (ht : t.enc.st = .failed) (hdec : t.dec = s.dec)

/-- What a step from `s` to `t` does to `DEC_ST` and `DEC_ERR` (spec/10_state.md R31,
spec/60_exceptions.md R214). -/
inductive DecMove (s t : State) : Prop where
  | keep (hst : t.dec.st = s.dec.st) (herr : t.dec.err = s.dec.err)
  | reset {rest : List HostInput} (hp : s.pending = .reset :: rest) (ht : t.dec.st = .idle)
  | start {w : OpWord} {rest : List HostInput} (hp : s.pending = .word w :: rest)
      (hd : decode w = .ok .dstart) (ht : t.dec.st = .inPhase .version)
  | advance {p : Phase} (hs : s.dec.st = .inPhase p) (ht : t.dec.st ≠ .failed)
  | fail {p : Phase} (hs : s.dec.st = .inPhase p) (ht : t.dec.st = .failed)
      (hu : latchUnit t.dec.err = some .dec) (henc : t.enc = s.enc)

/-- Only ESTART, EEND and reset move `ENC_ST`. -/
theorem step_encMove {s t : State} (h : step s = .next t) : EncMove s t := by
  rcases step_cases h with ⟨-, ho⟩ | ⟨rest, hp, ho⟩ | ⟨w, rest, i, hp, hd, ho⟩ |
    ⟨w, rest, ⟨op⟩, hp, hd, ho⟩
  case inr.inr.inl =>
    cases exec_effect ho.symm
    case estartOpened => exact .start hp hd rfl
    case estartRefused hv hc => exact .fail hp hd hv rfl rfl
    case eend hs => exact .close hs rfl
    all_goals exact .keep rfl rfl
  all_goals cases ho
  · exact .keep rfl rfl
  · exact .reset hp rfl
  · exact .keep rfl rfl

/-- Only DSTART, DSYM, DEND and reset move `DEC_ST`, and DSYM and DEND only inside a transaction. -/
theorem step_decMove {s t : State} (h : step s = .next t) : DecMove s t := by
  rcases step_cases h with ⟨-, ho⟩ | ⟨rest, hp, ho⟩ | ⟨w, rest, i, hp, hd, ho⟩ |
    ⟨w, rest, ⟨op⟩, hp, hd, ho⟩
  case inr.inr.inl =>
    cases exec_effect ho.symm
    case dstart => exact .start hp hd rfl
    case dsymInvalid | dsymVersionBad | dendUnterminated | dendTruncated =>
      exact .fail (by assumption) rfl rfl rfl
    case dsymVersion | dsymHeader | dsymLat | dsymLngThree | dsymLngTwo | dsymZ | dendComplete =>
      exact .advance (by assumption) nofun
    all_goals exact .keep rfl rfl
  all_goals cases ho
  · exact .keep rfl rfl
  · exact .reset hp rfl
  · exact .keep rfl rfl

/-! ### Entering and leaving FAILED -/

section FailedUnits

variable {s t : State} (h : step s = .next t)
include h

/-- ENC leaves FAILED by reset or an accepted ESTART (spec/60_exceptions.md R214). -/
theorem step_enc_leaves_failed (hs : s.enc.st = .failed) (ht : t.enc.st ≠ .failed) :
    (∃ rest, s.pending = .reset :: rest ∧ t.enc.st = .idle) ∨
    ∃ w rest a b c, s.pending = .word w :: rest ∧ decode w = .ok (.estart a b c) ∧
      t.enc.st = .active := by
  cases step_encMove h with
  | keep hst => exact absurd (hst.trans hs) ht
  | reset hp hidle => exact .inl ⟨_, hp, hidle⟩
  | start hp hd hactive => exact .inr ⟨_, _, _, _, _, hp, hd, hactive⟩
  | close hactive => cases hs.symm.trans hactive
  | fail _ _ _ hfailed => exact absurd hfailed ht

/-- In FAILED only a refused ESTART replaces the code of ENC (spec/60_exceptions.md R214). -/
theorem step_enc_keeps_code (hs : s.enc.st = .failed) (ht : t.enc.st = .failed) :
    t.enc.err = s.enc.err ∨
    ∃ w rest a b c, s.pending = .word w :: rest ∧ decode w = .ok (.estart a b c) ∧
      validate a b c = some t.enc.err := by
  cases step_encMove h with
  | keep _ herr => exact .inl herr
  | reset _ hidle => cases ht.symm.trans hidle
  | start _ _ hactive => cases ht.symm.trans hactive
  | close hactive => cases hs.symm.trans hactive
  | fail hp hd hv => exact .inr ⟨_, _, _, _, _, hp, hd, hv⟩

/-- ENC fails alone, with a code of its own (spec/60_exceptions.md R214). -/
theorem step_enc_fails (hs : s.enc.st ≠ .failed) (ht : t.enc.st = .failed) :
    t.dec = s.dec ∧ t.enc.err ∉ [Status.illegalOp, .badSequence, .badRegister] := by
  cases step_encMove h with
  | keep hst => exact absurd (hst.symm.trans ht) hs
  | reset _ hidle => cases ht.symm.trans hidle
  | start _ _ hactive => cases ht.symm.trans hactive
  | close _ hidle => cases ht.symm.trans hidle
  | fail _ _ hv _ hdec =>
    exact ⟨hdec, not_mem_protocol_of_latchUnit (latchUnit_of_validate hv)⟩

/-- DEC leaves FAILED by reset or DSTART (spec/60_exceptions.md R214). -/
theorem step_dec_leaves_failed (hs : s.dec.st = .failed) (ht : t.dec.st ≠ .failed) :
    (∃ rest, s.pending = .reset :: rest ∧ t.dec.st = .idle) ∨
    ∃ w rest, s.pending = .word w :: rest ∧ decode w = .ok .dstart ∧
      t.dec.st = .inPhase .version := by
  cases step_decMove h with
  | keep hst => exact absurd (hst.trans hs) ht
  | reset hp hidle => exact .inl ⟨_, hp, hidle⟩
  | start hp hd hversion => exact .inr ⟨_, _, hp, hd, hversion⟩
  | advance hopen => cases hs.symm.trans hopen
  | fail hopen => cases hs.symm.trans hopen

/-- In FAILED the code of DEC stays (spec/60_exceptions.md R214). -/
theorem step_dec_keeps_code (hs : s.dec.st = .failed) (ht : t.dec.st = .failed) :
    t.dec.err = s.dec.err := by
  cases step_decMove h with
  | keep _ herr => exact herr
  | reset _ hidle => cases ht.symm.trans hidle
  | start _ _ hversion => cases ht.symm.trans hversion
  | advance hopen => cases hs.symm.trans hopen
  | fail hopen => cases hs.symm.trans hopen

/-- DEC fails alone, with a code of its own (spec/60_exceptions.md R214). -/
theorem step_dec_fails (hs : s.dec.st ≠ .failed) (ht : t.dec.st = .failed) :
    t.enc = s.enc ∧ t.dec.err ∉ [Status.illegalOp, .badSequence, .badRegister] := by
  cases step_decMove h with
  | keep hst => exact absurd (hst.symm.trans ht) hs
  | reset _ hidle => cases ht.symm.trans hidle
  | start _ _ hversion => cases ht.symm.trans hversion
  | advance _ hother => exact absurd ht hother
  | fail _ _ hu henc => exact ⟨henc, not_mem_protocol_of_latchUnit hu⟩

end FailedUnits

/-- A refused ESTART leaves ENC in FAILED with the new code, whatever its state was
(spec/60_exceptions.md R214). -/
theorem step_estart_refused {s t : State} {w : OpWord} {rest : List HostInput} {a b c : Word}
    {e : Status} (h : step s = .next t) (hp : s.pending = .word w :: rest)
    (hd : decode w = .ok (.estart a b c)) (hv : validate a b c = some e) :
    t.enc.st = .failed ∧ t.enc.err = e := by
  rw [step_of_decode_ok hp hd, exec_estart_refused hv] at h
  cases h
  exact ⟨rfl, rfl⟩

/-! ### The statements -/

/-- Settles O39, by the unit whose data operation is performed. -/
theorem closedUnitsReplayOrRefuse : Obligations.ClosedUnitsReplayOrRefuse := by
  intro s i hdata
  by_cases henc : i.mnemonic ∈ [Mnemonic.epoint, .eend]
  · have hi := mnemonic_mem_encData_iff.1 henc
    simp only [if_pos henc, beq_iff_eq]
    exact ⟨exec_of_enc_failed hi, exec_of_enc_idle hi⟩
  · have hdec : i.mnemonic ∈ [Mnemonic.dsym, .dend] :=
      (List.mem_append (s := [Mnemonic.epoint, .eend]).1 hdata).resolve_left henc
    have hi := mnemonic_mem_decData_iff.1 hdec
    simp only [if_neg henc, beq_iff_eq]
    exact ⟨exec_of_dec_failed hi, exec_of_dec_idle hi⟩

/-- Settles O40: the answer to a rejected word is a response alone, and the cases of `Effect` whose
response is not OK are the ones listed. -/
theorem errorsArePrecise : Obligations.ErrorsArePrecise := by
  refine ⟨fun s w rest e hp hd => ?rejected, fun i s t r he hr hne => ?performed⟩
  case rejected =>
    obtain ⟨op⟩ := e
    exact ⟨errorResponse .illegalOp (zext64 op) 0, rfl, step_of_decode_error hp hd⟩
  case performed =>
    cases exec_effect he <;> cases hr
    case encIdle | decIdle => exact .inl ⟨rfl, .inl rfl⟩
    case rdregBad => exact .inl ⟨rfl, .inr (.inl rfl)⟩
    case encFailed hi hs =>
      exact .inl ⟨rfl, .inr (.inr (.inl ⟨mnemonic_mem_encData_iff.2 hi, hs, rfl⟩))⟩
    case decFailed hi hs =>
      exact .inl ⟨rfl, .inr (.inr (.inr ⟨mnemonic_mem_decData_iff.2 hi, hs, rfl⟩))⟩
    case estartRefused a b c e _ hc =>
      have hcode : e ∈ [Status.invalidPrecision, .invalidKind, .reservedKind] := by simpa using hc
      exact .inr (.inl ⟨⟨a, b, c, rfl⟩, hcode, rfl⟩)
    case dsymVersionBad a q hl _ _ _ => exact .inr (.inr (.inl ⟨a, q, rfl, hl, rfl, rfl⟩))
    case dsymInvalid a _ _ _ => exact .inr (.inr (.inr (.inl ⟨a, rfl, rfl, rfl⟩)))
    case dendUnterminated | dendTruncated =>
      exact .inr (.inr (.inr (.inr ⟨rfl, by decide, rfl⟩)))
    all_goals exact absurd rfl hne

/-- Settles O41: each clause is one of the rules for entering and leaving FAILED. -/
theorem failedIsLeftOnlyByStartOrReset : Obligations.FailedIsLeftOnlyByStartOrReset := fun _ _ h =>
  ⟨step_enc_leaves_failed h, step_dec_leaves_failed h, step_enc_keeps_code h,
    fun _ _ _ _ _ _ hp hd hv => step_estart_refused h hp hd hv, step_dec_keeps_code h,
    step_enc_fails h, step_dec_fails h⟩

end Sys2Proof.Machine

/-! ## Encoding and decoding operation words (spec/30_encoding.md R80, R81, R82, R88)

An operation is a mnemonic with the three operand fields, of which its format reads some: `encode`
packs them with 0 in the others, and `decode` reads them back. -/

namespace Sys2Proof

/-- A packed word of a mnemonic decodes to the operation built from its operands
(spec/30_encoding.md R80, R82). -/
theorem decode_packWord (m : Mnemonic) (a b c : Word) :
    decode (packWord m.opcode a b c) = .ok (buildInstr a b c m) := by
  rw [decode_of_opcodeField (opcodeField_packWord m.opcode a b c), fieldA_packWord, fieldB_packWord,
    fieldC_packWord]

/-- A decoded word has the opcode of a mnemonic, and is the operation its fields build. -/
theorem eq_buildInstr_of_decode {w : OpWord} {i : Instr} (h : decode w = .ok i) :
    ∃ m : Mnemonic, opcodeField w = m.opcode ∧
      i = buildInstr (fieldA w) (fieldB w) (fieldC w) m := by
  unfold decode at h
  split at h
  case h_1 m hm => exact ⟨m, (opcode_of_mnemonicOfOpcode hm).symm, (Except.ok.inj h).symm⟩
  case h_2 => cases h

/-- Encoding what was built from three operands packs those the format reads, and 0 in the others
(spec/30_encoding.md R88). -/
theorem encode_buildInstr (a b c : Word) (m : Mnemonic) :
    encode (buildInstr a b c m) =
      match m.format with
      | .abc => packWord m.opcode a b c
      | .a => packWord m.opcode a 0 0
      | .n => packWord m.opcode 0 0 0 := by
  cases m <;> rfl

/-- A packed word is determined by its fields (spec/30_encoding.md R80). -/
theorem packWord_inj {op : BitVec 8} {a b c a' b' c' : Word} :
    packWord op a b c = packWord op a' b' c' ↔ a = a' ∧ b = b' ∧ c = c' := by
  constructor
  · intro h
    have ha := congrArg fieldA h
    have hb := congrArg fieldB h
    have hc := congrArg fieldC h
    rw [fieldA_packWord, fieldA_packWord] at ha
    rw [fieldB_packWord, fieldB_packWord] at hb
    rw [fieldC_packWord, fieldC_packWord] at hc
    exact ⟨ha, hb, hc⟩
  · rintro ⟨rfl, rfl, rfl⟩
    rfl

/-- Encoding a built operation packs the same fields exactly when the packed word is canonical. -/
theorem encode_buildInstr_eq_iff (a b c : Word) (m : Mnemonic) :
    encode (buildInstr a b c m) = packWord m.opcode a b c ↔
      canonicalWord (packWord m.opcode a b c) = true := by
  rw [encode_buildInstr, canonicalWord_packWord]
  cases m.format
  case abc => simp
  case a =>
    simp only [packWord_inj, Bool.and_eq_true, beq_iff_eq]
    tauto
  case n =>
    simp only [packWord_inj, Bool.and_eq_true, beq_iff_eq]
    tauto

/-! ### The statements -/

/-- Settles O1: an encoded operation is a packed word of its mnemonic, by the constructors. -/
theorem decodeOfEncodeIsIdentity : Obligations.DecodeOfEncodeIsIdentity := by
  intro i
  cases i
  case zze a => exact decode_packWord .zze a 0 0
  case zzd a => exact decode_packWord .zzd a 0 0
  case uenc a => exact decode_packWord .uenc a 0 0
  case estart a b c => exact decode_packWord .estart a b c
  case epoint a b c => exact decode_packWord .epoint a b c
  case eend => exact decode_packWord .eend 0 0 0
  case dstart => exact decode_packWord .dstart 0 0 0
  case dsym a => exact decode_packWord .dsym a 0 0
  case dend => exact decode_packWord .dend 0 0 0
  case rdreg a => exact decode_packWord .rdreg a 0 0

/-- Settles O2: a word is its fields packed, so re-encoding compares the fields the format skips
with 0. -/
theorem encodeOfDecodeIsIdentityOnCanonicalWords :
    Obligations.EncodeOfDecodeIsIdentityOnCanonicalWords := by
  intro w i h
  obtain ⟨m, hop, rfl⟩ := eq_buildInstr_of_decode h
  have hw := packWord_fields w
  rw [hop] at hw
  have hiff := encode_buildInstr_eq_iff (fieldA w) (fieldB w) (fieldC w) m
  rwa [hw] at hiff

/-- Settles O4: the words are numbers, and so are their opcode and fields. -/
theorem listedWordsDecode : Obligations.ListedWordsDecode := by
  unfold Obligations.ListedWordsDecode
  decide

end Sys2Proof

/-! ## Steps and runs of the machine (spec/00_scope.md R9, spec/20_memory.md R70)

One step takes one input of the host, and an operation sees nothing of the others: a run over
encoded operations is the fold of the operations. -/

namespace Sys2Proof.Machine

/-- With no input the block waits (spec/70_reset_and_hazards.md R233; log 2). -/
theorem step_of_pending_nil {s : State} (h : s.pending = []) : step s = .next s := by
  simp only [step, fetch_nil h]

/-- A reset event resets the registers and is taken (spec/70_reset_and_hazards.md R230). -/
theorem step_of_reset {s : State} {rest : List HostInput} (h : s.pending = .reset :: rest) :
    step s = .next (applyReset { s with pending := rest }) := by
  simp only [step, fetch_cons h]

/-- The word of an operation is performed as that operation on the state the host leaves. -/
theorem step_encode {i : Instr} {s t : State} (h : exec i s = .next t) (rest : List HostInput) :
    step { s with pending := .word (encode i) :: rest } = .next { t with pending := rest } := by
  rw [step_of_decode_ok rfl (decodeOfEncodeIsIdentity i)]
  exact exec_ports h rest s.resp

/-- The machine runs the words of a list of operations as the fold of the operations
(spec/20_memory.md R70). -/
theorem run_encoded {is : List Instr} {s u : State} {rs : List Response}
    (h : runOps is s = some (rs, u)) :
    u.pending = s.pending ∧
    Host.Core.run Sys2Proof.core is.length
      { s with pending := is.map (fun i => .word (encode i)) } =
        .next { u with pending := [] } := by
  induction is generalizing s rs with
  | nil => cases h; exact ⟨rfl, rfl⟩
  | cons i is ih =>
    obtain ⟨r, t, rs', hp, ht, rfl⟩ := runOps_cons_eq_some.1 h
    obtain ⟨r', t', hp', he, -, hpending⟩ := perform_answers i s
    obtain ⟨rfl, rfl⟩ : r' = r ∧ t' = t := by simpa using hp'.symm.trans hp
    obtain ⟨hu, hrun⟩ := ih ht
    exact ⟨hu.trans hpending, (run_of_step (step_encode he _) _).trans hrun⟩

/-! ### The statements -/

/-- Settles O5, by the inputs pending. -/
theorem stepRunsDecodedOperation : Obligations.StepRunsDecodedOperation := fun _ =>
  ⟨step_of_pending_nil, fun _ _ _ hp hd => step_of_decode_ok hp hd⟩

/-- Settles O8: a run of the fold exists, has one response per operation, and is the machine's. -/
theorem runIsFoldOfOperations : Obligations.RunIsFoldOfOperations := by
  intro is s
  obtain ⟨rs, u, h⟩ := runOps_answers is s
  obtain ⟨hpending, hrun⟩ := run_encoded h
  exact ⟨rs, u, h, runOps_length h, hpending, hrun⟩

/-- Settles O9: a reset event is `applyReset`, whatever the registers hold. -/
theorem resetEventResetsEveryRegister : Obligations.ResetEventResetsEveryRegister :=
  fun _ _ h => ⟨_, step_of_reset h, rfl, rfl, rfl, rfl⟩

end Sys2Proof.Machine

/-! ## DSYM in an open transaction (spec/43_point_stream.md R160, spec/40_varint.md R105, R106)

The quantity of the code point decides: none is `InvalidSymbol`, one with the continuation bit
extends the varint in progress, a terminator ends it in the phase at hand. Where the payload lands
is a fact about one bit of `assembled`. -/

namespace Sys2Proof.Machine

/-! ### Payload placement -/

/-- One bit of the value with the payload placed at `DEC_SHIFT` (spec/40_varint.md R106). -/
theorem getLsbD_assembled (d : DecRegs) (q : Quantity) {j : Nat} (hj : j < 64) :
    (assembled d q).getLsbD j = (d.vacc.getLsbD j ||
      (decide (d.shift.toNat ≤ j) && (decide (j - d.shift.toNat < 5) &&
        q.getLsbD (j - d.shift.toNat)))) := by
  rw [assembled, BitVec.getLsbD_or, BitVec.getLsbD_ofNat, decide_eq_true hj, Bool.true_and,
    Nat.testBit_mul_two_pow, show 32 = 2 ^ 5 from rfl, Nat.testBit_mod_two_pow]
  rfl

/-- Bits below `DEC_SHIFT` keep their values. -/
theorem getLsbD_assembled_of_lt {d : DecRegs} (q : Quantity) {j : Nat} (hj : j < d.shift.toNat) :
    (assembled d q).getLsbD j = d.vacc.getLsbD j := by
  by_cases h64 : j < 64
  · rw [getLsbD_assembled d q h64, decide_eq_false (by omega), Bool.false_and, Bool.or_false]
  · rw [BitVec.getLsbD_of_ge _ _ (by omega), BitVec.getLsbD_of_ge _ _ (by omega)]

/-- Payload bit `j` goes to the bit `j` above `DEC_SHIFT`, when there is one. -/
theorem getLsbD_assembled_add {d : DecRegs} (q : Quantity) {j : Nat} (hj : j < 5)
    (hfit : d.shift.toNat + j < 64) :
    (assembled d q).getLsbD (d.shift.toNat + j) =
      (d.vacc.getLsbD (d.shift.toNat + j) || q.getLsbD j) := by
  rw [getLsbD_assembled d q hfit, Nat.add_sub_cancel_left, decide_eq_true (Nat.le_add_right _ _),
    decide_eq_true hj, Bool.true_and, Bool.true_and]

/-- From 64 on no bit of the value is left to place the payload in. -/
theorem assembled_of_shift_ge {d : DecRegs} (q : Quantity) (h : 64 ≤ d.shift.toNat) :
    assembled d q = d.vacc :=
  BitVec.eq_of_getLsbD_eq fun _ hj => getLsbD_assembled_of_lt q (Nat.lt_of_lt_of_le hj h)

/-- A payload stays below the weight of the bit above it. -/
theorem payload_mul_lt (q : Quantity) {shift n : Nat} (h : shift + 5 ≤ n) :
    q.toNat % 32 * 2 ^ shift < 2 ^ n := calc
  q.toNat % 32 * 2 ^ shift < 2 ^ 5 * 2 ^ shift :=
    Nat.mul_lt_mul_of_pos_right (Nat.mod_lt _ (by decide)) (Nat.two_pow_pos shift)
  _ = 2 ^ (shift + 5) := by rw [Nat.pow_add, Nat.mul_comm]
  _ ≤ 2 ^ n := Nat.pow_le_pow_right (by decide) h

/-- A symbol whose payload stays below bit 64 drops nothing. -/
theorem flagsAfter_of_lt {d : DecRegs} {q : Quantity}
    (h : q.toNat % 32 * 2 ^ d.shift.toNat < 2 ^ 64) : flagsAfter d q = d.flags :=
  if_neg (Nat.not_le.2 h)

/-- With `DEC_SHIFT` at 60 what is dropped is payload bit 4. -/
theorem dropped_at_60 (q : Quantity) : decide (2 ^ 64 ≤ q.toNat % 32 * 2 ^ 60) = q.getLsbD 4 := by
  revert q; decide

/-- From 64 on the whole payload is dropped. -/
theorem dropped_of_shift_ge {q : Quantity} {shift : Nat} (h : 64 ≤ shift) :
    2 ^ 64 ≤ q.toNat % 32 * 2 ^ shift ↔ q.toNat % 32 ≠ 0 := by
  constructor
  · intro hdrop hzero
    rw [hzero, Nat.zero_mul] at hdrop
    exact absurd hdrop (by decide)
  · intro hne
    calc 2 ^ 64 ≤ 2 ^ shift := Nat.pow_le_pow_right (by decide) h
      _ ≤ q.toNat % 32 * 2 ^ shift := Nat.le_mul_of_pos_left _ (Nat.pos_of_ne_zero hne)

/-- `DEC_SHIFT` holds its next value in 7 bits (spec/10_state.md R37). -/
theorem nextShift_toNat (n : Nat) : (BitVec.ofNat 7 (min (n + 5) 65)).toNat = min (n + 5) 65 := by
  rw [BitVec.toNat_ofNat]
  omega

/-- After a continuing symbol a varint is in progress (spec/10_state.md R37). -/
theorem nextShift_ne_zero (n : Nat) : BitVec.ofNat 7 (min (n + 5) 65) ≠ 0 := by
  intro hzero
  have hnat := congrArg BitVec.toNat hzero
  rw [nextShift_toNat] at hnat
  have hpos : min (n + 5) 65 ≠ 0 := by omega
  exact hpos hnat

/-! ### A symbol of the varint in progress -/

/-- A code point outside the alphabet is no symbol (spec/40_varint.md R105). -/
theorem vstep_invalid {c : Word} (hl : lookup c = none) (d : DecRegs) : vstep c d = .invalid := by
  rcases vstep_cases c d with ⟨-, hv⟩ | ⟨q, hl', -⟩ | ⟨q, hl', -⟩
  · exact hv
  · cases hl.symm.trans hl'
  · cases hl.symm.trans hl'

/-- A symbol with the continuation bit extends the varint in progress (spec/40_varint.md R105). -/
theorem vstep_continuing {c : Word} {q : Quantity} (hl : lookup c = some q) (hq : 32 ≤ q.toNat)
    (d : DecRegs) : vstep c d = .continues { d with
      pos := d.pos + 1, vacc := assembled d q, flags := flagsAfter d q
      shift := BitVec.ofNat 7 (min (d.shift.toNat + 5) 65) } := by
  rcases vstep_cases c d with ⟨hnone, -⟩ | ⟨q', hl', -, hv⟩ | ⟨q', hl', hq', -⟩
  · cases hl.symm.trans hnone
  · cases hl.symm.trans hl'
    exact hv
  · cases hl.symm.trans hl'
    omega

/-- DSYM on no symbol fails DEC with the code point and its index (spec/43_point_stream.md R160). -/
theorem exec_dsym_invalid {a : Word} {p : Phase} {s : State} (hs : s.dec.st = .inPhase p)
    (hl : lookup a = none) : exec (.dsym a) s = .next { s with
      dec := { s.dec with st := .failed, err := .invalidSymbol }
      resp := some (errorResponse .invalidSymbol a s.dec.pos) } := by
  simp only [exec, execDsym, hs, vstep_invalid hl, raise_dec (e := .invalidSymbol) rfl]

/-- DSYM on a continuing symbol, in every phase (spec/43_point_stream.md R160). -/
theorem exec_dsym_continuing {a : Word} {q : Quantity} {p : Phase} {s : State}
    (hs : s.dec.st = .inPhase p) (hl : lookup a = some q) (hq : 32 ≤ q.toNat) :
    exec (.dsym a) s = .next { s with
      dec := { s.dec with
        pos := s.dec.pos + 1, vacc := assembled s.dec q, flags := flagsAfter s.dec q
        shift := BitVec.ofNat 7 (min (s.dec.shift.toNat + 5) 65) }
      resp := some okResponse } := by
  simp only [exec, execDsym, hs, vstep_continuing hl hq, respond]

/-! ### The end of a varint, by phase -/

/-- The header varint gives the three fields (spec/43_point_stream.md R160, phase HEADER). -/
theorem finishVarint_header (v : Word) (s : State) : finishVarint .header v s = { s with
    dec := { s.dec with
      p2 := (unpackHeader v).p2, kind := (unpackHeader v).kind, p3 := (unpackHeader v).p3
      flags := setHV s.dec.flags, st := .inPhase .lat }
    resp := some (headerResponse (unpackHeader v)) } := rfl

/-- A latitude opens phase LNG (spec/43_point_stream.md R160, phase LAT). -/
theorem finishVarint_lat (v : Word) (s : State) : finishVarint .lat v s = { s with
    dec := { s.dec with lat := s.dec.lat + zigzagDecode v, st := .inPhase .lng }
    resp := some okResponse } := rfl

/-- A longitude with a third axis to come opens phase Z (spec/43_point_stream.md R160, phase LNG).
-/
theorem finishVarint_lng_three {s : State} (hk : s.dec.kind ≠ 0) (v : Word) :
    finishVarint .lng v s = { s with
      dec := { s.dec with lng := s.dec.lng + zigzagDecode v, st := .inPhase .z }
      resp := some okResponse } := by
  have hpresent : s.dec.kind ≠ Config.kindAbsent := hk
  simp only [finishVarint, if_pos hpresent, respond]

/-- A longitude without a third axis ends the point (spec/43_point_stream.md R160, phase LNG). -/
theorem finishVarint_lng_two {s : State} (hk : s.dec.kind = 0) (v : Word) :
    finishVarint .lng v s = { s with
      dec := { s.dec with
        lng := s.dec.lng + zigzagDecode v, npts := s.dec.npts + 1, st := .inPhase .lat }
      resp := some (pointResponse s.dec.lat (s.dec.lng + zigzagDecode v) s.dec.z) } := by
  have habsent : ¬ s.dec.kind ≠ Config.kindAbsent := not_not_intro hk
  simp only [finishVarint, if_neg habsent, respond]

/-- The third axis ends the point (spec/43_point_stream.md R160, phase Z). -/
theorem finishVarint_z (v : Word) (s : State) : finishVarint .z v s = { s with
    dec := { s.dec with
      z := s.dec.z + zigzagDecode v, npts := s.dec.npts + 1, st := .inPhase .lat }
    resp := some (pointResponse s.dec.lat s.dec.lng (s.dec.z + zigzagDecode v)) } := rfl

/-- The header fields as numbers (spec/42_header.md R132). -/
theorem unpackHeader_eq_ofNat (h : Word) : unpackHeader h =
    { p2 := BitVec.ofNat 4 h.toNat, kind := BitVec.ofNat 3 (h.toNat / 16)
      p3 := BitVec.ofNat 64 (h.toNat / 128) } := by
  have hp2 : (unpackHeader h).p2 = BitVec.ofNat 4 h.toNat :=
    BitVec.eq_of_toNat_eq (unpackHeader_p2_toNat h)
  have hkind : (unpackHeader h).kind = BitVec.ofNat 3 (h.toNat / 16) :=
    BitVec.eq_of_toNat_eq (unpackHeader_kind_toNat h)
  have hp3 : (unpackHeader h).p3 = BitVec.ofNat 64 (h.toNat / 128) := by
    rw [← unpackHeader_p3_toNat, BitVec.ofNat_toNat, BitVec.setWidth_eq]
  rw [← hp2, ← hkind, ← hp3]

/-- What the HEADER event carries, as numbers (spec/30_encoding.md R84). -/
theorem headerResponse_unpackHeader (h : Word) : headerResponse (unpackHeader h) =
    ⟨.ok, .header, [], BitVec.ofNat 64 (h.toNat % 16), BitVec.ofNat 64 (h.toNat / 16 % 8),
      BitVec.ofNat 64 (h.toNat / 128)⟩ := by
  rw [headerResponse, zext64_eq_ofNat, zext64_eq_ofNat, unpackHeader_p2_toNat,
    unpackHeader_kind_toNat, unpackHeader_eq_ofNat]
  rfl

/-! ### The statements -/

/-- Settles O31, by the state of DEC. -/
theorem dsymRefusals : Obligations.DsymRefusals := fun a _ =>
  ⟨exec_of_dec_idle (.inl ⟨a, rfl⟩), exec_of_dec_failed (.inl ⟨a, rfl⟩),
    fun _ hs hl => exec_dsym_invalid hs hl⟩

/-- Settles O32: DSYM on a continuing symbol, with the saturation of `DEC_SHIFT` as a case. -/
theorem dsymContinuesVarint : Obligations.DsymContinuesVarint := by
  intro a q p s hs hl hq
  have hshift : min (s.dec.shift.toNat + 5) 65 =
      if 65 ≤ s.dec.shift.toNat + 5 then 65 else s.dec.shift.toNat + 5 := by
    split <;> omega
  rw [exec_dsym_continuing hs hl hq, hshift]
  rfl

/-- Settles O33, bit by bit: which payload bits have a bit of the value above `DEC_SHIFT`. -/
theorem oversizedVarintBitsAreDropped : Obligations.OversizedVarintBitsAreDropped := by
  intro d q
  refine ⟨fun hfit => ⟨flagsAfter_of_lt (payload_mul_lt q hfit), fun j hj =>
      getLsbD_assembled_add q hj (by omega)⟩, fun h60 => ⟨fun j hj => ?placed, ?bit4⟩,
    fun h64 => ⟨assembled_of_shift_ge q h64, ?all⟩, fun j hj => getLsbD_assembled_of_lt q hj,
    flagHV_flagsAfter d q⟩
  case placed =>
    rw [← h60]
    exact getLsbD_assembled_add q (by omega) (by omega)
  case bit4 => rw [flagOVF_flagsAfter, h60, dropped_at_60]
  case all => rw [flagOVF_flagsAfter, decide_eq_decide.2 (dropped_of_shift_ge h64)]

/-- Settles O35: the terminator ends the header varint, whose fields are numbers of its value. -/
theorem dsymFinishesHeader : Obligations.DsymFinishesHeader := by
  intro a q s hs hl hq h
  rw [exec_dsym_terminator hs hl hq, finishVarint_header, headerResponse_unpackHeader,
    unpackHeader_eq_ofNat]
  rfl

/-- Settles O36: the terminator ends a delta varint, by the phase and whether there is a third
axis. -/
theorem dsymFinishesDelta : Obligations.DsymFinishesDelta := by
  intro a q s hl hq d delta
  have terminator {p : Phase} (hs : s.dec.st = .inPhase p) := exec_dsym_terminator hs hl hq
  refine ⟨fun hs => ?lat, fun hs hk => ?lngThree, fun hs hk => ?lngTwo, fun hs => ?z⟩
  case lat => rw [terminator hs, finishVarint_lat]; rfl
  case lngThree => rw [terminator hs, finishVarint_lng_three (s := { s with dec := d }) hk]; rfl
  case lngTwo => rw [terminator hs, finishVarint_lng_two (s := { s with dec := d }) hk]; rfl
  case z => rw [terminator hs, finishVarint_z]; rfl

end Sys2Proof.Machine

/-! ## The zigzag laws and the header's round trip (spec/41_zigzag.md, spec/42_header.md)

The encoder as a number, 2v or -2v - 1, makes it injective, and so a bijection on the finite set of
words. The decoder gives v back up to the sign that the arithmetic shift makes of bit 63 of the
encoding. -/

namespace Sys2Proof.Machine

/-! ### The encoder as a number -/

/-- A word as a signed number stays within 2^63 (spec/00_scope.md R6). -/
theorem toInt_bounds (v : Word) : -(2 ^ 63 : Int) ≤ v.toInt ∧ v.toInt < (2 ^ 63 : Int) :=
  ⟨BitVec.le_toInt v, BitVec.toInt_lt⟩

/-- A number below 2^64 is the number of its word. -/
theorem toNat_ofInt_of_bounds {z : Int} (h0 : 0 ≤ z) (h1 : z < 2 ^ 64) :
    ((BitVec.ofInt 64 z).toNat : Int) = z := by
  rw [BitVec.toNat_ofInt]
  omega

/-- What the encoder maps v to (spec/41_zigzag.md R121). -/
theorem zigzagEncode_toNat (v : Word) :
    ((zigzagEncode v).toNat : Int) = if 0 ≤ v.toInt then 2 * v.toInt else -2 * v.toInt - 1 := by
  have hv := toInt_bounds v
  split
  case isTrue h => rw [zigzagEncode_of_nonneg h, toNat_ofInt_of_bounds (by omega) (by omega)]
  case isFalse h =>
    rw [zigzagEncode_of_neg (Int.not_le.1 h), toNat_ofInt_of_bounds (by omega) (by omega)]

/-- Different values have different encodings: the parity tells the sign apart. -/
theorem zigzagEncode_injective : Function.Injective zigzagEncode := by
  intro v w h
  have hv := zigzagEncode_toNat v
  have hw := zigzagEncode_toNat w
  rw [h, hw] at hv
  apply BitVec.eq_of_toInt_eq
  split at hv <;> split at hv <;> omega

/-- Bit 0 of the encoding is the sign (spec/41_zigzag.md R121). -/
theorem zigzagEncode_getLsbD_zero (v : Word) : (zigzagEncode v).getLsbD 0 = v.msb := by
  have hv := zigzagEncode_toNat v
  rw [Bool.eq_iff_iff, getLsbD_zero_iff_odd, BitVec.msb_eq_toInt, decide_eq_true_iff]
  split at hv <;> omega

/-- The arithmetic shift by 63 spreads the sign over the word. -/
theorem sshiftRight_63 (v : Word) :
    v.sshiftRight 63 = if v.getLsbD 63 then BitVec.allOnes 64 else 0 := by
  apply BitVec.eq_of_getLsbD_eq
  intro i hi
  have hsign : (if 63 + i < 64 then v.getLsbD (63 + i) else v.msb) = v.getLsbD 63 := by
    split
    · rw [show 63 + i = 63 by omega]
    · exact BitVec.msb_eq_getLsbD_last v
  rw [BitVec.getLsbD_sshiftRight, hsign, decide_eq_false (by omega)]
  cases v.getLsbD 63
  · simp
  · rw [if_pos rfl, BitVec.getLsbD_allOnes, decide_eq_true hi]
    rfl

/-- The encoder without a branch (spec/41_zigzag.md R121). -/
theorem zigzagEncode_eq_xor (v : Word) : zigzagEncode v = (v <<< 1) ^^^ v.sshiftRight 63 := by
  rw [zigzagEncode, sshiftRight_63]
  split
  · rw [BitVec.xor_allOnes]
  · exact BitVec.xor_zero.symm

/-! ### The decoder after the encoder, and the encoder after the decoder -/

/-- Inverting bit 63 is adding 2^63 modulo 2^64. -/
theorem xor_bit63 (v : Word) : v ^^^ BitVec.ofNat 64 (2 ^ 63) = v + BitVec.ofNat 64 (2 ^ 63) := by
  apply BitVec.eq_of_toNat_eq
  have hlow : (v.toNat ^^^ 2 ^ 63) % 2 ^ 63 = v.toNat % 2 ^ 63 := by
    rw [Nat.xor_mod_two_pow, Nat.mod_self, Nat.xor_zero]
  have htop : (v.toNat ^^^ 2 ^ 63) / 2 ^ 63 = 1 - v.toNat / 2 ^ 63 := by
    rw [Nat.xor_div_two_pow, Nat.div_self (Nat.two_pow_pos 63)]
    have htwo : v.toNat / 2 ^ 63 = 0 ∨ v.toNat / 2 ^ 63 = 1 := by omega
    rcases htwo with h | h <;> rw [h] <;> rfl
  have hbit : (BitVec.ofNat 64 (2 ^ 63)).toNat = 2 ^ 63 := Nat.mod_eq_of_lt (by decide)
  rw [BitVec.toNat_xor, BitVec.toNat_add, hbit]
  omega

/-- Adding or subtracting 2^63 to the signed value inverts bit 63. -/
theorem ofInt_toInt_add_signed (v : Word) {z : Int} (hz : z = 2 ^ 63 ∨ z = -2 ^ 63) :
    BitVec.ofInt 64 (v.toInt + z) = v + BitVec.ofNat 64 (2 ^ 63) := by
  rw [BitVec.ofInt_add, BitVec.ofInt_toInt]
  rcases hz with rfl | rfl <;> rfl

/-- Decoding an encoded value gives what `recoveredDelta` says: the value itself, or off by 2^63
(spec/41_zigzag.md R123). -/
theorem zigzagDecode_zigzagEncode (v : Word) :
    zigzagDecode (zigzagEncode v) = recoveredDelta v := by
  have hv := toInt_bounds v
  have hu := zigzagEncode_toNat v
  have hsigned := BitVec.toInt_eq_toNat_cond (zigzagEncode v)
  have hself : BitVec.ofInt 64 v.toInt = v := BitVec.ofInt_toInt
  unfold recoveredDelta
  by_cases hneg : 0 ≤ v.toInt
  · rw [if_pos hneg] at hu
    rw [zigzagDecode_of_even (by omega)]
    split
    · rw [show (zigzagEncode v).toInt / 2 = v.toInt by omega, hself]
    · rw [show (zigzagEncode v).toInt / 2 = v.toInt + -2 ^ 63 by omega,
        ofInt_toInt_add_signed v (.inr rfl)]
  · rw [if_neg hneg] at hu
    rw [zigzagDecode_of_odd (by omega)]
    split
    · rw [show (-(zigzagEncode v).toInt - 1) / 2 = v.toInt by omega, hself]
    · rw [show (-(zigzagEncode v).toInt - 1) / 2 = v.toInt + 2 ^ 63 by omega,
        ofInt_toInt_add_signed v (.inl rfl)]

/-- The values whose encoding is below 2^63 (spec/41_zigzag.md R123). -/
theorem zigzagEncode_lt_iff (v : Word) :
    (zigzagEncode v).toNat < 2 ^ 63 ↔ -(2 ^ 62 : Int) ≤ v.toInt ∧ v.toInt < (2 ^ 62 : Int) := by
  have hu := zigzagEncode_toNat v
  split at hu <;> omega

/-- A delta comes back exactly when it is in the decoder's range. -/
theorem recoveredDelta_eq_self_iff (v : Word) :
    recoveredDelta v = v ↔ -(2 ^ 62 : Int) ≤ v.toInt ∧ v.toInt < (2 ^ 62 : Int) := by
  refine ⟨fun h => ?_, fun h => if_pos h⟩
  by_contra hout
  rw [recoveredDelta, if_neg hout] at h
  exact absurd (BitVec.add_right_eq_self.1 h) (by decide)

/-- Encoding a decoded value: every word is the encoding of one value, and is restored exactly when
the decoder gives that value back (spec/41_zigzag.md R123). -/
theorem zigzagEncode_zigzagDecode_iff (u : Word) :
    zigzagEncode (zigzagDecode u) = u ↔ u.toNat < 2 ^ 63 := by
  obtain ⟨v, rfl⟩ := Finite.injective_iff_surjective.1 zigzagEncode_injective u
  rw [zigzagEncode_injective.eq_iff, zigzagDecode_zigzagEncode, recoveredDelta_eq_self_iff,
    zigzagEncode_lt_iff]

/-! ### The statements -/

/-- Settles O22: on a finite type an injective function is a bijection. -/
theorem zigzagEncodeIsBijective : Obligations.ZigzagEncodeIsBijective :=
  ⟨Finite.injective_iff_bijective.1 zigzagEncode_injective, zigzagEncode_toNat,
    zigzagEncode_getLsbD_zero, zigzagEncode_eq_xor⟩

/-- Settles O23: decoding after encoding is `recoveredDelta`, the identity on -2^62 .. 2^62 - 1. -/
theorem zigzagInverseLaw : Obligations.ZigzagInverseLaw := by
  refine ⟨fun v => ?range, fun v => ?below, fun v h => ?inverted, zigzagEncode_zigzagDecode_iff⟩
  case range =>
    rw [zigzagDecode_zigzagEncode, recoveredDelta_eq_self_iff]
    omega
  case below => rw [zigzagDecode_zigzagEncode, recoveredDelta_eq_self_iff, zigzagEncode_lt_iff]
  case inverted =>
    have hout := mt (zigzagEncode_lt_iff v).2 (Nat.not_lt.2 h)
    rw [zigzagDecode_zigzagEncode, recoveredDelta, if_neg hout, xor_bit63]

/-! ### The header -/

/-- Unpacking what was packed (spec/42_header.md R138). -/
theorem unpackHeader_packHeader (p2 : BitVec 4) (k : BitVec 3) (p3 : BitVec 4) :
    unpackHeader (packHeader p2 k p3) =
      { p2 := p2, kind := k, p3 := BitVec.ofNat 64 p3.toNat } := by
  have hp2 := p2.isLt
  have hk := k.isLt
  rw [unpackHeader_eq_ofNat, packHeader_toNat]
  congr 1
  · apply BitVec.eq_of_toNat_eq
    rw [BitVec.toNat_ofNat]
    omega
  · apply BitVec.eq_of_toNat_eq
    rw [BitVec.toNat_ofNat]
    omega
  · congr 1
    omega

/-- Packing unpacked fields, precision3D cut to its four bits, gives the low eleven bits
(spec/42_header.md R138). -/
theorem packHeader_unpackHeader_toNat (h : Word) :
    (packHeader (unpackHeader h).p2 (unpackHeader h).kind
      (BitVec.ofNat 4 (unpackHeader h).p3.toNat)).toNat = h.toNat % 2048 := by
  rw [packHeader_toNat, unpackHeader_p2_toNat, unpackHeader_kind_toNat, BitVec.toNat_ofNat,
    unpackHeader_p3_toNat]
  omega

/-- Settles O25: what repacking loses is what stands above bit 10. -/
theorem headerRoundTrips : Obligations.HeaderRoundTrips := by
  refine ⟨unpackHeader_packHeader, fun h => ⟨?bound, ?repacked⟩⟩
  case bound =>
    rw [unpackHeader_p3_toNat]
    omega
  case repacked =>
    rw [← BitVec.toNat_inj, packHeader_unpackHeader_toNat]
    omega

end Sys2Proof.Machine

/-! ## The varint laws (spec/40_varint.md R101, R109)

A symbol of an encoding is read off the chunk at its position. What the reference decoder reads is a
list of quantities, all continuing but the last, and their payloads are the digits in base 32 of its
value; the encoder gives the same quantities back when the last digit is not 0 and the digits fit 64
bits. -/

namespace Sys2Proof.Machine

/-! ### The symbols of an encoding -/

/-- The quantity of symbol `k` of a value of `n` chunks. -/
def chunkQuantity (x n k : Nat) : Quantity :=
  BitVec.ofNat 6 (x / 2 ^ (5 * k) % 32 + if k + 1 < n then 32 else 0)

theorem chunkSym_eq_alpha (x n k : Nat) : chunkSym x n k = alpha (chunkQuantity x n k) := rfl

theorem chunkQuantity_toNat (x n k : Nat) :
    (chunkQuantity x n k).toNat = x / 2 ^ (5 * k) % 32 + if k + 1 < n then 32 else 0 := by
  rw [chunkQuantity, BitVec.toNat_ofNat]
  split <;> omega

/-- Symbol `k` of an encoding (spec/40_varint.md R100). -/
theorem encodeUnsigned_getElem (v : Word) {k : Nat} (h : k < (encodeUnsigned v).length) :
    (encodeUnsigned v)[k] = alpha (chunkQuantity v.toNat (encodeUnsigned v).length k) := by
  simp only [encodeUnsigned_eq_chunks v, List.getElem_map, List.getElem_range, List.length_map,
    List.length_range, chunkSym_eq_alpha]

/-- The payload of a symbol is the chunk at its position (spec/40_varint.md R101). -/
theorem chunkQuantity_payload (x n k : Nat) :
    (chunkQuantity x n k).toNat % 32 = x / 2 ^ (5 * k) % 32 := by
  rw [chunkQuantity_toNat]
  split <;> omega

/-- All symbols but the last continue (spec/40_varint.md R101). -/
theorem chunkQuantity_getLsbD_five (x n k : Nat) :
    (chunkQuantity x n k).getLsbD 5 = true ↔ k + 1 < n := by
  refine (continues_iff _).trans ?_
  rw [chunkQuantity_toNat]
  split <;> omega

/-- The last chunk of a value other than 0 is not 0 (spec/40_varint.md R101). -/
theorem lastChunk_ne_zero {x : Nat} (h : x ≠ 0) :
    x / 2 ^ (5 * (chunkCount x - 1)) % 32 ≠ 0 := by
  have hpow : 2 ^ (5 * (chunkCount x - 1)) = 32 ^ Nat.log 32 x := by
    rw [Nat.pow_mul]
    rfl
  have hlow : 32 ^ Nat.log 32 x ≤ x := Nat.pow_log_le_self 32 h
  have hhigh : x < 32 ^ Nat.log 32 x * 32 := Nat.lt_pow_succ_log_self (by decide : 1 < 32) x
  rw [hpow, Nat.mod_eq_of_lt (Nat.div_lt_of_lt_mul hhigh)]
  exact Nat.ne_of_gt (Nat.div_pos hlow (Nat.pow_pos (Nat.succ_pos 31)))

/-- A value has 13 chunks exactly from 2^60 on (spec/40_varint.md R101). -/
theorem chunkCount_eq_13_iff (v : Word) : chunkCount v.toNat = 13 ↔ 2 ^ 60 ≤ v.toNat := by
  have hmax : chunkCount v.toNat ≤ 13 :=
    length_encodeUnsigned v ▸ (length_encodeUnsigned_bounds v).2
  have hlog : 12 ≤ Nat.log 32 v.toNat ↔ 32 ^ 12 ≤ v.toNat :=
    ⟨fun h => Nat.pow_le_of_le_log (fun hzero => by simp [hzero] at h) h,
      fun h => Nat.le_log_of_pow_le (by decide) h⟩
  rw [show 2 ^ 60 = 32 ^ 12 from rfl, ← hlog]
  rw [chunkCount] at hmax ⊢
  omega

/-! ### The quantities of a varint -/

/-- The number whose digits in base 32 the payloads are, the first the lowest. -/
def payloadValue (qs : List Quantity) : Nat := Nat.ofDigits 32 (qs.map (fun q => q.toNat % 32))

theorem payloadValue_cons (q : Quantity) (qs : List Quantity) :
    payloadValue (q :: qs) = q.toNat % 32 + 32 * payloadValue qs := Nat.ofDigits_cons

theorem payloadValue_singleton (q : Quantity) : payloadValue [q] = q.toNat % 32 :=
  Nat.ofDigits_singleton

/-- With a last payload other than 0 the value is not 0. -/
theorem payloadValue_pos (qs : List Quantity) {q : Quantity} (hq : q.toNat % 32 ≠ 0) :
    0 < payloadValue (qs ++ [q]) := by
  induction qs with
  | nil => rw [List.nil_append, payloadValue_singleton]; omega
  | cons p qs ih => rw [List.cons_append, payloadValue_cons]; omega

/-- The last payload is the digit of the highest weight. -/
theorem payloadValue_append_singleton (qs : List Quantity) (q : Quantity) :
    payloadValue (qs ++ [q]) = payloadValue qs + 32 ^ qs.length * (q.toNat % 32) := by
  rw [payloadValue, List.map_append, Nat.ofDigits_append, List.length_map]
  exact congrArg _ (congrArg _ (payloadValue_singleton q))

/-- Digits of base 32 stay below the next weight. -/
theorem payloadValue_lt (qs : List Quantity) : payloadValue qs < 32 ^ qs.length := by
  induction qs with
  | nil => decide
  | cons q qs ih =>
    rw [payloadValue_cons, List.length_cons, Nat.pow_succ]
    omega

/-- A code point that is found is the symbol of its quantity (spec/40_varint.md R104). -/
theorem eq_zext64_of_lookup {c : Word} {q : Quantity} (h : lookup c = some q) :
    c = zext64 (alpha q) :=
  BitVec.eq_of_toNat_eq ((lookup_eq_some_iff.1 h).trans (toNat_zext64_alpha q).symm)

/-- A first payload and the payloads after it are put side by side, at any position of the result.
-/
theorem payloadValue_cons_shiftLeft (q : Quantity) (qs : List Quantity) (shift : Nat) :
    BitVec.ofNat 64 (payloadValue (q :: qs)) <<< shift =
      (BitVec.ofNat 64 (q.toNat % 32) <<< shift) |||
        (BitVec.ofNat 64 (payloadValue qs) <<< (shift + 5)) := by
  have hdigit : (BitVec.ofNat 64 (payloadValue (q :: qs))).toNat % 32 = q.toNat % 32 := by
    rw [payloadValue_cons, BitVec.toNat_ofNat]
    omega
  have hrest : BitVec.ofNat 64 ((BitVec.ofNat 64 (payloadValue (q :: qs))).toNat / 32) <<< 5
      = BitVec.ofNat 64 (payloadValue qs) <<< 5 := by
    apply BitVec.eq_of_toNat_eq
    simp only [payloadValue_cons, BitVec.toNat_shiftLeft, BitVec.toNat_ofNat, Nat.shiftLeft_eq]
    omega
  rw [shiftLeft_eq_chunk_or_quotient, hdigit, Nat.add_comm shift 5, BitVec.shiftLeft_add, hrest,
    ← BitVec.shiftLeft_add]

/-- The payload of a quantity as a word (spec/40_varint.md R103). -/
theorem zext64_payload (q : Quantity) : zext64 (payload q) = BitVec.ofNat 64 (q.toNat % 32) := by
  rw [zext64_eq_ofNat, payload_toNat]

/-- What the reference decoder has read when it answers: continuing symbols and a terminator, whose
payloads are the digits of the value (spec/40_varint.md R102). -/
theorem decodeLoop_ok {r v : Word} {shift i j : Nat} {s : List Word}
    (h : decodeLoop r shift i s = .ok (v, j)) :
    ∃ (qs : List Quantity) (q : Quantity) (rest : List Word),
      s = codePoints ((qs ++ [q]).map alpha) ++ rest ∧ (∀ p ∈ qs, 32 ≤ p.toNat) ∧ q.toNat < 32 ∧
      j = i + (qs.length + 1) ∧
      v = r ||| (BitVec.ofNat 64 (payloadValue (qs ++ [q])) <<< shift) := by
  induction s generalizing r shift i with
  | nil => cases h
  | cons c s ih =>
    cases hl : lookup c with
    | none => simp [decodeLoop, hl] at h
    | some q =>
      rw [decodeLoop_cons hl, zext64_payload] at h
      obtain rfl := eq_zext64_of_lookup hl
      split at h
      case isTrue hq =>
        obtain ⟨qs, t, rest, rfl, hqs, ht, rfl, rfl⟩ := ih h
        refine ⟨q :: qs, t, rest, rfl, List.forall_mem_cons.2 ⟨hq, hqs⟩, ht, ?_, ?_⟩
        · rw [List.length_cons]
          omega
        · rw [List.cons_append, payloadValue_cons_shiftLeft, shiftLeft_min_shiftMax,
            BitVec.or_assoc]
      case isFalse hq =>
        cases h
        exact ⟨[], q, s, rfl, by simp, by omega, rfl,
          by rw [List.nil_append, payloadValue_singleton]⟩

/-- The encoder gives the quantities of a canonical varint that fits 64 bits (spec/40_varint.md
R109, second direction). -/
theorem encodeUnsigned_payloadValue {qs : List Quantity} {q : Quantity}
    (hqs : ∀ p ∈ qs, 32 ≤ p.toNat) (hq : q.toNat < 32) (hlast : qs ≠ [] → q.toNat % 32 ≠ 0)
    (hfit : payloadValue (qs ++ [q]) < 2 ^ 64) :
    encodeUnsigned (BitVec.ofNat 64 (payloadValue (qs ++ [q]))) = (qs ++ [q]).map alpha := by
  induction qs with
  | nil =>
    rw [List.nil_append, payloadValue_singleton, Nat.mod_eq_of_lt hq] at hfit ⊢
    have hx : (BitVec.ofNat 64 q.toNat).toNat = q.toNat := Nat.mod_eq_of_lt hfit
    rw [encodeUnsigned_of_lt (by omega), hx, BitVec.ofNat_toNat, BitVec.setWidth_eq]
    rfl
  | cons p qs ih =>
    obtain ⟨hp, hqs'⟩ := List.forall_mem_cons.1 hqs
    have hlast' : q.toNat % 32 ≠ 0 := hlast (List.cons_ne_nil _ _)
    have hpos := payloadValue_pos qs hlast'
    rw [List.cons_append, payloadValue_cons] at hfit ⊢
    have hx : (BitVec.ofNat 64 (p.toNat % 32 + 32 * payloadValue (qs ++ [q]))).toNat =
        p.toNat % 32 + 32 * payloadValue (qs ++ [q]) := Nat.mod_eq_of_lt hfit
    have hfirst : BitVec.ofNat 6 (32 + p.toNat % 32) = p := by
      apply BitVec.eq_of_toNat_eq
      rw [BitVec.toNat_ofNat]
      omega
    rw [encodeUnsigned_of_ge (by omega), hx, Nat.add_mul_mod_self_left,
      Nat.add_mul_div_left _ _ (by decide), Nat.mod_mod, Nat.div_eq_of_lt (by omega), Nat.zero_add,
      hfirst, ih hqs' (fun _ => hlast') (by omega)]
    rfl

/-! ### Decoding an encoding -/

/-- The decoder reads an encoding to its end, whatever follows (spec/40_varint.md R109, first
direction). -/
theorem decodeLoop_encodeUnsigned (v r : Word) (shift i : Nat) (t : List Word) :
    decodeLoop r shift i (codePoints (encodeUnsigned v) ++ t) =
      .ok (r ||| v <<< shift, i + (encodeUnsigned v).length) := by
  induction v using chunk_induction generalizing r shift i with
  | single v hv =>
    have hq : ¬ 32 ≤ (BitVec.ofNat 6 v.toNat).toNat := by rw [BitVec.toNat_ofNat]; omega
    rw [encodeUnsigned_of_lt hv, codePoints_cons, List.cons_append,
      decodeLoop_cons (lookup_alpha _),
      if_neg hq, zext64_payload_ofNat, Nat.mod_eq_of_lt hv, BitVec.ofNat_toNat, BitVec.setWidth_eq]
    rfl
  | more v hv ih =>
    have hq : 32 ≤ (BitVec.ofNat 6 (32 + v.toNat % 32)).toNat := by rw [BitVec.toNat_ofNat]; omega
    have hlow : (32 + v.toNat % 32) % 32 = v.toNat % 32 := by omega
    rw [encodeUnsigned_of_ge hv, codePoints_cons, List.cons_append,
      decodeLoop_cons (lookup_alpha _),
      if_pos hq, zext64_payload_ofNat, hlow, ih, shiftLeft_min_shiftMax, BitVec.or_assoc,
      ← shiftLeft_eq_chunk_or_quotient, List.length_cons, Nat.add_assoc, Nat.add_comm 1]

/-- `decodeUnsigned` answers the value of its loop and the number of symbols taken
(spec/40_varint.md R102). -/
theorem decodeUnsigned_of_loop {s : List Word} {k n : Nat} {v : Word}
    (h : decodeLoop 0 0 k (s.drop k) = .ok (v, k + n)) : decodeUnsigned s k = .ok (v, n) := by
  simp only [decodeUnsigned, h, Nat.add_sub_cancel_left]

/-- What `decodeUnsigned` has read when it answers (spec/40_varint.md R102). -/
theorem decodeUnsigned_ok {s : List Word} {k n : Nat} {v : Word}
    (h : decodeUnsigned s k = .ok (v, n)) :
    ∃ (qs : List Quantity) (q : Quantity) (rest : List Word),
      s.drop k = codePoints ((qs ++ [q]).map alpha) ++ rest ∧ (∀ p ∈ qs, 32 ≤ p.toNat) ∧
      q.toNat < 32 ∧ n = qs.length + 1 ∧ v = BitVec.ofNat 64 (payloadValue (qs ++ [q])) := by
  unfold decodeUnsigned at h
  split at h
  case h_2 => cases h
  case h_1 v' j hloop =>
    cases h
    obtain ⟨qs, q, rest, hs, hqs, hq, rfl, rfl⟩ := decodeLoop_ok hloop
    refine ⟨qs, q, rest, hs, hqs, hq, Nat.add_sub_cancel_left k _, ?_⟩
    rw [BitVec.shiftLeft_zero]
    exact BitVec.zero_or

theorem codePoints_injective : Function.Injective codePoints := by
  refine List.map_injective_iff.2 fun c d h => ?_
  have hnat := congrArg BitVec.toNat h
  rw [zext64, zext64, BitVec.toNat_setWidth_of_le (by decide),
    BitVec.toNat_setWidth_of_le (by decide)] at hnat
  exact BitVec.eq_of_toNat_eq hnat

/-! ### The statements -/

/-- Settles O15: length and symbols from the list of chunks. -/
theorem encodeUnsignedProperties : Obligations.EncodeUnsignedProperties := by
  intro v
  have hlen := length_encodeUnsigned v
  refine ⟨fun h => ?one, fun h => ?many, (length_encodeUnsigned_bounds v).2, ?thirteen,
    fun k h => ⟨_, encodeUnsigned_getElem v h, chunkQuantity_payload _ _ _,
      chunkQuantity_getLsbD_five _ _ _, fun hk hend => ?canonical, fun hk => ?top⟩⟩
  case one => rw [hlen, chunkCount_eq_ite, if_pos h]
  case many => rw [hlen, chunkCount_eq_ite, if_neg (by omega)]
  case thirteen => rw [hlen, chunkCount_eq_13_iff]
  case canonical =>
    have hzero : v.toNat ≠ 0 := by
      intro hv
      rw [hlen, hv] at hend
      simp [chunkCount] at hend
      omega
    rw [chunkQuantity_payload, show k = chunkCount v.toNat - 1 by omega]
    exact lastChunk_ne_zero hzero
  case top =>
    rw [chunkQuantity_payload, hk]
    omega

/-- Settles O16: the loop from the start of the sequence. -/
theorem decodeUnsignedInvertsEncodeUnsigned : Obligations.DecodeUnsignedInvertsEncodeUnsigned := by
  intro v t
  refine decodeUnsigned_of_loop ?_
  rw [List.drop_zero, decodeLoop_encodeUnsigned, BitVec.shiftLeft_zero]
  exact congrArg (fun x => Except.ok (x, _)) BitVec.zero_or

/-- A varint of at most 13 symbols fits 64 bits when a 13th payload is at most 15. -/
theorem payloadValue_fits {qs : List Quantity} {q : Quantity} (hlen : qs.length + 1 ≤ 13)
    (htop : qs.length + 1 = 13 → q.toNat % 32 ≤ 15) : payloadValue (qs ++ [q]) < 2 ^ 64 := by
  have hlow := payloadValue_lt qs
  rw [payloadValue_append_singleton]
  by_cases h13 : qs.length + 1 = 13
  · have htop' := htop h13
    rw [show qs.length = 12 by omega] at hlow ⊢
    omega
  · have hweight : 32 ^ qs.length ≤ 32 ^ 11 := Nat.pow_le_pow_right (by decide) (by omega)
    have hpayload : q.toNat % 32 ≤ 31 := by omega
    have hmul := Nat.mul_le_mul hweight hpayload
    omega

/-- Quantities that are an encoding are at most 13 and end as O15 says (spec/40_varint.md R101). -/
theorem canonical_of_encodeUnsigned {v : Word} {qs : List Quantity} {q : Quantity}
    (h : encodeUnsigned v = (qs ++ [q]).map alpha) :
    qs.length + 1 ≤ 13 ∧ (1 < qs.length + 1 → q.toNat % 32 ≠ 0) ∧
      (qs.length + 1 = 13 → q.toNat % 32 ≤ 15) := by
  have hcount : (encodeUnsigned v).length = qs.length + 1 := by simp [h]
  obtain ⟨-, -, hmax, -, hsym⟩ := encodeUnsignedProperties v
  obtain ⟨q', hq', -, -, hcanonical, htop⟩ := hsym qs.length (by omega)
  obtain rfl : q' = q := alpha_injective (by rw [← hq']; simp [h])
  exact ⟨by omega, fun hone => hcanonical (by omega) (by omega), fun h13 => htop (by omega)⟩

/-- Settles O17: the symbols read are a list of quantities, continuing but the last. If they are an
encoding, O15 says how they end; if they end as listed, the encoder gives them back. -/
theorem reencodingRestoresCanonicalVarints : Obligations.ReencodingRestoresCanonicalVarints := by
  intro s v n h
  obtain ⟨qs, q, rest, hs, hqs, hq, rfl, rfl⟩ := decodeUnsigned_ok h
  rw [List.drop_zero] at hs
  have hlen : (codePoints ((qs ++ [q]).map alpha)).length = qs.length + 1 := by simp [codePoints]
  have htake : s.take (qs.length + 1) = codePoints ((qs ++ [q]).map alpha) := by
    rw [hs, ← hlen, List.take_left]
  have hlast : s[qs.length + 1 - 1]? = some (zext64 (alpha q)) := by
    rw [hs, List.getElem?_append_left (by omega)]
    simp [codePoints]
  rw [htake, codePoints_injective.eq_iff, hlast]
  constructor
  · intro henc
    obtain ⟨hmax, hcanonical, htop⟩ := canonical_of_encodeUnsigned henc
    exact ⟨hmax, _, q, rfl, lookup_alpha q, hcanonical, htop⟩
  · rintro ⟨hmax, c, q', hc, hl, hcanonical, htop⟩
    cases hc
    obtain rfl : q = q' := Option.some.inj ((lookup_alpha q).symm.trans hl)
    exact encodeUnsigned_payloadValue hqs hq
      (fun hne => hcanonical (Nat.succ_lt_succ (List.length_pos_of_ne_nil hne)))
      (payloadValue_fits hmax htop)

end Sys2Proof.Machine

/-! ## The invariants (spec/10_state.md R48)

`Inv` speaks of each unit by itself. For DEC it says three things: what a varint in progress looks
like, which codes the latch holds, and what is known of version and header, the last two by the
state of DEC. An operation moves DEC in one of seven ways, and each is shown to keep all three. -/

namespace Sys2Proof.Machine

/-! ### The invariants unit by unit -/

/-- The codes ENC latches (spec/42_header.md R135). -/
def encCodes : List Status := [.invalidPrecision, .invalidKind, .reservedKind]

/-- The codes DEC latches (spec/60_exceptions.md R200). -/
def decCodes : List Status :=
  [.unsupportedVersion, .invalidSymbol, .truncatedPoint, .unterminatedValue]

/-- The part of `Inv` that speaks of ENC. -/
structure EncInv (e : EncRegs) : Prop where
  latch : if e.st = .failed then e.err ∈ encCodes else e.err = .ok
  kindNotReserved : e.kind ≠ 4 ∧ e.kind ≠ 5
  twoAxes : e.kind = 0 → e.pz = 0

/-- `DEC_SHIFT` counts whole symbols, and `DEC_VACC` lies below it (spec/40_varint.md R105). -/
structure VarintInv (d : DecRegs) : Prop where
  shiftLegal : d.shift.toNat ∈ legalShifts
  vaccClear : d.shift = 0 → d.vacc = 0
  vaccBelowShift : d.shift.toNat ≤ 60 → d.vacc.toNat < 2 ^ d.shift.toNat

/-- The latch of DEC by its state, and where a varint may be left unfinished (spec/10_state.md R48,
items 2, 3 and 6). -/
def LatchInv (d : DecRegs) : Prop :=
  match d.st with
  | .idle => d.err = .ok ∧ d.shift = 0
  | .inPhase _ => d.err = .ok
  | .failed => d.err ∈ decCodes ∧
      (d.shift ≠ 0 → d.err = .unterminatedValue ∨ d.err = .invalidSymbol)

/-- What is known of the version and of the header, by the state of DEC (spec/10_state.md R33, R34).
-/
def PhaseInv (d : DecRegs) : Prop :=
  match d.st with
  | .idle => flagHV d.flags = true → d.ver = 1
  | .inPhase .version => flagHV d.flags = false ∧ d.ver = 0
  | .inPhase .header => flagHV d.flags = false ∧ d.ver = 1
  | .inPhase .lat | .inPhase .lng | .inPhase .z => flagHV d.flags = true ∧ d.ver = 1
  | .failed => True

/-- The registers the header and the points fill are 0 before the header ends, and the third axis
belongs to a third kind (spec/10_state.md R48, items 7 to 9). -/
structure ContentInv (d : DecRegs) : Prop where
  noHeader : flagHV d.flags = false → d.p2 = 0 ∧ d.kind = 0 ∧ d.p3 = 0 ∧
    d.lat = 0 ∧ d.lng = 0 ∧ d.z = 0 ∧ d.npts = 0
  twoAxes : d.kind = 0 → d.z = 0 ∧ d.st ≠ .inPhase .z
  p3Bound : d.p3.toNat < 2 ^ 57

/-- The part of `Inv` that speaks of DEC. -/
structure DecInv (d : DecRegs) : Prop where
  varint : VarintInv d
  latch : LatchInv d
  phase : PhaseInv d
  content : ContentInv d

theorem EncInv.err_iff_failed {e : EncRegs} (h : EncInv e) : e.err ≠ .ok ↔ e.st = .failed := by
  have hlatch := h.latch
  split at hlatch
  case isTrue hs =>
    refine iff_of_true (fun hok => ?_) hs
    rw [hok] at hlatch
    exact absurd hlatch (by decide)
  case isFalse hs => exact iff_of_false (not_not_intro hlatch) hs

theorem EncInv.err_mem {e : EncRegs} (h : EncInv e) : e.err ∈ .ok :: encCodes := by
  have hlatch := h.latch
  split at hlatch
  case isTrue => exact List.mem_cons_of_mem _ hlatch
  case isFalse => exact List.mem_cons.2 (.inl hlatch)

theorem LatchInv.err_iff_failed {d : DecRegs} (h : LatchInv d) : d.err ≠ .ok ↔ d.st = .failed := by
  unfold LatchInv at h
  split at h
  case h_1 hs => simp [hs, h]
  case h_2 hs => simp [hs, h]
  case h_3 hs =>
    refine iff_of_true (fun hok => ?_) hs
    rw [hok] at h
    exact absurd h.1 (by decide)

theorem LatchInv.err_mem {d : DecRegs} (h : LatchInv d) : d.err ∈ .ok :: decCodes := by
  unfold LatchInv at h
  split at h
  case h_1 => exact List.mem_cons.2 (.inl h.1)
  case h_2 => exact List.mem_cons.2 (.inl h)
  case h_3 => exact List.mem_cons_of_mem _ h.1

theorem LatchInv.busy {d : DecRegs} (h : LatchInv d) (hne : d.shift ≠ 0) :
    (∃ p, d.st = .inPhase p) ∨
      (d.st = .failed ∧ (d.err = .unterminatedValue ∨ d.err = .invalidSymbol)) := by
  unfold LatchInv at h
  split at h
  case h_1 => exact absurd h.2 hne
  case h_2 p hs => exact .inl ⟨p, hs⟩
  case h_3 hs => exact .inr ⟨hs, h.2 hne⟩

section PhaseFacts

variable {d : DecRegs} (h : PhaseInv d)
include h

/-- Version 1 is known after the version varint (spec/10_state.md R48, item 10). -/
theorem PhaseInv.version_known (hs : d.st = .inPhase .header ∨ d.st = .inPhase .lat ∨
    d.st = .inPhase .lng ∨ d.st = .inPhase .z ∨ (d.st = .idle ∧ flagHV d.flags = true)) :
    d.ver = 1 := by
  unfold PhaseInv at h
  rcases hs with hs | hs | hs | hs | ⟨hs, hhv⟩ <;> rw [hs] at h
  · exact h.2
  · exact h.2
  · exact h.2
  · exact h.2
  · exact h hhv

/-- Nothing is known of the header before it ends (spec/10_state.md R34). -/
theorem PhaseInv.header_pending (hs : d.st = .inPhase .version ∨ d.st = .inPhase .header) :
    flagHV d.flags = false := by
  unfold PhaseInv at h
  rcases hs with hs | hs <;> rw [hs] at h
  · exact h.1
  · exact h.1

/-- `DEC_VER` is 0 until the version varint ends (spec/10_state.md R33). -/
theorem PhaseInv.version_pending (hs : d.st = .inPhase .version) : d.ver = 0 := by
  unfold PhaseInv at h
  rw [hs] at h
  exact h.2

/-- The header is known in the phases of a point (spec/10_state.md R34). -/
theorem PhaseInv.header_known
    (hs : d.st = .inPhase .lat ∨ d.st = .inPhase .lng ∨ d.st = .inPhase .z) :
    flagHV d.flags = true := by
  unfold PhaseInv at h
  rcases hs with hs | hs | hs <;> rw [hs] at h
  · exact h.1
  · exact h.1
  · exact h.1

end PhaseFacts

/-- The invariants of the two units are the invariants. -/
theorem inv_of_units {s : State} (he : EncInv s.enc) (hd : DecInv s.dec) : Inv s where
  listed :=
    { encErrIffFailed := he.err_iff_failed
      decErrIffFailed := hd.latch.err_iff_failed
      encErrCodes := he.err_mem
      decErrCodes := hd.latch.err_mem
      encKindNotReserved := he.kindNotReserved
      decShiftLegal := hd.varint.shiftLegal
      decVaccClear := hd.varint.vaccClear
      decShiftBusy := hd.latch.busy
      decNoHeader := hd.content.noHeader
      decTwoAxes := hd.content.twoAxes
      decP3Bound := hd.content.p3Bound
      decVersion := hd.phase.version_known }
  headerPending := hd.phase.header_pending
  versionPending := hd.phase.version_pending
  headerKnown := hd.phase.header_known
  vaccBelowShift := hd.varint.vaccBelowShift
  encTwoAxes := he.twoAxes

theorem encInv_of_inv {s : State} (h : Inv s) : EncInv s.enc := by
  refine ⟨?_, h.listed.encKindNotReserved, h.encTwoAxes⟩
  split
  case isTrue hfailed =>
    exact (List.mem_cons.1 h.listed.encErrCodes).resolve_left (h.listed.encErrIffFailed.2 hfailed)
  case isFalse hopen => exact not_not.1 (mt h.listed.encErrIffFailed.1 hopen)

theorem latchInv_of_listed {s : State} (h : ListedInvariants s) : LatchInv s.dec := by
  have hok (hst : s.dec.st ≠ .failed) : s.dec.err = .ok := not_not.1 (mt h.decErrIffFailed.1 hst)
  have hbusy := h.decShiftBusy
  unfold LatchInv
  split
  case h_1 hs => exact ⟨hok (by simp [hs]), by simpa [hs] using hbusy⟩
  case h_2 p hs => exact hok (by simp [hs])
  case h_3 hs =>
    refine ⟨(List.mem_cons.1 h.decErrCodes).resolve_left (h.decErrIffFailed.2 hs), fun hne => ?_⟩
    simpa [hs] using hbusy hne

theorem phaseInv_of_inv {s : State} (h : Inv s) : PhaseInv s.dec := by
  have hver := h.listed.decVersion
  unfold PhaseInv
  split
  case h_1 hs => exact fun hhv => hver (by simp [hs, hhv])
  case h_2 hs => exact ⟨h.headerPending (.inl hs), h.versionPending hs⟩
  case h_3 hs => exact ⟨h.headerPending (.inr hs), hver (.inl hs)⟩
  case h_4 hs => exact ⟨h.headerKnown (.inl hs), hver (.inr (.inl hs))⟩
  case h_5 hs => exact ⟨h.headerKnown (.inr (.inl hs)), hver (.inr (.inr (.inl hs)))⟩
  case h_6 hs => exact ⟨h.headerKnown (.inr (.inr hs)), hver (.inr (.inr (.inr (.inl hs))))⟩
  case h_7 => trivial

/-- The invariants are those of the two units. -/
theorem inv_iff_units (s : State) : Inv s ↔ EncInv s.enc ∧ DecInv s.dec := by
  refine ⟨fun h => ⟨encInv_of_inv h, ?_⟩, fun ⟨he, hd⟩ => inv_of_units he hd⟩
  exact
    { varint := ⟨h.listed.decShiftLegal, h.listed.decVaccClear, h.vaccBelowShift⟩
      latch := latchInv_of_listed h.listed
      phase := phaseInv_of_inv h
      content := ⟨h.listed.decNoHeader, h.listed.decTwoAxes, h.listed.decP3Bound⟩ }

/-! ### What operations do to ENC -/

theorem encInv_reset : EncInv EncRegs.reset := ⟨by decide, by decide, by decide⟩

/-- A refused ESTART latches one of ENC's codes (spec/42_header.md R135). -/
theorem encInv_refused {e : EncRegs} {c : Status} (h : EncInv e)
    (hc : c = .invalidPrecision ∨ c = .invalidKind ∨ c = .reservedKind) :
    EncInv { e with st := .failed, err := c } :=
  ⟨by simpa [encCodes] using hc, h.kindNotReserved, h.twoAxes⟩

/-- An accepted kind is in range and not reserved (spec/42_header.md R135). -/
theorem kindBits_of_validate {a b c : Word} (h : validate a b c = none) :
    b.toNat ≤ 7 ∧ kindBits b ≠ 4 ∧ kindBits b ≠ 5 := by
  rw [validate_eq] at h
  split_ifs at h with hp hk hr
  have hmod : (kindBits b).toNat = b.toNat := by
    rw [kindBits_eq_ofNat, BitVec.toNat_ofNat]
    omega
  refine ⟨by omega, fun h4 => ?_, fun h5 => ?_⟩
  · rw [h4] at hmod
    exact hr (.inl hmod.symm)
  · rw [h5] at hmod
    exact hr (.inr hmod.symm)

/-- Every operation keeps the invariants of ENC. -/
theorem effect_keeps_encInv {i : Instr} {s t : State} (he : Effect i s t) (h : EncInv s.enc) :
    EncInv t.enc := by
  cases he
  case estartRefused hc => exact encInv_refused h hc
  case estartOpened hv =>
    exact ⟨rfl, (kindBits_of_validate hv).2, fun _ => rfl⟩
  case epointThree hs hk =>
    have hlatch := h.latch
    rw [hs] at hlatch
    exact ⟨by rw [hs]; exact hlatch, h.kindNotReserved, fun h0 => absurd h0 hk⟩
  case epointTwo => exact ⟨h.latch, h.kindNotReserved, h.twoAxes⟩
  case eend hs =>
    have hlatch := h.latch
    rw [hs] at hlatch
    exact ⟨hlatch, h.kindNotReserved, h.twoAxes⟩
  all_goals exact h

/-! ### What operations do to DEC -/

theorem decInv_reset : DecInv DecRegs.reset where
  varint := ⟨by decide, by decide, by decide⟩
  latch := by simp [LatchInv, DecRegs.reset]
  phase := by simp [PhaseInv, DecRegs.reset, flagHV]
  content := ⟨by decide, by decide, by decide⟩

/-- DSTART opens phase VERSION with every other register at its reset value. -/
theorem decInv_started : DecInv { DecRegs.reset with st := .inPhase .version } where
  varint := ⟨by decide, by decide, by decide⟩
  latch := by simp [LatchInv, DecRegs.reset]
  phase := by simp [PhaseInv, DecRegs.reset, flagHV]
  content := ⟨by decide, by decide, by decide⟩

section DecMoves

variable {d : DecRegs} (h : DecInv d)
include h

/-- DEC fails with a code of its own, in the middle of a varint only with two of them. The version
that is refused may be kept in `DEC_VER` (spec/42_header.md R134). -/
theorem DecInv.failed {c : Status} (v : Word) (hc : c ∈ decCodes)
    (hbusy : d.shift ≠ 0 → c = .unterminatedValue ∨ c = .invalidSymbol) :
    DecInv { d with ver := v, st := .failed, err := c } where
  varint := ⟨h.varint.shiftLegal, h.varint.vaccClear, h.varint.vaccBelowShift⟩
  latch := ⟨hc, hbusy⟩
  phase := trivial
  content := ⟨h.content.noHeader, fun h0 => ⟨(h.content.twoAxes h0).1, nofun⟩, h.content.p3Bound⟩

/-- A symbol leaves the version and header facts alone: it keeps HV. -/
theorem DecInv.phase_flagsAfter (q : Quantity) : PhaseInv { d with flags := flagsAfter d q } := by
  have hphase := h.phase
  unfold PhaseInv at hphase ⊢
  simpa only [flagHV_flagsAfter] using hphase

/-- Nor does it touch what the header and the points filled. -/
theorem DecInv.content_flagsAfter (q : Quantity) : ContentInv { d with flags := flagsAfter d q } :=
  ⟨by simpa only [flagHV_flagsAfter] using h.content.noHeader, h.content.twoAxes,
    h.content.p3Bound⟩

/-- `DEC_SHIFT` moves up by 5 within the legal values (spec/10_state.md R37). -/
theorem DecInv.nextShift_legal : min (d.shift.toNat + 5) 65 ∈ legalShifts := by
  have hnext : ∀ n ∈ legalShifts, min (n + 5) 65 ∈ legalShifts := by decide
  exact hnext _ h.varint.shiftLegal

/-- A continuing symbol extends the varint in progress (spec/40_varint.md R105). -/
theorem DecInv.continued {p : Phase} (q : Quantity) (hs : d.st = .inPhase p) :
    DecInv { d with
      pos := d.pos + 1, vacc := assembled d q, flags := flagsAfter d q
      shift := BitVec.ofNat 7 (min (d.shift.toNat + 5) 65) } where
  varint := by
    have hshift := nextShift_toNat d.shift.toNat
    refine ⟨?legal, fun h0 => ?clear, fun h60 => ?below⟩
    case legal =>
      rw [hshift]
      exact h.nextShift_legal
    case clear => exact absurd h0 (nextShift_ne_zero _)
    case below =>
      simp only [hshift] at h60 ⊢
      have hold := h.varint.vaccBelowShift (by omega)
      have hmin : min (d.shift.toNat + 5) 65 = d.shift.toNat + 5 := by omega
      have hpay := payload_mul_lt q (Nat.le_refl (d.shift.toNat + 5))
      rw [hmin, assembled, BitVec.toNat_or, BitVec.toNat_ofNat]
      exact Nat.or_lt_two_pow
        (Nat.lt_trans hold (Nat.pow_lt_pow_right (by decide) (by omega)))
        (Nat.lt_of_le_of_lt (Nat.mod_le _ _) hpay)
  latch := by
    have hlatch := h.latch
    unfold LatchInv at hlatch ⊢
    rw [hs] at hlatch
    simpa only [hs] using hlatch
  phase := h.phase_flagsAfter q
  content :=
    have hcontent := h.content_flagsAfter q
    ⟨hcontent.noHeader, hcontent.twoAxes, hcontent.p3Bound⟩

/-- A terminator leaves no varint in progress (spec/40_varint.md R105). -/
theorem DecInv.terminated {p : Phase} (q : Quantity) (hs : d.st = .inPhase p) :
    DecInv (afterTerminator d q) where
  varint := ⟨by simp [afterTerminator, legalShifts], fun _ => rfl, fun _ => by
    simp [afterTerminator]⟩
  latch := by
    have hlatch := h.latch
    unfold LatchInv at hlatch ⊢
    rw [hs] at hlatch
    simpa only [afterTerminator, hs] using hlatch
  phase := h.phase_flagsAfter q
  content :=
    have hcontent := h.content_flagsAfter q
    ⟨hcontent.noHeader, hcontent.twoAxes, hcontent.p3Bound⟩

/-- In an open transaction no code is latched. -/
theorem DecInv.err_ok {p : Phase} (hs : d.st = .inPhase p) : d.err = .ok := by
  have hlatch := h.latch
  unfold LatchInv at hlatch
  rwa [hs] at hlatch

/-- Version 1 opens phase HEADER (spec/43_point_stream.md R160). -/
theorem DecInv.version_finished (hs : d.st = .inPhase .version) :
    DecInv { d with ver := 1, st := .inPhase .header } where
  varint := ⟨h.varint.shiftLegal, h.varint.vaccClear, h.varint.vaccBelowShift⟩
  latch := h.err_ok hs
  phase := ⟨h.phase.header_pending (.inl hs), rfl⟩
  content := ⟨h.content.noHeader, fun h0 => ⟨(h.content.twoAxes h0).1, nofun⟩, h.content.p3Bound⟩

/-- The header fills its registers while the accumulators are still 0 (spec/42_header.md R132). -/
theorem DecInv.header_finished (v : Word) (hs : d.st = .inPhase .header) :
    DecInv { d with
      p2 := (unpackHeader v).p2, kind := (unpackHeader v).kind, p3 := (unpackHeader v).p3
      flags := setHV d.flags, st := .inPhase .lat } where
  varint := ⟨h.varint.shiftLegal, h.varint.vaccClear, h.varint.vaccBelowShift⟩
  latch := h.err_ok hs
  phase := ⟨flagHV_setHV _, h.phase.version_known (.inl hs)⟩
  content := by
    obtain ⟨-, -, -, -, -, hz, -⟩ := h.content.noHeader (h.phase.header_pending (.inr hs))
    refine ⟨fun hhv => ?_, fun _ => ⟨hz, nofun⟩, ?_⟩
    · exact absurd ((flagHV_setHV _).symm.trans hhv) nofun
    · simp only [unpackHeader_p3_toNat]
      omega

/-- A delta changes accumulators and the count, and goes on within a point: to phase Z, and with a
third value, only for a third axis (spec/43_point_stream.md R160). -/
theorem DecInv.delta_finished {p' : Phase}
    (hs : d.st = .inPhase .lat ∨ d.st = .inPhase .lng ∨ d.st = .inPhase .z)
    (hp' : p' = .lat ∨ p' = .lng ∨ p' = .z)
    (lat lng z npts : Word) (haxes : d.kind = 0 → z = 0 ∧ p' ≠ .z) :
    DecInv { d with lat := lat, lng := lng, z := z, npts := npts, st := .inPhase p' } where
  varint := ⟨h.varint.shiftLegal, h.varint.vaccClear, h.varint.vaccBelowShift⟩
  latch := hs.elim h.err_ok fun hs => hs.elim h.err_ok h.err_ok
  phase := by
    have hknown : flagHV d.flags = true ∧ d.ver = 1 :=
      ⟨h.phase.header_known hs, h.phase.version_known (by tauto)⟩
    rcases hp' with rfl | rfl | rfl
    · exact hknown
    · exact hknown
    · exact hknown
  content := by
    have hknown := h.phase.header_known hs
    refine ⟨fun hhv => absurd (hknown.symm.trans hhv) nofun, fun h0 => ?_, h.content.p3Bound⟩
    exact ⟨(haxes h0).1, fun heq => (haxes h0).2 (DecSt.inPhase.inj heq)⟩

/-- A transaction closed at a point boundary (spec/43_point_stream.md R165). -/
theorem DecInv.completed (hs : d.st = .inPhase .lat) (hz : d.shift = 0) :
    DecInv { d with st := .idle } where
  varint := ⟨h.varint.shiftLegal, h.varint.vaccClear, h.varint.vaccBelowShift⟩
  latch := ⟨h.err_ok hs, hz⟩
  phase := fun _ => h.phase.version_known (.inr (.inl hs))
  content := ⟨h.content.noHeader, fun h0 => ⟨(h.content.twoAxes h0).1, nofun⟩, h.content.p3Bound⟩

end DecMoves

/-- Every operation keeps the invariants of DEC. -/
theorem effect_keeps_decInv {i : Instr} {s t : State} (he : Effect i s t) (h : DecInv s.dec) :
    DecInv t.dec := by
  cases he
  case dstart => exact decInv_started
  case dsymInvalid => exact h.failed s.dec.ver (by decide) (fun _ => .inr rfl)
  case dsymContinues _ _ hs => exact h.continued _ hs
  case dsymVersionBad _ _ hs _ =>
    exact (h.terminated _ hs).failed _ (by decide) (fun hne => absurd rfl hne)
  case dsymVersion _ _ hs _ => exact (h.terminated _ hs).version_finished hs
  case dsymHeader _ _ hs => exact (h.terminated _ hs).header_finished _ hs
  case dsymLat _ _ hs =>
    exact (h.terminated _ hs).delta_finished (.inl hs) (.inr (.inl rfl)) _ _ _ _
      (fun h0 => ⟨(h.content.twoAxes h0).1, nofun⟩)
  case dsymLngThree _ _ hs hk =>
    exact (h.terminated _ hs).delta_finished (.inr (.inl hs)) (.inr (.inr rfl)) _ _ _ _
      (fun h0 => absurd h0 hk)
  case dsymLngTwo _ _ hs _ =>
    exact (h.terminated _ hs).delta_finished (.inr (.inl hs)) (.inl rfl) _ _ _ _
      (fun h0 => ⟨(h.content.twoAxes h0).1, nofun⟩)
  case dsymZ _ _ hs =>
    exact (h.terminated _ hs).delta_finished (.inr (.inr hs)) (.inl rfl) _ _ _ _
      (fun h0 => absurd hs (h.content.twoAxes h0).2)
  case dendUnterminated => exact h.failed s.dec.ver (by decide) (fun _ => .inl rfl)
  case dendTruncated hz => exact h.failed s.dec.ver (by decide) (fun hne => absurd hz hne)
  case dendComplete hs hz => exact h.completed hs hz
  all_goals exact h

/-! ### Steps and runs -/

/-- A step always goes on (spec/00_scope.md R9). -/
theorem step_answers (s : State) : ∃ t, step s = .next t := by
  rcases step_cases (s := s) rfl with ⟨-, ho⟩ | ⟨_, -, ho⟩ | ⟨_, rest, i, -, -, ho⟩ |
    ⟨_, _, _, -, -, ho⟩
  case inr.inr.inl =>
    obtain ⟨t, -, ht, -⟩ := exec_answers i { s with pending := rest }
    exact ⟨t, ho.trans ht⟩
  all_goals exact ⟨_, ho⟩

/-- A property that every step keeps holds after every run (spec/10_state.md R48). -/
theorem run_keeps {P : State → Prop} (hstep : ∀ s t, P s → step s = .next t → P t) (n : Nat)
    {s : State} (hs : P s) : ∃ t, Host.Core.run Sys2Proof.core n s = .next t ∧ P t := by
  induction n generalizing s with
  | zero => exact ⟨s, rfl, hs⟩
  | succ n ih =>
    obtain ⟨t, ht⟩ := step_answers s
    rw [run_of_step ht]
    exact ih (hstep s t hs ht)

/-! ### The statements -/

/-- Settles O46: a step waits, resets, performs an operation or answers a rejected word, and an
operation keeps the invariants of each unit. -/
theorem stepKeepsInvariants : Obligations.StepKeepsInvariants := by
  intro s t h hstep
  obtain ⟨henc, hdec⟩ := (inv_iff_units s).1 h
  rcases step_cases hstep with ⟨-, ho⟩ | ⟨rest, -, ho⟩ | ⟨w, rest, i, -, -, ho⟩ |
    ⟨w, rest, ⟨op⟩, -, -, ho⟩
  case inr.inr.inl =>
    have he := exec_effect ho.symm
    exact inv_of_units (effect_keeps_encInv he henc) (effect_keeps_decInv he hdec)
  all_goals cases ho
  · exact h
  · exact inv_of_units encInv_reset decInv_reset
  · exact inv_of_units henc hdec

/-- Settles O45, unit by unit. -/
theorem resetMeetsInvariants : Obligations.ResetMeetsInvariants :=
  inv_of_units encInv_reset decInv_reset

/-- Settles O47: the invariants do not speak of the inputs, hold at reset, and are kept. -/
theorem reachableStatesMeetListedInvariants : Obligations.ReachableStatesMeetListedInvariants := by
  intro inputs n
  obtain ⟨t, hrun, hinv⟩ := run_keeps stepKeepsInvariants n
    (s := { State.reset with pending := inputs }) (inv_of_units encInv_reset decInv_reset)
  exact ⟨t, hrun, hinv.listed⟩

end Sys2Proof.Machine

/-! ## What an operation may change and answer (spec/10_state.md, spec/60_exceptions.md)

Which registers an operation writes, what becomes of the two flags in a step, which codes an
operation answers where the invariants hold, and what every response looks like: four case splits
over `Effect`. -/

namespace Sys2Proof.Machine

/-! ### Which registers change

The rows of `readReg` are those of the register map in order: 1 to 8 are ENC, 9 to 22 DEC. -/

section Registers

variable {a : Word} {s t : State} (h : readReg a t ≠ readReg a s)
include h

/-- With DEC unchanged it is a register of ENC that changed (spec/10_state.md R21). -/
theorem index_of_enc_change (hdec : t.dec = s.dec) : a.toNat ≤ 7 := by
  by_contra hbig
  refine h ?_
  simp only [readReg, hdec]
  split
  case h_1 | h_2 | h_3 | h_4 | h_5 | h_6 | h_7 | h_8 => omega
  all_goals rfl

/-- With ENC unchanged it is a register of DEC that changed (spec/10_state.md R21). -/
theorem index_of_dec_change (henc : t.enc = s.enc) : 0x10 ≤ a.toNat ∧ a.toNat ≤ 0x1D := by
  by_contra hout
  refine h ?_
  simp only [readReg, henc]
  split
  case h_9 | h_10 | h_11 | h_12 | h_13 | h_14 | h_15 | h_16 | h_17 | h_18 | h_19 | h_20 | h_21 |
    h_22 => omega
  all_goals rfl

/-- The accumulators of ENC are registers 5 to 7 (spec/10_state.md R21). -/
theorem index_of_accumulators_change {lat lng z : Word} (hdec : t.dec = s.dec)
    (henc : t.enc = { s.enc with plat := lat, plng := lng, pz := z }) :
    5 ≤ a.toNat ∧ a.toNat ≤ 7 := by
  by_contra hout
  refine h ?_
  simp only [readReg, hdec, henc]
  split
  case h_6 | h_7 | h_8 => omega
  all_goals rfl

/-- `ENC_ST` is register 0 (spec/10_state.md R21). -/
theorem index_of_encSt_change {st : EncSt} (hdec : t.dec = s.dec)
    (henc : t.enc = { s.enc with st := st }) : a.toNat = 0 := by
  by_contra hout
  refine h ?_
  simp only [readReg, hdec, henc]
  split
  case h_1 => omega
  all_goals rfl

/-- `DEC_ST` and `DEC_ERR` are registers 0x10 and 0x11 (spec/10_state.md R21). -/
theorem index_of_decSt_change {st : DecSt} {e : Status} (henc : t.enc = s.enc)
    (hdec : t.dec = { s.dec with st := st, err := e }) : a.toNat = 0x10 ∨ a.toNat = 0x11 := by
  by_contra hout
  refine h ?_
  simp only [readReg, hdec, henc]
  split
  case h_9 | h_10 => omega
  all_goals rfl

end Registers

/-! The `writers` column, by operation (spec/10_state.md R21). -/

theorem estart_mem_writers {n : Nat} (h : n ≤ 7) : .estart ∈ writers n := by
  interval_cases n <;> decide

theorem epoint_mem_writers {n : Nat} (h : 5 ≤ n ∧ n ≤ 7) : .epoint ∈ writers n := by
  obtain ⟨hlow, hhigh⟩ := h
  interval_cases n <;> decide

theorem dstart_dsym_mem_writers {n : Nat} (h : 0x10 ≤ n ∧ n ≤ 0x1D) :
    .dstart ∈ writers n ∧ .dsym ∈ writers n := by
  obtain ⟨hlow, hhigh⟩ := h
  interval_cases n <;> decide

/-- Settles O12: each case of `Effect` changes registers of one unit, and of that unit only some. -/
theorem registersChangeOnlyByListedWriters : Obligations.RegistersChangeOnlyByListedWriters := by
  intro i s t a he h
  have unchanged (henc : t.enc = s.enc) (hdec : t.dec = s.dec) : i.mnemonic ∈ writers a.toNat :=
    absurd (readReg_congr a henc hdec) h
  cases exec_effect he
  case estartRefused | estartOpened => exact estart_mem_writers (index_of_enc_change h rfl)
  case epointThree | epointTwo =>
    exact epoint_mem_writers (index_of_accumulators_change h rfl rfl)
  case eend =>
    have hindex := index_of_encSt_change h rfl rfl
    rw [hindex]
    decide
  case dstart => exact (dstart_dsym_mem_writers (index_of_dec_change h rfl)).1
  case dsymInvalid | dsymContinues | dsymVersionBad | dsymVersion | dsymHeader | dsymLat |
    dsymLngThree | dsymLngTwo | dsymZ =>
    exact (dstart_dsym_mem_writers (index_of_dec_change h rfl)).2
  case dendUnterminated | dendTruncated | dendComplete =>
    rcases index_of_decSt_change h rfl rfl with hindex | hindex <;> rw [hindex] <;> decide
  all_goals exact unchanged rfl rfl

/-! ### The flags -/

/-- What a step from `s` to `t` does to `DEC_FLAGS` (spec/10_state.md R45). -/
inductive FlagsMove (s t : State) : Prop where
  | keep (ht : t.dec.flags = s.dec.flags)
  | reset {rest : List HostInput} (hp : s.pending = .reset :: rest) (ht : t.dec.flags = 0)
  | start {w : OpWord} {rest : List HostInput} (hp : s.pending = .word w :: rest)
      (hd : decode w = .ok .dstart) (ht : t.dec.flags = 0)
  | symbol {w : OpWord} {rest : List HostInput} {a : Word} {q : Quantity}
      (hp : s.pending = .word w :: rest) (hd : decode w = .ok (.dsym a)) (hl : lookup a = some q)
      (ht : t.dec.flags = flagsAfter s.dec q)
  | header {w : OpWord} {rest : List HostInput} {a : Word} {q : Quantity}
      (hp : s.pending = .word w :: rest) (hd : decode w = .ok (.dsym a)) (hl : lookup a = some q)
      (hq : q.toNat < 32) (hs : s.dec.st = .inPhase .header)
      (ht : t.dec.flags = setHV (flagsAfter s.dec q))

/-- Only reset, DSTART and the symbols of a varint write `DEC_FLAGS`. -/
theorem step_flagsMove {s t : State} (h : step s = .next t) : FlagsMove s t := by
  rcases step_cases h with ⟨-, ho⟩ | ⟨rest, hp, ho⟩ | ⟨w, rest, i, hp, hd, ho⟩ |
    ⟨w, rest, ⟨op⟩, hp, hd, ho⟩
  case inr.inr.inl =>
    cases exec_effect ho.symm
    case dstart => exact .start hp hd rfl
    case dsymContinues hl _ _ => exact .symbol hp hd hl rfl
    case dsymVersionBad hl _ _ _ => exact .symbol hp hd hl rfl
    case dsymVersion hl _ _ _ => exact .symbol hp hd hl rfl
    case dsymHeader hl hq hs => exact .header hp hd hl hq hs rfl
    case dsymLat hl _ _ => exact .symbol hp hd hl rfl
    case dsymLngThree hl _ _ _ => exact .symbol hp hd hl rfl
    case dsymLngTwo hl _ _ _ => exact .symbol hp hd hl rfl
    case dsymZ hl _ _ => exact .symbol hp hd hl rfl
    all_goals exact .keep rfl
  all_goals cases ho
  · exact .keep rfl
  · exact .reset hp rfl
  · exact .keep rfl

section Flags

variable {s t : State} (h : step s = .next t)
include h

/-- HV and OVF are cleared by DSTART and by reset alone (spec/10_state.md R45). -/
theorem step_clears_flag
    (hcleared : flagHV s.dec.flags = true ∧ flagHV t.dec.flags = false ∨
      flagOVF s.dec.flags = true ∧ flagOVF t.dec.flags = false) :
    ∃ rest, s.pending = .reset :: rest ∨
      ∃ w, s.pending = .word w :: rest ∧ decode w = .ok .dstart := by
  cases step_flagsMove h with
  | keep ht => simp [ht] at hcleared
  | reset hp => exact ⟨_, .inl hp⟩
  | start hp hd => exact ⟨_, .inr ⟨_, hp, hd⟩⟩
  | symbol _ _ _ ht =>
    rw [ht, flagHV_flagsAfter, flagOVF_flagsAfter] at hcleared
    rcases hcleared with ⟨hset, hclear⟩ | ⟨hset, hclear⟩
    · cases hset.symm.trans hclear
    · rw [hset, Bool.true_or] at hclear
      cases hclear
  | header _ _ _ _ _ ht =>
    rw [ht, flagHV_setHV, flagOVF_setHV, flagOVF_flagsAfter] at hcleared
    rcases hcleared with ⟨-, hclear⟩ | ⟨hset, hclear⟩
    · cases hclear
    · rw [hset, Bool.true_or] at hclear
      cases hclear

/-- HV is set by the terminator of the header varint alone (spec/10_state.md R45). -/
theorem step_sets_hv (hs : flagHV s.dec.flags = false) (ht : flagHV t.dec.flags = true) :
    s.dec.st = .inPhase .header ∧ ∃ w rest a q, s.pending = .word w :: rest ∧
      decode w = .ok (.dsym a) ∧ lookup a = some q ∧ q.toNat < 32 := by
  cases step_flagsMove h with
  | keep hflags => cases hs.symm.trans ((congrArg flagHV hflags).symm.trans ht)
  | reset _ hflags => rw [hflags] at ht; cases ht
  | start _ _ hflags => rw [hflags] at ht; cases ht
  | symbol _ _ _ hflags =>
    rw [hflags, flagHV_flagsAfter] at ht
    cases hs.symm.trans ht
  | header hp hd hl hq hheader => exact ⟨hheader, _, _, _, _, hp, hd, hl, hq⟩

/-- OVF is set by a symbol that drops a 1 alone (spec/10_state.md R45, spec/40_varint.md R106). -/
theorem step_sets_ovf (hs : flagOVF s.dec.flags = false) (ht : flagOVF t.dec.flags = true) :
    ∃ w rest a q, s.pending = .word w :: rest ∧ decode w = .ok (.dsym a) ∧ lookup a = some q ∧
      2 ^ 64 ≤ q.toNat % 32 * 2 ^ s.dec.shift.toNat := by
  have dropped {q : Quantity} (hovf : flagOVF (flagsAfter s.dec q) = true) :
      2 ^ 64 ≤ q.toNat % 32 * 2 ^ s.dec.shift.toNat := by
    rwa [flagOVF_flagsAfter, hs, Bool.false_or, decide_eq_true_iff] at hovf
  cases step_flagsMove h with
  | keep hflags => cases hs.symm.trans ((congrArg flagOVF hflags).symm.trans ht)
  | reset _ hflags => rw [hflags] at ht; cases ht
  | start _ _ hflags => rw [hflags] at ht; cases ht
  | symbol hp hd hl hflags => exact ⟨_, _, _, _, hp, hd, hl, dropped (hflags ▸ ht)⟩
  | header hp hd hl _ _ hflags =>
    rw [hflags, flagOVF_setHV] at ht
    exact ⟨_, _, _, _, hp, hd, hl, dropped ht⟩

end Flags

/-- Settles O42: each clause is a case split over what a step does to the flags. -/
theorem flagsSetAndClearedAsListed : Obligations.FlagsSetAndClearedAsListed := fun _ _ h =>
  ⟨step_clears_flag h, step_sets_hv h, step_sets_ovf h⟩

/-! ### The codes answered -/

/-- A unit in FAILED holds one of its codes. -/
theorem EncInv.failed_code {e : EncRegs} (h : EncInv e) (hs : e.st = .failed) :
    e.err ∈ encCodes := by
  have hlatch := h.latch
  rwa [if_pos hs] at hlatch

theorem DecInv.failed_code {d : DecRegs} (h : DecInv d) (hs : d.st = .failed) :
    d.err ∈ decCodes := by
  have hlatch := h.latch
  unfold LatchInv at hlatch
  rw [hs] at hlatch
  exact hlatch.1

/-- The data operations of ENC may refuse, and replay every code of ENC (spec/60_exceptions.md
R202). -/
theorem answerable_encData {i : Instr} (hi : (∃ a b c, i = .epoint a b c) ∨ i = .eend) :
    answerable i = .ok :: .badSequence :: encCodes := by
  rcases hi with ⟨a, b, c, rfl⟩ | rfl
  · rfl
  · rfl

/-- The data operations of DEC may refuse, and replay every code of DEC (spec/60_exceptions.md
R202). -/
theorem answerable_decData {i : Instr} (hi : (∃ a, i = .dsym a) ∨ i = .dend) :
    .badSequence ∈ answerable i ∧ ∀ e ∈ decCodes, e ∈ answerable i := by
  rcases hi with ⟨a, rfl⟩ | rfl
  · simp [answerable, decCodes]
  · simp [answerable, decCodes]

/-- The answer of an operation is one of its codes where the invariants hold. -/
theorem effect_answers_listed {i : Instr} {s t : State} {r : Response} (he : Effect i s t)
    (hinv : Inv s) (hr : t.resp = some r) : r.st ∈ answerable i := by
  obtain ⟨henc, hdec⟩ := (inv_iff_units s).1 hinv
  cases he <;> cases hr
  case estartRefused e _ hc =>
    have hcode : e ∈ encCodes := by simpa [encCodes] using hc
    exact List.mem_cons_of_mem _ hcode
  case encIdle hi _ =>
    rw [answerable_encData hi]
    exact .tail _ (.head _)
  case encFailed hi hs =>
    rw [answerable_encData hi]
    exact .tail _ (.tail _ (henc.failed_code hs))
  case decIdle hi _ => exact (answerable_decData hi).1
  case decFailed hi hs => exact (answerable_decData hi).2 _ (hdec.failed_code hs)
  case dsymInvalid | dsymVersionBad | dendUnterminated | dendTruncated | rdregBad =>
    simp [errorResponse, answerable]
  all_goals exact .head _

/-- Settles O43: every operation answers, and the cases of `Effect` answer what is listed. -/
theorem operationsAnswerListedCodes : Obligations.OperationsAnswerListedCodes := by
  intro i s hinv
  obtain ⟨t, r, he, hr, -⟩ := exec_answers i s
  exact ⟨t, r, he, hr, effect_answers_listed (exec_effect he) hinv hr⟩

/-! ### The shape of a response -/

/-- An error carries its code and at most two values (spec/60_exceptions.md R211). -/
theorem wellShaped_error (e : Status) (r0 r1 : Word) : WellShaped (errorResponse e r0 r1) :=
  ⟨fun _ => ⟨rfl, rfl, rfl⟩, fun _ => rfl, by simp [errorResponse], by simp [errorResponse]⟩

/-- An answer without symbols and with status OK. -/
theorem wellShaped_ok {r : Response} (hok : r.st = .ok) (hsyms : r.syms = []) : WellShaped r :=
  ⟨fun hne => absurd hok hne, fun _ => hsyms, by simp [hsyms], by simp [hsyms]⟩

/-- An answer without event whose symbols are varints, few enough for 39 symbols. -/
theorem wellShaped_varints {r : Response} {vs : List Word} (hok : r.st = .ok) (hev : r.ev = .none)
    (hsyms : r.syms = vs.flatMap encodeUnsigned) (hcount : vs.length ≤ 3) : WellShaped r := by
  have hlength : (vs.flatMap encodeUnsigned).length ≤ vs.length * 13 := by
    rw [List.length_flatMap]
    refine (List.sum_le_card_nsmul _ 13 ?_).trans (by simp)
    rintro n hn
    obtain ⟨v, -, rfl⟩ := List.mem_map.1 hn
    exact (length_encodeUnsigned_bounds v).2
  refine ⟨fun hne => absurd hok hne, fun hne => absurd hev hne, by rw [hsyms]; omega,
    fun c hc => ?_⟩
  rw [hsyms, List.mem_flatMap] at hc
  obtain ⟨v, -, hc⟩ := hc
  rw [encodeUnsigned_eq_chunks, List.mem_map] at hc
  obtain ⟨k, -, rfl⟩ := hc
  exact ⟨_, chunkSym_eq_alpha _ _ _⟩

/-- Every operation's response is well shaped. -/
theorem effect_wellShaped {i : Instr} {s t : State} {r : Response} (he : Effect i s t)
    (hr : t.resp = some r) : WellShaped r := by
  cases he <;> cases hr
  case uenc a => exact wellShaped_varints (vs := [a]) rfl rfl (by simp) (by simp)
  case estartOpened a b c _ =>
    exact wellShaped_varints (vs := [Config.cfgVersion,
      packHeader (precisionBits a) (kindBits b) (precisionBits c)]) rfl rfl (by simp) (by simp)
  case epointThree a b c _ _ =>
    exact wellShaped_varints (vs := [zigzagEncode (a - s.enc.plat), zigzagEncode (b - s.enc.plng),
      zigzagEncode (c - s.enc.pz)]) rfl rfl (by simp [deltaSyms]) (by simp)
  case epointTwo a b c _ _ =>
    exact wellShaped_varints (vs := [zigzagEncode (a - s.enc.plat), zigzagEncode (b - s.enc.plng)])
      rfl rfl (by simp [deltaSyms]) (by simp)
  case estartRefused | encIdle | encFailed | dsymInvalid | dsymVersionBad | dendUnterminated |
    dendTruncated | decIdle | decFailed | rdregBad => exact wellShaped_error _ _ _
  all_goals exact wellShaped_ok rfl rfl

/-- Settles O44: a step waits, resets, or delivers the response of an operation or of a rejected
word. -/
theorem stepKeepsResponsesWellShaped : Obligations.StepKeepsResponsesWellShaped := by
  intro s t h hs r hr
  rcases step_cases h with ⟨-, ho⟩ | ⟨rest, -, ho⟩ | ⟨w, rest, i, -, -, ho⟩ |
    ⟨w, rest, ⟨op⟩, -, -, ho⟩
  case inr.inr.inl => exact effect_wellShaped (exec_effect ho.symm) hr
  all_goals cases ho
  · exact hs r hr
  · cases hr
  · cases hr
    exact wellShaped_error _ _ _

end Sys2Proof.Machine

/-! ## The two units (spec/10_state.md R20, spec/20_memory.md R71, spec/70_reset_and_hazards.md
R231)

An operation of one unit does the same with any registers of the other unit in place, so runs from
states that agree on a unit give that unit's operations the same responses, whatever stands between
them. -/

namespace Sys2Proof.Machine

/-! ### One operation -/

/-- An operation of no unit or of DEC leaves ENC alone (spec/10_state.md R20). -/
theorem effect_keeps_enc {i : Instr} {s t : State} (he : Effect i s t)
    (hu : i.mnemonic.codecUnit ≠ some .enc) : t.enc = s.enc := by
  cases he
  case estartRefused | estartOpened | epointThree | epointTwo | eend => exact absurd rfl hu
  all_goals rfl

/-- An operation of no unit or of ENC leaves DEC alone (spec/10_state.md R20). -/
theorem effect_keeps_dec {i : Instr} {s t : State} (he : Effect i s t)
    (hu : i.mnemonic.codecUnit ≠ some .dec) : t.dec = s.dec := by
  cases he
  case dstart | dsymInvalid | dsymContinues | dsymVersionBad | dsymVersion | dsymHeader | dsymLat |
    dsymLngThree | dsymLngTwo | dsymZ | dendUnterminated | dendTruncated | dendComplete =>
    exact absurd rfl hu
  all_goals rfl

/-- An ENC operation does not look at DEC (spec/10_state.md R20). -/
theorem exec_enc_frame {i : Instr} {s t : State} (hu : i.mnemonic.codecUnit = some .enc)
    (h : exec i s = .next t) (d : DecRegs) :
    exec i { s with dec := d } = .next { t with dec := d } := by
  cases exec_effect h
  case estartRefused hv _ => exact exec_estart_refused hv _
  case estartOpened hv => exact exec_estart_opened hv _
  case epointThree hs hk => exact exec_epoint_three (s := { s with dec := d }) hs hk _ _ _
  case epointTwo hs hk => exact exec_epoint_two (s := { s with dec := d }) hs hk _ _ _
  case eend hs => exact exec_eend_active (s := { s with dec := d }) hs
  case encIdle hi hs => exact exec_of_enc_idle (s := { s with dec := d }) hi hs
  case encFailed hi hs => exact exec_of_enc_failed (s := { s with dec := d }) hi hs
  case decIdle hi _ => rcases hi with ⟨a, rfl⟩ | rfl <;> cases hu
  case decFailed hi _ => rcases hi with ⟨a, rfl⟩ | rfl <;> cases hu
  all_goals cases hu

/-- The end of a varint does not look at ENC. -/
theorem finishVarint_enc (p : Phase) (v : Word) (s : State) (e : EncRegs) :
    finishVarint p v { s with enc := e } = { finishVarint p v s with enc := e } := by
  cases p <;> simp only [finishVarint]
  case version => split <;> rfl
  case lng => split <;> rfl
  all_goals rfl

/-- Nor does a terminator. -/
theorem exec_dsym_terminator_frame {a : Word} {q : Quantity} {p : Phase} {s t : State}
    (hs : s.dec.st = .inPhase p) (hl : lookup a = some q) (hq : q.toNat < 32)
    (h : exec (.dsym a) s = .next t) (e : EncRegs) :
    exec (.dsym a) { s with enc := e } = .next { t with enc := e } := by
  rw [exec_dsym_terminator hs hl hq] at h
  cases h
  rw [exec_dsym_terminator (s := { s with enc := e }) hs hl hq]
  exact congrArg _ (finishVarint_enc p _ { s with dec := afterTerminator s.dec q } e)

/-- A DEC operation does not look at ENC (spec/10_state.md R20). -/
theorem exec_dec_frame {i : Instr} {s t : State} (hu : i.mnemonic.codecUnit = some .dec)
    (h : exec i s = .next t) (e : EncRegs) :
    exec i { s with enc := e } = .next { t with enc := e } := by
  cases exec_effect h
  case dstart => rfl
  case dsymInvalid hl hs => exact exec_dsym_invalid (s := { s with enc := e }) hs hl
  case dsymContinues hl hq hs => exact exec_dsym_continuing (s := { s with enc := e }) hs hl hq
  case dsymVersionBad hl hq hs _ => exact exec_dsym_terminator_frame hs hl hq h e
  case dsymVersion hl hq hs _ => exact exec_dsym_terminator_frame hs hl hq h e
  case dsymHeader hl hq hs => exact exec_dsym_terminator_frame hs hl hq h e
  case dsymLat hl hq hs => exact exec_dsym_terminator_frame hs hl hq h e
  case dsymLngThree hl hq hs _ => exact exec_dsym_terminator_frame hs hl hq h e
  case dsymLngTwo hl hq hs _ => exact exec_dsym_terminator_frame hs hl hq h e
  case dsymZ hl hq hs => exact exec_dsym_terminator_frame hs hl hq h e
  case dendUnterminated hs hp => exact exec_dend_unterminated (s := { s with enc := e }) hs hp
  case dendTruncated hp hs hz => exact exec_dend_truncated (s := { s with enc := e }) hs hp hz
  case dendComplete hs hz => exact exec_dend_complete (s := { s with enc := e }) hs hz
  case decIdle hi hs => exact exec_of_dec_idle (s := { s with enc := e }) hi hs
  case decFailed hi hs => exact exec_of_dec_failed (s := { s with enc := e }) hi hs
  case encIdle hi _ => rcases hi with ⟨a, b, c, rfl⟩ | rfl <;> cases hu
  case encFailed hi _ => rcases hi with ⟨a, b, c, rfl⟩ | rfl <;> cases hu
  all_goals cases hu

/-! ### States that agree on a unit -/

/-- Two states with the same registers of unit `u`. -/
def SameUnit : CodecUnit → State → State → Prop
  | .enc, s, t => s.enc = t.enc
  | .dec, s, t => s.dec = t.dec

theorem SameUnit.refl (u : CodecUnit) (s : State) : SameUnit u s s := by
  cases u <;> rfl

theorem SameUnit.symm {u : CodecUnit} {s t : State} (h : SameUnit u s t) : SameUnit u t s := by
  cases u <;> exact Eq.symm h

theorem SameUnit.trans {u : CodecUnit} {s t v : State} (h : SameUnit u s t) (h' : SameUnit u t v) :
    SameUnit u s v := by
  cases u <;> exact Eq.trans h h'

/-- An operation that is not `u`'s leaves unit `u` alone (spec/10_state.md R20). -/
theorem exec_keeps_unit {u : CodecUnit} {i : Instr} {s t : State} (h : exec i s = .next t)
    (hu : i.mnemonic.codecUnit ≠ some u) : SameUnit u t s := by
  cases u
  case enc => exact effect_keeps_enc (exec_effect h) hu
  case dec => exact effect_keeps_dec (exec_effect h) hu

/-- An operation of `u` answers, and leaves in `u`, what depends on `u` alone (spec/10_state.md
R20). -/
theorem exec_sameUnit {u : CodecUnit} {i : Instr} {s s' t t' : State}
    (hu : i.mnemonic.codecUnit = some u) (h : exec i s = .next t) (h' : exec i s' = .next t')
    (hs : SameUnit u s s') : SameUnit u t t' ∧ t.resp = t'.resp := by
  cases u
  case enc =>
    have hframe := exec_ports (exec_enc_frame hu h s'.dec) s'.pending s'.resp
    rw [show s.enc = s'.enc from hs] at hframe
    cases hframe.symm.trans h'
    exact ⟨rfl, rfl⟩
  case dec =>
    have hframe := exec_ports (exec_dec_frame hu h s'.enc) s'.pending s'.resp
    rw [show s.dec = s'.dec from hs] at hframe
    cases hframe.symm.trans h'
    exact ⟨rfl, rfl⟩

/-- The same for an operation with its response. -/
theorem perform_sameUnit {u : CodecUnit} {i : Instr} {s s' t : State} {r : Response}
    (hu : i.mnemonic.codecUnit = some u) (h : perform i s = some (r, t)) (hs : SameUnit u s s') :
    ∃ t', perform i s' = some (r, t') ∧ SameUnit u t t' := by
  obtain ⟨r₁, t₁, hp, he, hr, -⟩ := perform_answers i s
  obtain ⟨r', t', hp', he', hr', -⟩ := perform_answers i s'
  obtain ⟨rfl, rfl⟩ : r₁ = r ∧ t₁ = t := by simpa using hp.symm.trans h
  obtain ⟨hsame, hresp⟩ := exec_sameUnit hu he he' hs
  obtain rfl : r₁ = r' := Option.some.inj (hr.symm.trans (hresp.trans hr'))
  exact ⟨t', hp', hsame⟩

/-! ### Runs -/

/-- The operations of `u` among others get the responses they get alone (spec/20_memory.md R71). -/
theorem runOps_filter_unit {u : CodecUnit} {is : List Instr} {s s' t : State} {rs : List Response}
    (h : runOps is s = some (rs, t)) (hs : SameUnit u s s') :
    ∃ t', runOps (is.filter (fun i => i.mnemonic.codecUnit == some u)) s' =
        some (((is.zip rs).filter (fun x => x.1.mnemonic.codecUnit == some u)).map Prod.snd, t') ∧
      SameUnit u t t' := by
  induction is generalizing s s' rs with
  | nil => cases h; exact ⟨s', rfl, hs⟩
  | cons i is ih =>
    obtain ⟨r, t₁, rs', hp, ht, rfl⟩ := runOps_cons_eq_some.1 h
    by_cases hu : i.mnemonic.codecUnit = some u
    · obtain ⟨t₁', hp', hsame⟩ := perform_sameUnit hu hp hs
      obtain ⟨t', hrun, hend⟩ := ih ht hsame
      have hmine : (i.mnemonic.codecUnit == some u) = true := beq_iff_eq.2 hu
      refine ⟨t', ?_, hend⟩
      simp only [List.zip_cons_cons, List.filter_cons, hmine, ↓reduceIte, List.map_cons]
      exact runOps_cons_eq_some.2 ⟨r, t₁', _, hp', hrun, rfl⟩
    · obtain ⟨r', t₂, hp', he, -⟩ := perform_answers i s
      obtain ⟨rfl, rfl⟩ : r' = r ∧ t₂ = t₁ := by simpa using hp'.symm.trans hp
      obtain ⟨t', hrun, hend⟩ := ih ht ((exec_keeps_unit he hu).trans hs)
      have hother : (i.mnemonic.codecUnit == some u) = false := beq_eq_false_iff_ne.2 hu
      refine ⟨t', ?_, hend⟩
      simp only [List.zip_cons_cons, List.filter_cons, hother, Bool.false_eq_true, ↓reduceIte]
      exact hrun

/-- Operations of one unit alone get the same responses from states that agree on it. -/
theorem runOps_sameUnit {u : CodecUnit} {is : List Instr} {s s' t : State} {rs : List Response}
    (hu : ∀ i ∈ is, i.mnemonic.codecUnit = some u) (h : runOps is s = some (rs, t))
    (hs : SameUnit u s s') : ∃ t', runOps is s' = some (rs, t') ∧ SameUnit u t t' := by
  induction is generalizing s s' rs with
  | nil => cases h; exact ⟨s', rfl, hs⟩
  | cons i is ih =>
    obtain ⟨hi, his⟩ := List.forall_mem_cons.1 hu
    obtain ⟨r, t₁, rs', hp, ht, rfl⟩ := runOps_cons_eq_some.1 h
    obtain ⟨t₁', hp', hsame⟩ := perform_sameUnit hi hp hs
    obtain ⟨t', hrun, hend⟩ := ih his ht hsame
    exact ⟨t', runOps_cons_eq_some.2 ⟨r, t₁', rs', hp', hrun, rfl⟩, hend⟩

/-! ### Whole transactions -/

/-- The operations of `ENCODE` after its ESTART (spec/30_encoding.md R89). -/
def pointOps (pts : List Point) : List Instr :=
  pts.map (fun p => .epoint p.lat p.lng p.z) ++ [.eend]

/-- The operations of `DECODE` after its DSTART (spec/30_encoding.md R89). -/
def symbolOps (syms : List Word) : List Instr := syms.map .dsym ++ [.dend]

theorem encodeOps_eq (p2 k p3 : Word) (pts : List Point) :
    encodeOps p2 k p3 pts = .estart p2 k p3 :: pointOps pts := rfl

theorem decodeOps_eq (syms : List Word) : decodeOps syms = .dstart :: symbolOps syms := rfl

theorem mem_pointOps {pts : List Point} {i : Instr} (h : i ∈ pointOps pts) :
    (∃ a b c, i = .epoint a b c) ∨ i = .eend := by
  simp only [pointOps, List.mem_append, List.mem_map, List.mem_singleton] at h
  rcases h with ⟨p, -, rfl⟩ | rfl
  · exact .inl ⟨_, _, _, rfl⟩
  · exact .inr rfl

theorem mem_symbolOps {syms : List Word} {i : Instr} (h : i ∈ symbolOps syms) :
    (∃ a, i = .dsym a) ∨ i = .dend := by
  simp only [symbolOps, List.mem_append, List.mem_map, List.mem_singleton] at h
  rcases h with ⟨a, -, rfl⟩ | rfl
  · exact .inl ⟨_, rfl⟩
  · exact .inr rfl

theorem codecUnit_of_mem_pointOps {pts : List Point} {i : Instr} (h : i ∈ pointOps pts) :
    i.mnemonic.codecUnit = some .enc := by
  rcases mem_pointOps h with ⟨a, b, c, rfl⟩ | rfl
  · rfl
  · rfl

theorem codecUnit_of_mem_symbolOps {syms : List Word} {i : Instr} (h : i ∈ symbolOps syms) :
    i.mnemonic.codecUnit = some .dec := by
  rcases mem_symbolOps h with ⟨a, rfl⟩ | rfl
  · rfl
  · rfl

/-- An operation whose next state is known is performed with the response left there. -/
theorem perform_of_exec {i : Instr} {s t : State} {r : Response} (h : exec i s = .next t)
    (hr : t.resp = some r) : perform i s = some (r, t) := by
  simp only [perform, h, hr, Option.map_some]

/-- In FAILED every further operation of ENC is answered with the latched code
(spec/60_exceptions.md R213). -/
theorem runOps_enc_failed {is : List Instr} {s : State} {e : Status}
    (hi : ∀ i ∈ is, (∃ a b c, i = .epoint a b c) ∨ i = .eend) (hs : s.enc.st = .failed)
    (he : s.enc.err = e) :
    ∃ u, runOps is s = some (List.replicate is.length (errorResponse e 0 0), u) := by
  induction is generalizing s with
  | nil => exact ⟨s, rfl⟩
  | cons i is ih =>
    obtain ⟨hi₁, his⟩ := List.forall_mem_cons.1 hi
    have hp := perform_of_exec (exec_of_enc_failed hi₁ hs) rfl
    obtain ⟨u, hu⟩ := ih (s := { s with resp := some (errorResponse s.enc.err 0 0) }) his hs he
    exact ⟨u, runOps_cons_eq_some.2 ⟨_, _, _, hp, hu, by rw [he]; rfl⟩⟩

/-- A refused `ENCODE`: every response is the code of its ESTART (spec/44_system_and_host.md R185).
-/
theorem runOps_encodeOps_refused {p2 k p3 : Word} {e : Status} (hv : validate p2 k p3 = some e)
    (pts : List Point) (s : State) :
    ∃ u, runOps (encodeOps p2 k p3 pts) s =
      some (List.replicate (encodeOps p2 k p3 pts).length (errorResponse e 0 0), u) := by
  have hp := perform_of_exec (exec_estart_refused hv s) rfl
  obtain ⟨u, hu⟩ := runOps_enc_failed (is := pointOps pts) (e := e)
    (s := { s with
      enc := { s.enc with st := .failed, err := e }, resp := some (errorResponse e 0 0) })
    (fun _ => mem_pointOps) rfl rfl
  rw [encodeOps_eq]
  exact ⟨u, runOps_cons_eq_some.2 ⟨_, _, _, hp, hu, rfl⟩⟩

/-- An accepted ESTART answers the same from any two states, and leaves the same ENC registers. -/
theorem perform_estart_opened_any {a b c : Word} (hv : validate a b c = none) (s s' : State) :
    ∃ r t t', perform (.estart a b c) s = some (r, t) ∧ perform (.estart a b c) s' = some (r, t') ∧
      SameUnit .enc t t' :=
  ⟨_, _, _, perform_of_exec (exec_estart_opened hv s) rfl,
    perform_of_exec (exec_estart_opened hv s') rfl, rfl⟩

/-- `ENCODE` gets the same responses from any two states (spec/70_reset_and_hazards.md R231). -/
theorem runOps_encodeOps_any (p2 k p3 : Word) (pts : List Point) (s s' : State) :
    ∃ rs u u', runOps (encodeOps p2 k p3 pts) s = some (rs, u) ∧
      runOps (encodeOps p2 k p3 pts) s' = some (rs, u') := by
  cases hv : validate p2 k p3 with
  | some e =>
    obtain ⟨u, hu⟩ := runOps_encodeOps_refused hv pts s
    obtain ⟨u', hu'⟩ := runOps_encodeOps_refused hv pts s'
    exact ⟨_, u, u', hu, hu'⟩
  | none =>
    obtain ⟨r, t, t', hp, hp', hsame⟩ := perform_estart_opened_any hv s s'
    obtain ⟨rs, u, hu⟩ := runOps_answers (pointOps pts) t
    obtain ⟨u', hu', -⟩ := runOps_sameUnit (fun _ => codecUnit_of_mem_pointOps) hu hsame
    rw [encodeOps_eq]
    exact ⟨r :: rs, u, u', runOps_cons_eq_some.2 ⟨r, t, rs, hp, hu, rfl⟩,
      runOps_cons_eq_some.2 ⟨r, t', rs, hp', hu', rfl⟩⟩

/-- `DECODE` gets the same responses from any two states, and leaves the same DEC registers
(spec/70_reset_and_hazards.md R231). -/
theorem runOps_decodeOps_any (syms : List Word) (s s' : State) :
    ∃ rs u u', runOps (decodeOps syms) s = some (rs, u) ∧
      runOps (decodeOps syms) s' = some (rs, u') ∧ u.dec = u'.dec := by
  obtain ⟨r, t, t', hp, hp', hsame⟩ : ∃ r t t', perform .dstart s = some (r, t) ∧
      perform .dstart s' = some (r, t') ∧ SameUnit .dec t t' :=
    ⟨_, _, _, perform_dstart s, perform_dstart s', rfl⟩
  obtain ⟨rs, u, hu⟩ := runOps_answers (symbolOps syms) t
  obtain ⟨u', hu', hend⟩ := runOps_sameUnit (fun _ => codecUnit_of_mem_symbolOps) hu hsame
  rw [decodeOps_eq]
  exact ⟨r :: rs, u, u', runOps_cons_eq_some.2 ⟨r, t, rs, hp, hu, rfl⟩,
    runOps_cons_eq_some.2 ⟨r, t', rs, hp', hu', rfl⟩, hend⟩

/-! ### The statements -/

/-- Settles O48: what a unit's operations leave alone, and what they depend on. -/
theorem unitsShareNoState : Obligations.UnitsShareNoState := fun _ _ _ _ _ h h' =>
  ⟨exec_keeps_unit h (u := .enc), exec_keeps_unit h (u := .dec),
    fun hu hs => exec_sameUnit hu h h' hs, fun hu hs => exec_sameUnit hu h h' hs⟩

/-- Settles O49: the run of all operations, and the run of those of one unit from the same state. -/
theorem interleavedUnitsDoNotInterfere : Obligations.InterleavedUnitsDoNotInterfere := by
  intro u is s mine
  obtain ⟨rs, t, hrun⟩ := runOps_answers is s
  obtain ⟨t', hrun', hend⟩ := runOps_filter_unit hrun (SameUnit.refl u s)
  refine ⟨rs, t, _, t', hrun, hrun', rfl, fun hu => ?_, fun hu => ?_⟩
  · subst hu
    exact hend.symm
  · subst hu
    exact hend.symm

/-- Settles O50: ESTART and DSTART write what they do not refuse, and the stateless operations look
at no register. -/
theorem transactionsIgnoreStartState : Obligations.TransactionsIgnoreStartState := by
  refine ⟨runOps_encodeOps_any, runOps_decodeOps_any, fun i s s' hi => ?_⟩
  cases i <;> simp [Instr.mnemonic] at hi
  case zze => exact ⟨_, _, _, rfl, rfl⟩
  case zzd => exact ⟨_, _, _, rfl, rfl⟩
  case uenc => exact ⟨_, _, _, rfl, rfl⟩

end Sys2Proof.Machine

/-! ## The encode transaction (spec/44_system_and_host.md R185, spec/60_exceptions.md R212)

The outcome of a transaction is read from its responses: the first error, or what the responses
carry. An accepted ESTART leaves ENC ready for points from the origin, and from there each EPOINT
emits the symbols of one round of the reference encoder's loop. -/

namespace Sys2Proof.Machine

/-! ### Reading responses -/

theorem firstError_cons_ok {r : Response} (h : r.st = .ok) (rs : List Response) :
    firstError (r :: rs) = firstError rs := by
  simp [firstError, h]

theorem firstError_cons_error {r : Response} (h : r.st ≠ .ok) (rs : List Response) :
    firstError (r :: rs) = some r.st := by
  simp [firstError, h]

/-- Responses that are OK do not hide an error after them. -/
theorem firstError_append_ok {rs : List Response} (h : ∀ r ∈ rs, r.st = .ok)
    (rs' : List Response) : firstError (rs ++ rs') = firstError rs' := by
  induction rs with
  | nil => rfl
  | cons r rs ih =>
    obtain ⟨hr, hrs⟩ := List.forall_mem_cons.1 h
    rw [List.cons_append, firstError_cons_ok hr, ih hrs]

theorem firstError_eq_none_iff {rs : List Response} :
    firstError rs = none ↔ ∀ r ∈ rs, r.st = .ok := by
  simp [firstError]

theorem emitted_cons (r : Response) (rs : List Response) :
    emitted (r :: rs) = r.syms ++ emitted rs := List.flatMap_cons

theorem emitted_append (rs rs' : List Response) :
    emitted (rs ++ rs') = emitted rs ++ emitted rs' := List.flatMap_append

/-! ### The points of an encode transaction -/

/-- ENC in the middle of a transaction of kind operand `k`, the last point being `prev`
(spec/43_point_stream.md R150). -/
structure Encoding (k : Word) (prev : Point) (s : State) : Prop where
  active : s.enc.st = .active
  kind_iff : s.enc.kind = 0 ↔ k = 0
  lat : s.enc.plat = prev.lat
  lng : s.enc.plng = prev.lng
  z : k ≠ 0 → s.enc.pz = prev.z

/-- The symbols of one point after `prev` (spec/43_point_stream.md R150, R151). -/
def pointSyms (k : Word) (prev p : Point) : List Sym :=
  deltaSyms p.lat prev.lat ++ deltaSyms p.lng prev.lng ++
    if k ≠ 0 then deltaSyms p.z prev.z else []

theorem encodePoints_cons (k : Word) (prev p : Point) (rest : List Point) :
    encodePoints k prev (p :: rest) = pointSyms k prev p ++ encodePoints k p rest := rfl

/-- A point is answered with the symbols of one round of the reference encoder
(spec/44_system_and_host.md R185). -/
theorem perform_epoint {k : Word} {prev : Point} {s : State} (h : Encoding k prev s) (p : Point) :
    ∃ r t, perform (.epoint p.lat p.lng p.z) s = some (r, t) ∧ r.st = .ok ∧
      r.syms = pointSyms k prev p ∧ Encoding k p t := by
  by_cases hk : k = 0
  · refine ⟨_, _, perform_of_exec
      (exec_epoint_two h.active (h.kind_iff.2 hk) p.lat p.lng p.z) rfl, rfl, ?_,
      ⟨h.active, h.kind_iff, rfl, rfl, fun hne => absurd hk hne⟩⟩
    simp only [pointSyms, if_neg (not_not_intro hk), List.append_nil, h.lat, h.lng]
  · refine ⟨_, _, perform_of_exec
      (exec_epoint_three h.active (mt h.kind_iff.1 hk) p.lat p.lng p.z) rfl, rfl, ?_,
      ⟨h.active, h.kind_iff, rfl, rfl, fun _ => rfl⟩⟩
    simp only [pointSyms, if_pos hk, h.lat, h.lng, h.z hk]

/-- The points and EEND are answered OK, with the symbols of the reference encoder's loop. -/
theorem runOps_pointOps {k : Word} {prev : Point} {s : State} (h : Encoding k prev s)
    (pts : List Point) :
    ∃ rs u, runOps (pointOps pts) s = some (rs, u) ∧ (∀ r ∈ rs, r.st = .ok) ∧
      emitted rs = encodePoints k prev pts := by
  induction pts generalizing prev s with
  | nil =>
    have hp := perform_of_exec (exec_eend_active h.active) rfl
    exact ⟨[okResponse], _, runOps_cons_eq_some.2 ⟨_, _, [], hp, rfl, rfl⟩,
      List.forall_mem_singleton.2 rfl, rfl⟩
  | cons p pts ih =>
    obtain ⟨r, t, hp, hok, hsyms, ht⟩ := perform_epoint h p
    obtain ⟨rs, u, hrun, hoks, hemit⟩ := ih ht
    exact ⟨r :: rs, u, runOps_cons_eq_some.2 ⟨r, t, rs, hp, hrun, rfl⟩,
      List.forall_mem_cons.2 ⟨hok, hoks⟩, by rw [emitted_cons, hemit, hsyms, encodePoints_cons]⟩

/-- The third axis is absent in the register exactly when it is in the operand
(spec/42_header.md R136). -/
theorem kindBits_eq_zero_iff {a b c : Word} (h : validate a b c = none) :
    kindBits b = 0 ↔ b = 0 := by
  obtain ⟨hb, -⟩ := kindBits_of_validate h
  rw [← BitVec.toNat_inj, ← BitVec.toNat_inj, kindBits_eq_ofNat, BitVec.toNat_ofNat,
    Nat.mod_eq_of_lt (by omega)]
  rfl

/-- An accepted ESTART emits version and header and leaves ENC at the origin
(spec/42_header.md R136). -/
theorem perform_estart_opened {p2 k p3 : Word} (hv : validate p2 k p3 = none) (s : State) :
    ∃ r t, perform (.estart p2 k p3) s = some (r, t) ∧ r.st = .ok ∧
      r.syms = encodeUnsigned 1
        ++ encodeUnsigned (packHeader (precisionBits p2) (kindBits k) (precisionBits p3)) ∧
      Encoding k { lat := 0, lng := 0, z := 0 } t :=
  ⟨_, _, perform_of_exec (exec_estart_opened hv s) rfl, rfl, rfl,
    ⟨rfl, kindBits_eq_zero_iff hv, rfl, rfl, fun _ => rfl⟩⟩

/-- An accepted `ENCODE` is answered OK throughout, and emits the reference encoder's string. -/
theorem runOps_encodeOps_opened {p2 k p3 : Word} (hv : validate p2 k p3 = none) (pts : List Point)
    (s : State) :
    ∃ rs u, runOps (encodeOps p2 k p3 pts) s = some (rs, u) ∧ (∀ r ∈ rs, r.st = .ok) ∧
      encodeInts p2 k p3 pts = .ok (emitted rs) := by
  obtain ⟨r, t, hp, hok, hsyms, ht⟩ := perform_estart_opened hv s
  obtain ⟨rs, u, hrun, hoks, hemit⟩ := runOps_pointOps ht pts
  rw [encodeOps_eq]
  refine ⟨r :: rs, u, runOps_cons_eq_some.2 ⟨r, t, rs, hp, hrun, rfl⟩,
    List.forall_mem_cons.2 ⟨hok, hoks⟩, ?_⟩
  rw [emitted_cons, hemit, hsyms]
  simp only [encodeInts, hv]

/-- `ENCODE` gives the reference encoder's result from every state (spec/44_system_and_host.md
R185). -/
theorem runEncode_eq_encodeInts (p2 k p3 : Word) (pts : List Point) (s : State) :
    runEncode p2 k p3 pts s = some (encodeInts p2 k p3 pts) := by
  cases hv : validate p2 k p3 with
  | none =>
    obtain ⟨rs, u, hrun, hoks, henc⟩ := runOps_encodeOps_opened hv pts s
    rw [runEncode_eq hrun, firstError_eq_none_iff.2 hoks, henc]
  | some e =>
    obtain ⟨u, hrun⟩ := runOps_encodeOps_refused hv pts s
    have hne : (errorResponse e 0 0).st ≠ .ok := by
      rcases validate_codes hv with rfl | rfl | rfl
      · nofun
      · nofun
      · nofun
    have hfirst : firstError (List.replicate (encodeOps p2 k p3 pts).length (errorResponse e 0 0))
        = some e := firstError_cons_error hne _
    rw [runEncode_eq hrun, hfirst]
    simp only [encodeInts, hv]

/-! ### The statements -/

/-- Settles O51: the reference encoder's result, and a refused ESTART replayed to the end. -/
theorem encodeTransactionComputesEncodeInts : Obligations.EncodeTransactionComputesEncodeInts := by
  intro p2 k p3 pts s
  refine ⟨runEncode_eq_encodeInts p2 k p3 pts s, fun e hv => ?_⟩
  obtain ⟨u, hrun⟩ := runOps_encodeOps_refused hv pts s
  refine ⟨_, u, hrun, fun r hr => ?_⟩
  rw [List.eq_of_mem_replicate hr]
  exact ⟨rfl, rfl⟩

end Sys2Proof.Machine

/-! ## One varint on the block (spec/40_varint.md R105, spec/43_point_stream.md R160)

What a run of DSYMs does with one varint: every symbol but the last is answered without event, and
the last ends the varint with the value the reference decoder reads. Where the reference decoder
fails, the block fails with the same code, at the symbol or at the DEND after it. -/

namespace Sys2Proof.Machine

/-! ### A varint that ends -/

/-- The payload placed at `DEC_SHIFT` is the payload shifted, as in the reference decoder
(spec/40_varint.md R102, R105). -/
theorem assembled_eq_shiftLeft (d : DecRegs) (q : Quantity) :
    assembled d q = d.vacc ||| (BitVec.ofNat 64 (q.toNat % 32) <<< d.shift.toNat) := by
  rw [assembled]
  congr 1
  apply BitVec.eq_of_toNat_eq
  simp only [BitVec.toNat_ofNat, BitVec.toNat_shiftLeft, Nat.shiftLeft_eq, Nat.mod_mul_mod]

/-- Responses without event, symbols or values, as inside a varint. -/
def Silent (rs : List Response) : Prop := ∀ r ∈ rs, r = okResponse

/-- The symbols `l` take the block from `s` to `u` by one whole varint of value `v` in phase `p`:
only the last of them has a response to tell, and finishes the varint on the registers as they were.
-/
structure VarintRun (p : Phase) (v : Word) (l : List Word) (s u : State) : Prop where
  answers : ∃ rs r, runOps (l.map .dsym) s = some (rs ++ [r], u) ∧ Silent rs ∧ u.resp = some r
  finishes : ∃ t pos flags, u = finishVarint p v t ∧
    t.dec = { s.dec with vacc := 0, shift := 0, pos := pos, flags := flags }

/-- The end of a varint leaves OVF alone (spec/10_state.md R45). -/
theorem finishVarint_ovf (p : Phase) (v : Word) (s : State) :
    flagOVF (finishVarint p v s).dec.flags = flagOVF s.dec.flags := by
  cases p <;> simp only [finishVarint]
  case version =>
    split
    · rw [raise_dec (e := .unsupportedVersion) rfl]
    · rfl
  case header => exact flagOVF_setHV _
  case lat => rfl
  case lng => split <;> rfl
  case z => rfl

/-- The symbols of a varint, continuing but the last, are one varint of the value their payloads are
digits of; OVF is left alone when the value fits (spec/40_varint.md R105, R106). -/
theorem varintRun_of_quantities {p : Phase} {qs : List Quantity} {q : Quantity}
    (hqs : ∀ x ∈ qs, 32 ≤ x.toNat) (hq : q.toNat < 32) {s : State} (hs : s.dec.st = .inPhase p) :
    ∃ u, VarintRun p
        (s.dec.vacc ||| (BitVec.ofNat 64 (payloadValue (qs ++ [q])) <<< s.dec.shift.toNat))
        (codePoints ((qs ++ [q]).map alpha)) s u ∧
      (payloadValue (qs ++ [q]) * 2 ^ s.dec.shift.toNat < 2 ^ 64 →
        flagOVF u.dec.flags = flagOVF s.dec.flags) := by
  induction qs generalizing s with
  | nil =>
    have hexec := exec_dsym_terminator hs (lookup_alpha q) hq
    obtain ⟨⟨r, hr⟩, -⟩ := finishVarint_answers p (assembled s.dec q)
      { s with dec := afterTerminator s.dec q }
    rw [List.nil_append, payloadValue_singleton, ← assembled_eq_shiftLeft]
    refine ⟨_, ⟨⟨[], r, ?_, nofun, hr⟩, _, _, _, rfl, rfl⟩, fun hfit => ?_⟩
    · exact runOps_cons_eq_some.2 ⟨r, _, [], perform_of_exec hexec hr, rfl, rfl⟩
    · rw [finishVarint_ovf]
      exact congrArg flagOVF (flagsAfter_of_lt hfit)
  | cons x qs ih =>
    obtain ⟨hx, hqs'⟩ := List.forall_mem_cons.1 hqs
    have hp := perform_of_exec (exec_dsym_continuing hs (lookup_alpha x) hx) rfl
    obtain ⟨u, ⟨⟨rs, r, hrun, hsilent, hr⟩, t, pos, flags, hu, ht⟩, hovf⟩ := ih hqs'
      (s := { s with
        dec := { s.dec with
          pos := s.dec.pos + 1, vacc := assembled s.dec x, flags := flagsAfter s.dec x
          shift := BitVec.ofNat 7 (min (s.dec.shift.toNat + 5) 65) }
        resp := some okResponse }) hs
    dsimp only at hu hovf
    rw [nextShift_toNat] at hu hovf
    rw [List.cons_append, payloadValue_cons_shiftLeft, ← BitVec.or_assoc, ← assembled_eq_shiftLeft,
      ← shiftLeft_min_shiftMax _ (s.dec.shift.toNat + 5)]
    refine ⟨u, ⟨⟨okResponse :: rs, r, ?_, List.forall_mem_cons.2 ⟨rfl, hsilent⟩, hr⟩,
      t, pos, flags, hu, ht⟩, fun hfit => ?_⟩
    · exact runOps_cons_eq_some.2 ⟨_, _, _, hp, hrun, rfl⟩
    · rw [payloadValue_cons, Nat.add_mul] at hfit
      have hfirst : x.toNat % 32 * 2 ^ s.dec.shift.toNat < 2 ^ 64 := by omega
      have hrest : payloadValue (qs ++ [q]) * 2 ^ min (s.dec.shift.toNat + 5) 65 < 2 ^ 64 := calc
        _ ≤ payloadValue (qs ++ [q]) * 2 ^ (s.dec.shift.toNat + 5) :=
          Nat.mul_le_mul_left _ (Nat.pow_le_pow_right (by decide) (Nat.min_le_left _ _))
        _ = 32 * payloadValue (qs ++ [q]) * 2 ^ s.dec.shift.toNat := by rw [Nat.pow_add]; ring
        _ < 2 ^ 64 := by omega
      rw [hovf hrest, flagsAfter_of_lt hfirst]

/-- The quantities of an encoding, as digits of the value (spec/40_varint.md R100). -/
theorem quantities_of_encodeUnsigned (v : Word) : ∃ (qs : List Quantity) (q : Quantity),
    encodeUnsigned v = (qs ++ [q]).map alpha ∧ (∀ x ∈ qs, 32 ≤ x.toNat) ∧ q.toNat < 32 ∧
    payloadValue (qs ++ [q]) = v.toNat := by
  have hdecode := decodeUnsignedInvertsEncodeUnsigned v []
  obtain ⟨qs, q, rest, hs, hqs, hq, hlen, hv⟩ := decodeUnsigned_ok hdecode
  rw [List.drop_zero, List.append_nil] at hs
  have hrest : rest = [] := by
    have hcount := congrArg List.length hs
    simp only [codePoints, List.length_map, List.length_append, List.length_singleton] at hcount
    exact List.length_eq_zero_iff.1 (by omega)
  rw [hrest, List.append_nil] at hs
  have hsyms := codePoints_injective hs
  obtain ⟨hmax, -, htop⟩ := canonical_of_encodeUnsigned hsyms
  refine ⟨qs, q, hsyms, hqs, hq, ?_⟩
  rw [hv, BitVec.toNat_ofNat, Nat.mod_eq_of_lt (payloadValue_fits hmax htop)]

/-- DEC in phase `p` with no varint in progress, the kind of the header and the accumulators
(spec/43_point_stream.md R160). -/
structure DecAt (p : Phase) (kind : BitVec 3) (acc : Point) (s : State) : Prop where
  st : s.dec.st = .inPhase p
  kind_eq : s.dec.kind = kind
  lat : s.dec.lat = acc.lat
  lng : s.dec.lng = acc.lng
  z : s.dec.z = acc.z
  vacc : s.dec.vacc = 0
  shift : s.dec.shift = 0

/-- What a terminator does before the phase uses the value keeps all that. -/
theorem DecAt.cleared {p : Phase} {kind : BitVec 3} {acc : Point} {s t : State} {pos : Word}
    {flags : BitVec 2} (h : DecAt p kind acc s)
    (ht : t.dec = { s.dec with vacc := 0, shift := 0, pos := pos, flags := flags }) :
    DecAt p kind acc t := by
  obtain ⟨hst, hkind, hlat, hlng, hz, -, -⟩ := h
  refine ⟨?_, ?_, ?_, ?_, ?_, ?_, ?_⟩ <;> rw [ht]
  · exact hst
  · exact hkind
  · exact hlat
  · exact hlng
  · exact hz

theorem DecAt.shift_toNat {p : Phase} {kind : BitVec 3} {acc : Point} {s : State}
    (h : DecAt p kind acc s) : s.dec.shift.toNat = 0 := by
  rw [h.shift]
  rfl

/-- From the start of a varint its value is what is placed. -/
theorem DecAt.placed {p : Phase} {kind : BitVec 3} {acc : Point} {s : State}
    (h : DecAt p kind acc s) (v : Word) : s.dec.vacc ||| (v <<< s.dec.shift.toNat) = v := by
  rw [h.vacc, h.shift_toNat, BitVec.shiftLeft_zero]
  exact BitVec.zero_or

section Varints

variable {p : Phase} {kind : BitVec 3} {acc : Point} {s : State} (h : DecAt p kind acc s)
include h

/-- An encoded value is one varint of that value, and drops nothing (spec/40_varint.md R109). -/
theorem varintRun_encodeUnsigned (v : Word) :
    ∃ u, VarintRun p v (codePoints (encodeUnsigned v)) s u ∧
      flagOVF u.dec.flags = flagOVF s.dec.flags := by
  obtain ⟨qs, q, hsyms, hqs, hq, hvalue⟩ := quantities_of_encodeUnsigned v
  obtain ⟨u, hrun, hovf⟩ := varintRun_of_quantities hqs hq h.st
  have hfit : v.toNat * 2 ^ s.dec.shift.toNat < 2 ^ 64 := by
    rw [h.shift_toNat, Nat.pow_zero, Nat.mul_one]
    exact v.isLt
  rw [h.placed, hvalue, BitVec.ofNat_toNat, BitVec.setWidth_eq] at hrun
  rw [hvalue] at hovf
  exact ⟨u, hsyms ▸ hrun, hovf hfit⟩

/-- What the reference decoder reads as a varint is one on the block (spec/40_varint.md R102). -/
theorem varintRun_of_readValue {str : List Word} {i n : Nat} {v : Word}
    (hread : readValue str i = .ok (v, n)) :
    0 < n ∧ i + n ≤ str.length ∧
      ∃ l u, str.drop i = l ++ str.drop (i + n) ∧ VarintRun p v l s u := by
  unfold readValue at hread
  split at hread
  case h_2 => cases hread
  case h_1 x hdecode =>
    cases hread
    obtain ⟨qs, q, rest, hdrop, hqs, hq, rfl, rfl⟩ := decodeUnsigned_ok hdecode
    obtain ⟨u, hrun, -⟩ := varintRun_of_quantities hqs hq h.st
    rw [h.placed] at hrun
    have hlen : (codePoints ((qs ++ [q]).map alpha)).length = qs.length + 1 := by
      simp [codePoints]
    have hcount := congrArg List.length hdrop
    rw [List.length_drop, List.length_append, hlen] at hcount
    refine ⟨Nat.succ_pos _, by omega, _, u, ?_, hrun⟩
    rw [← List.drop_drop, hdrop, ← hlen, List.drop_left]

end Varints

/-! ### A varint that fails -/

/-- The symbols `l`, and DEND after them, fail with code `e`: at a symbol, when all before it tell
nothing, or at DEND (spec/43_point_stream.md R160, R165). -/
inductive Fails (e : Status) (l : List Word) (s : State) : Prop where
  | atSymbol {pre rest : List Word} {rs : List Response} {r : Response} {u : State}
      (hl : l = pre ++ rest) (hrun : runOps (pre.map .dsym) s = some (rs ++ [r], u))
      (hsilent : Silent rs) (hr : r.st = e) (he : e ≠ .ok)
  | atDend {rs : List Response} {r : Response} {u u' : State}
      (hrun : runOps (l.map .dsym) s = some (rs, u)) (hsilent : Silent rs)
      (hdend : perform .dend u = some (r, u')) (hr : r.st = e) (he : e ≠ .ok)

/-- Symbols in two parts, the second from where the first ends. -/
theorem runOps_two {is js : List Instr} {s u w : State} {rs rs' : List Response}
    (h : runOps is s = some (rs, u)) (h' : runOps js u = some (rs', w)) :
    runOps (is ++ js) s = some (rs ++ rs', w) := by
  rw [runOps_append, h, Option.bind_some, h', Option.map_some]

/-- Symbols that tell nothing in front of a failure. -/
theorem Fails.prepend {e : Status} {l l' : List Word} {s u : State} {rs : List Response}
    (hrun : runOps (l.map .dsym) s = some (rs, u)) (hsilent : Silent rs) (h : Fails e l' u) :
    Fails e (l ++ l') s := by
  cases h with
  | @atSymbol pre rest rs' r w hl hrun' hsilent' hr he =>
    have hboth : runOps ((l ++ pre).map .dsym) s = some (rs ++ rs' ++ [r], w) := by
      rw [List.map_append, List.append_assoc]
      exact runOps_two hrun hrun'
    exact .atSymbol (rest := rest) (by rw [hl, List.append_assoc]) hboth
      (List.forall_mem_append.2 ⟨hsilent, hsilent'⟩) hr he
  | @atDend rs' r w w' hrun' hsilent' hdend hr he =>
    have hboth : runOps ((l ++ l').map .dsym) s = some (rs ++ rs', w) := by
      rw [List.map_append]
      exact runOps_two hrun hrun'
    exact .atDend hboth (List.forall_mem_append.2 ⟨hsilent, hsilent'⟩) hdend hr he

/-- Where the reference decoder fails inside a varint the block fails with its code, unless there is
no symbol at all and the phase is past the header (spec/40_varint.md R102, R105,
spec/43_point_stream.md R165). -/
theorem fails_of_decodeLoop {p : Phase} {l : List Word} {s : State} {i : Nat} {e : VarintFailure}
    (hs : s.dec.st = .inPhase p)
    (h : decodeLoop s.dec.vacc s.dec.shift.toNat i l = .error e)
    (hopen : l ≠ [] ∨ p = .version ∨ p = .header ∨ s.dec.shift ≠ 0) :
    Fails (varintStatus e) l s := by
  induction l generalizing s i with
  | nil =>
    cases h
    have hcut := hopen.resolve_left (not_not_intro rfl)
    exact .atDend rfl nofun (perform_of_exec (exec_dend_unterminated hs hcut) rfl) rfl nofun
  | cons c l ih =>
    cases hl : lookup c with
    | none =>
      simp only [decodeLoop, hl] at h
      cases h
      have hp := perform_of_exec (exec_dsym_invalid hs hl) rfl
      exact .atSymbol (pre := [c]) (rs := []) rfl
        (runOps_cons_eq_some.2 ⟨_, _, [], hp, rfl, rfl⟩) nofun rfl nofun
    | some q =>
      rw [decodeLoop_cons hl, zext64_payload] at h
      split at h
      case isFalse => cases h
      case isTrue hq =>
        have hp := perform_of_exec (exec_dsym_continuing hs hl hq) rfl
        refine Fails.prepend (l := [c]) (runOps_cons_eq_some.2 ⟨_, _, [], hp, rfl, rfl⟩)
          (List.forall_mem_singleton.2 rfl) (ih (i := i + 1) hs ?_ ?_)
        · rwa [assembled_eq_shiftLeft, nextShift_toNat]
        · exact .inr (.inr (.inr (nextShift_ne_zero s.dec.shift.toNat)))

theorem readValue_error {str : List Word} {i : Nat} {e : Status}
    (h : readValue str i = .error e) :
    ∃ f, decodeLoop 0 0 i (str.drop i) = .error f ∧ varintStatus f = e := by
  unfold readValue at h
  split at h
  case h_1 => cases h
  case h_2 f hdecode =>
    unfold decodeUnsigned at hdecode
    split at hdecode
    case h_1 => cases hdecode
    case h_2 f' hloop =>
      cases hdecode
      exact ⟨f, hloop, Except.error.inj h⟩

/-- The same for a varint of a whole string (spec/43_point_stream.md R171). -/
theorem fails_of_readValue {p : Phase} {kind : BitVec 3} {acc : Point} {s : State}
    (h : DecAt p kind acc s) {str : List Word} {i : Nat} {e : Status}
    (hread : readValue str i = .error e) (hopen : i < str.length ∨ p = .version ∨ p = .header) :
    Fails e (str.drop i) s := by
  obtain ⟨f, hloop, rfl⟩ := readValue_error hread
  refine fails_of_decodeLoop h.st (i := i) ?_ ?_
  · rwa [h.vacc, h.shift_toNat]
  · rcases hopen with hi | hp | hp
    · exact .inl (mt List.drop_eq_nil_iff.1 (Nat.not_le.2 hi))
    · exact .inr (.inl hp)
    · exact .inr (.inr (.inl hp))

end Sys2Proof.Machine

/-! ## The decode transaction (spec/43_point_stream.md R171, spec/44_system_and_host.md R187)

Version and header are two varints, a point is two or three, and the block reads them where the
reference decoder does. A point either fails with the reference's code or is delivered in one POINT
event with the accumulators of the next round. The outcome of `DECODE` and of a peek is then read
from the responses. -/

namespace Sys2Proof.Machine

/-! ### Symbols that are answered OK -/

theorem Silent.ok {rs : List Response} (h : Silent rs) : ∀ r ∈ rs, r.st = .ok := by
  intro r hr
  rw [h r hr]
  rfl

theorem pointEvents_append (rs rs' : List Response) :
    pointEvents (rs ++ rs') = pointEvents rs ++ pointEvents rs' := by
  simp only [pointEvents, List.filter_append, List.map_append]

theorem Silent.pointEvents {rs : List Response} (h : Silent rs) : pointEvents rs = [] := by
  have hnone : rs.filter (fun r => r.ev == .point) = [] := by
    refine List.filter_eq_nil_iff.2 fun r hr => ?_
    rw [h r hr]
    decide
  rw [Machine.pointEvents, hnone, List.map_nil]

/-- The symbols `l` take the block from `s` to `u`, all answered OK, and deliver the points `pts`.
-/
def Runs (l : List Word) (s : State) (pts : List Point) (u : State) : Prop :=
  ∃ rs, runOps (l.map .dsym) s = some (rs, u) ∧ (∀ r ∈ rs, r.st = .ok) ∧ pointEvents rs = pts

theorem Runs.append {l l' : List Word} {s u w : State} {pts pts' : List Point}
    (h : Runs l s pts u) (h' : Runs l' u pts' w) : Runs (l ++ l') s (pts ++ pts') w := by
  obtain ⟨rs, hrun, hok, rfl⟩ := h
  obtain ⟨rs', hrun', hok', rfl⟩ := h'
  refine ⟨rs ++ rs', ?_, List.forall_mem_append.2 ⟨hok, hok'⟩, pointEvents_append rs rs'⟩
  rw [List.map_append]
  exact runOps_two hrun hrun'

/-- A whole varint that ends OK delivers what its last response does. -/
theorem VarintRun.runs {p : Phase} {v : Word} {l : List Word} {s u : State} {r : Response}
    (h : VarintRun p v l s u) (hr : u.resp = some r) (hok : r.st = .ok) :
    Runs l s (pointEvents [r]) u := by
  obtain ⟨rs, r', hrun, hsilent, hr'⟩ := h.answers
  obtain rfl : r' = r := Option.some.inj (hr'.symm.trans hr)
  refine ⟨rs ++ [r'], hrun, ?_, ?_⟩
  · exact List.forall_mem_append.2 ⟨hsilent.ok, List.forall_mem_singleton.2 hok⟩
  · rw [pointEvents_append, hsilent.pointEvents, List.nil_append]

/-! ### The varints by phase -/

section Phases

variable {kind : BitVec 3} {acc : Point} {v : Word} {l : List Word} {s u : State}

/-- Version 1 tells nothing and opens phase HEADER. -/
theorem VarintRun.version (h : VarintRun .version 1 l s u) (hs : DecAt .version kind acc s) :
    (∃ rs, runOps (l.map .dsym) s = some (rs, u) ∧ Silent rs) ∧ DecAt .header kind acc u := by
  obtain ⟨t, pos, flags, rfl, ht⟩ := h.finishes
  obtain ⟨rs, r, hrun, hsilent, hr⟩ := h.answers
  have ht' := hs.cleared ht
  cases hr
  exact ⟨⟨_, hrun, List.forall_mem_append.2 ⟨hsilent, List.forall_mem_singleton.2 rfl⟩⟩,
    ⟨rfl, ht'.kind_eq, ht'.lat, ht'.lng, ht'.z, ht'.vacc, ht'.shift⟩⟩

/-- Another version fails with its last symbol. -/
theorem VarintRun.version_unsupported (h : VarintRun .version v l s u) (hv : v ≠ 1)
    (rest : List Word) : Fails .unsupportedVersion (l ++ rest) s := by
  obtain ⟨t, pos, flags, rfl, -⟩ := h.finishes
  obtain ⟨rs, r, hrun, hsilent, hr⟩ := h.answers
  rw [finishVarint_version_unsupported hv] at hr
  cases hr
  exact .atSymbol rfl hrun hsilent rfl nofun

/-- The header tells its fields and opens phase LAT. -/
theorem VarintRun.header (h : VarintRun .header v l s u) (hs : DecAt .header kind acc s) :
    u.resp = some (headerResponse (unpackHeader v)) ∧ flagHV u.dec.flags = true ∧
      DecAt .lat (unpackHeader v).kind acc u := by
  obtain ⟨t, pos, flags, rfl, ht⟩ := h.finishes
  have ht' := hs.cleared ht
  exact ⟨rfl, flagHV_setHV _, ⟨rfl, rfl, ht'.lat, ht'.lng, ht'.z, ht'.vacc, ht'.shift⟩⟩

/-- A latitude delivers nothing yet. -/
theorem VarintRun.lat (h : VarintRun .lat v l s u) (hs : DecAt .lat kind acc s) :
    Runs l s [] u ∧ DecAt .lng kind { acc with lat := acc.lat + zigzagDecode v } u := by
  obtain ⟨t, pos, flags, rfl, ht⟩ := h.finishes
  have ht' := hs.cleared ht
  exact ⟨h.runs rfl rfl, ⟨rfl, ht'.kind_eq, congrArg (· + zigzagDecode v) ht'.lat, ht'.lng, ht'.z,
    ht'.vacc, ht'.shift⟩⟩

/-- Nor does a longitude with a third axis to come. -/
theorem VarintRun.lng_three (h : VarintRun .lng v l s u) (hs : DecAt .lng kind acc s)
    (hk : kind ≠ 0) :
    Runs l s [] u ∧ DecAt .z kind { acc with lng := acc.lng + zigzagDecode v } u := by
  obtain ⟨t, pos, flags, rfl, ht⟩ := h.finishes
  have ht' := hs.cleared ht
  have hkind : t.dec.kind ≠ 0 := ht'.kind_eq.symm ▸ hk
  rw [finishVarint_lng_three hkind] at h ⊢
  exact ⟨h.runs rfl rfl, ⟨rfl, ht'.kind_eq, ht'.lat, congrArg (· + zigzagDecode v) ht'.lng, ht'.z,
    ht'.vacc, ht'.shift⟩⟩

/-- A longitude without a third axis delivers the point. -/
theorem VarintRun.lng_two (h : VarintRun .lng v l s u) (hs : DecAt .lng kind acc s)
    (hk : kind = 0) :
    Runs l s [{ acc with lng := acc.lng + zigzagDecode v }] u ∧
      DecAt .lat kind { acc with lng := acc.lng + zigzagDecode v } u := by
  obtain ⟨t, pos, flags, rfl, ht⟩ := h.finishes
  have ht' := hs.cleared ht
  rw [finishVarint_lng_two (ht'.kind_eq.trans hk)] at h ⊢
  have hrun := h.runs rfl rfl
  rw [ht'.lat, ht'.lng, ht'.z] at hrun
  rw [ht'.lat, ht'.lng, ht'.z]
  exact ⟨hrun, ⟨rfl, ht'.kind_eq, ht'.lat, rfl, ht'.z, ht'.vacc, ht'.shift⟩⟩

/-- The third axis delivers the point. -/
theorem VarintRun.z (h : VarintRun .z v l s u) (hs : DecAt .z kind acc s) :
    Runs l s [{ acc with z := acc.z + zigzagDecode v }] u ∧
      DecAt .lat kind { acc with z := acc.z + zigzagDecode v } u := by
  obtain ⟨t, pos, flags, rfl, ht⟩ := h.finishes
  have ht' := hs.cleared ht
  rw [finishVarint_z] at h ⊢
  have hrun := h.runs rfl rfl
  rw [ht'.lat, ht'.lng, ht'.z] at hrun
  rw [ht'.lat, ht'.lng, ht'.z]
  exact ⟨hrun, ⟨rfl, ht'.kind_eq, ht'.lat, ht'.lng, rfl, ht'.vacc, ht'.shift⟩⟩

end Phases

/-! ### The point stream -/

/-- The error or the points that the responses of symbols and DEND tell. -/
def streamResult (rs : List Response) : Except Status (List Point) :=
  match firstError rs with
  | some e => .error e
  | none => .ok (pointEvents rs)

/-- The symbols `l`, and DEND after them, have the result `res` from state `s`. -/
def Gives (l : List Word) (s : State) (res : Except Status (List Point)) : Prop :=
  ∃ rs u, runOps (symbolOps l) s = some (rs, u) ∧ streamResult rs = res

theorem symbolOps_append (l l' : List Word) :
    symbolOps (l ++ l') = l.map .dsym ++ symbolOps l' := by
  rw [symbolOps, List.map_append, List.append_assoc]
  rfl

/-- Symbols answered OK add their points to the result of what follows. -/
theorem Gives.prepend {l l' : List Word} {s u : State} {pts : List Point}
    {res : Except Status (List Point)} (h : Runs l s pts u) (h' : Gives l' u res) :
    Gives (l ++ l') s (res.map (pts ++ ·)) := by
  obtain ⟨rs, hrun, hok, rfl⟩ := h
  obtain ⟨rs', w, hrun', rfl⟩ := h'
  refine ⟨rs ++ rs', w, ?_, ?_⟩
  · rw [symbolOps_append]
    exact runOps_two hrun hrun'
  · simp only [streamResult, firstError_append_ok hok, pointEvents_append]
    cases firstError rs' <;> rfl

/-- In front of an error nothing is added. -/
theorem Gives.prepend_error {l l' : List Word} {s u : State} {pts : List Point} {e : Status}
    (h : Runs l s pts u) (h' : Gives l' u (.error e)) : Gives (l ++ l') s (.error e) :=
  Gives.prepend h h'

/-- The responses of a failure: its code is the first error. -/
theorem Fails.responses {e : Status} {l : List Word} {s : State} (h : Fails e l s) :
    ∃ rs u, runOps (symbolOps l) s = some (rs, u) ∧ firstError rs = some e := by
  cases h with
  | @atSymbol pre rest rs r w hl hrun hsilent hr he =>
    obtain ⟨rs', u, hrest⟩ := runOps_answers (symbolOps rest) w
    refine ⟨rs ++ [r] ++ rs', u, ?_, ?_⟩
    · rw [hl, symbolOps_append]
      exact runOps_two hrun hrest
    · subst hr
      rw [List.append_assoc, firstError_append_ok hsilent.ok]
      exact firstError_cons_error he rs'
  | @atDend rs r w w' hrun hsilent hdend hr he =>
    refine ⟨rs ++ [r], w', runOps_two hrun (runOps_cons_eq_some.2 ⟨r, w', [], hdend, rfl, rfl⟩), ?_⟩
    subst hr
    rw [firstError_append_ok hsilent.ok]
    exact firstError_cons_error he []

theorem Fails.gives {e : Status} {l : List Word} {s : State} (h : Fails e l s) :
    Gives l s (.error e) := by
  obtain ⟨rs, u, hrun, hfirst⟩ := h.responses
  exact ⟨rs, u, hrun, by simp only [streamResult, hfirst]⟩

/-- DEND between the varints of a point (spec/43_point_stream.md R165). -/
theorem DecAt.gives_truncated {p : Phase} {kind : BitVec 3} {acc : Point} {s : State}
    (h : DecAt p kind acc s) (hp : p = .lng ∨ p = .z) : Gives [] s (.error .truncatedPoint) := by
  have hdend := perform_of_exec (exec_dend_truncated h.st hp h.shift) rfl
  exact Fails.gives (.atDend rfl nofun hdend rfl nofun)

/-- DEND at a point boundary (spec/43_point_stream.md R165). -/
theorem DecAt.gives_complete {kind : BitVec 3} {acc : Point} {s : State}
    (h : DecAt .lat kind acc s) : Gives [] s (.ok []) := by
  have hdend := perform_of_exec (exec_dend_complete h.st h.shift) rfl
  exact ⟨_, _, runOps_cons_eq_some.2 ⟨_, _, [], hdend, rfl, rfl⟩, rfl⟩

/-- What the block does with one point of a whole string, by what the reference decoder makes of it:
it fails with the code, or delivers the point and is ready for the next. -/
inductive PointRead (str : List Word) (kind : BitVec 3) (i : Nat) (s : State) :
    Except Status (Point × Nat) → Prop
  | error {e : Status} (h : Gives (str.drop i) s (.error e)) : PointRead str kind i s (.error e)
  | ok {p : Point} {i' : Nat} {l : List Word} {u : State} (hi : i < i') (hi' : i' ≤ str.length)
      (hl : str.drop i = l ++ str.drop i') (hrun : Runs l s [p] u) (hu : DecAt .lat kind p u) :
      PointRead str kind i s (.ok (p, i'))

/-- Symbols of the same point in front. -/
theorem PointRead.prepend {str : List Word} {kind : BitVec 3} {i j : Nat} {s u : State}
    {l : List Word} {res : Except Status (Point × Nat)} (hl : str.drop i = l ++ str.drop j)
    (hij : i ≤ j) (hrun : Runs l s [] u) (h : PointRead str kind j u res) :
    PointRead str kind i s res := by
  cases h with
  | error h => exact .error (hl ▸ Gives.prepend_error hrun h)
  | ok hi hi' hl' hrun' hu =>
    exact .ok (by omega) hi' (by rw [hl, hl', List.append_assoc]) (hrun.append hrun') hu

/-- Where the string ends inside a point the block answers TruncatedPoint. -/
theorem DecAt.pointRead_truncated {p : Phase} {kind : BitVec 3} {acc : Point} {s : State}
    {str : List Word} {i : Nat} (h : DecAt p kind acc s) (hp : p = .lng ∨ p = .z)
    (hi : i = str.length) : PointRead str kind i s (.error .truncatedPoint) := by
  refine .error ?_
  rw [hi, List.drop_length]
  exact h.gives_truncated hp

/-- One point, axis by axis (spec/43_point_stream.md R171, body of the loop). -/
theorem pointRead_decodePoint {str : List Word} {kind : BitVec 3} {i : Nat} {acc : Point}
    {s : State} (h : DecAt .lat kind acc s) (hi : i < str.length) :
    PointRead str kind i s (decodePoint str kind i acc) := by
  unfold decodePoint
  cases hlat : readValue str i with
  | error e => exact .error (fails_of_readValue h hlat (.inl hi)).gives
  | ok x =>
    obtain ⟨v, n⟩ := x
    obtain ⟨hn, hle, l, u, hl, hv⟩ := varintRun_of_readValue h hlat
    obtain ⟨hrun, hu⟩ := hv.lat h
    refine PointRead.prepend hl (Nat.le_add_right i n) hrun ?_
    dsimp only
    split
    case isTrue hend => exact hu.pointRead_truncated (.inl rfl) hend
    case isFalse hend =>
      cases hlng : readValue str (i + n) with
      | error e => exact .error (fails_of_readValue hu hlng (.inl (by omega))).gives
      | ok y =>
        obtain ⟨v', n'⟩ := y
        obtain ⟨hn', hle', l', u', hl', hv'⟩ := varintRun_of_readValue hu hlng
        dsimp only
        split
        case isFalse hk =>
          obtain ⟨hrun', hu'⟩ := hv'.lng_two hu (not_not.1 hk)
          exact .ok (by omega) hle' hl' hrun' hu'
        case isTrue hk =>
          obtain ⟨hrun', hu'⟩ := hv'.lng_three hu hk
          refine PointRead.prepend hl' (Nat.le_add_right _ n') hrun' ?_
          split
          case isTrue hend' => exact hu'.pointRead_truncated (.inr rfl) hend'
          case isFalse hend' =>
            cases hz : readValue str (i + n + n') with
            | error e => exact .error (fails_of_readValue hu' hz (.inl (by omega))).gives
            | ok w =>
              obtain ⟨v'', n''⟩ := w
              obtain ⟨hn'', hle'', l'', u'', hl'', hv''⟩ := varintRun_of_readValue hu' hz
              obtain ⟨hrun'', hu''⟩ := hv''.z hu'
              exact .ok (by omega) hle'' hl'' hrun'' hu''

/-- The points of a whole string: the block has the result of the reference decoder's loop
(spec/43_point_stream.md R171). -/
theorem gives_decodePoints (str : List Word) (kind : BitVec 3) (fuel : Nat) {i : Nat} {acc : Point}
    {s : State} (h : DecAt .lat kind acc s) (hi : i ≤ str.length) (hfuel : str.length - i ≤ fuel) :
    Gives (str.drop i) s (decodePoints str kind fuel i acc) := by
  induction fuel generalizing i acc s with
  | zero =>
    rw [show i = str.length by omega, List.drop_length]
    exact h.gives_complete
  | succ fuel ih =>
    unfold decodePoints
    split
    case isFalse hend =>
      rw [show i = str.length by omega, List.drop_length]
      exact h.gives_complete
    case isTrue hmore =>
      cases hpoint : decodePoint str kind i acc with
      | error e =>
        have hread := pointRead_decodePoint h hmore
        rw [hpoint] at hread
        cases hread with
        | error herror => exact herror
      | ok x =>
        obtain ⟨p, i'⟩ := x
        have hread := pointRead_decodePoint h hmore
        rw [hpoint] at hread
        cases hread with
        | ok hlt hle hl hrun hu =>
          have hrest := Gives.prepend hrun (ih hu hle (by omega))
          rw [← hl] at hrest
          dsimp only
          cases hpts : decodePoints str kind fuel i' p with
          | error e => rwa [hpts] at hrest
          | ok pts => rwa [hpts] at hrest

/-! ### Version and header -/

/-- What the block does with version and header of a whole string, by what the reference decoder
makes of them. -/
inductive HeaderRead (str : List Word) (s : State) : Except Status (Header × Nat) → Prop
  | error {e : Status} (h : Fails e str s) : HeaderRead str s (.error e)
  | ok {w : Word} {n : Nat} {lv lh : List Word} {u u' : State} (hn : n ≤ str.length)
      (hstr : str = lv ++ (lh ++ str.drop n)) (hversion : VarintRun .version 1 lv s u)
      (hheader : VarintRun .header w lh u u') : HeaderRead str s (.ok (unpackHeader w, n))

theorem headerRead_decodeHeader {str : List Word} {kind : BitVec 3} {acc : Point} {s : State}
    (h : DecAt .version kind acc s) : HeaderRead str s (decodeHeader str) := by
  unfold decodeHeader
  cases hver : readValue str 0 with
  | error e => exact .error (fails_of_readValue h hver (.inr (.inl rfl)))
  | ok x =>
    obtain ⟨v, n⟩ := x
    obtain ⟨-, hle, lv, u, hlv, hv⟩ := varintRun_of_readValue h hver
    rw [List.drop_zero, Nat.zero_add] at hlv
    dsimp only
    split
    case isTrue hbad =>
      rw [hlv]
      exact .error (hv.version_unsupported hbad _)
    case isFalse hgood =>
      obtain rfl : v = 1 := not_not.1 hgood
      obtain ⟨⟨rs, hrun, hsilent⟩, hu⟩ := hv.version h
      cases hhead : readValue str n with
      | error e =>
        have hfails := Fails.prepend hrun hsilent
          (fails_of_readValue hu hhead (.inr (.inr rfl)))
        rw [← hlv] at hfails
        exact .error hfails
      | ok y =>
        obtain ⟨w, n'⟩ := y
        obtain ⟨-, hle', lh, u', hlh, hw⟩ := varintRun_of_readValue hu hhead
        rw [hlh] at hlv
        exact .ok hle' hlv hv hw

/-- The registers after DSTART (spec/43_point_stream.md R158). -/
def dstarted (s : State) : State :=
  { s with dec := { DecRegs.reset with st := .inPhase .version }, resp := some okResponse }

theorem perform_dstart_eq (s : State) : perform .dstart s = some (okResponse, dstarted s) :=
  perform_dstart s

theorem decAt_dstarted (s : State) :
    DecAt .version 0 { lat := 0, lng := 0, z := 0 } (dstarted s) :=
  ⟨rfl, rfl, rfl, rfl, rfl, rfl, rfl⟩

/-! ### The outcome of `DECODE` -/

/-- A HEADER event carries the header fields, none cut off (spec/30_encoding.md R84). -/
theorem headerOfEvent_headerResponse (h : Header) : headerOfEvent (headerResponse h) = h := by
  have hp2 : (zext64 h.p2).extractLsb' 0 4 = h.p2 := by
    apply BitVec.eq_of_toNat_eq
    simp [zext64]
    exact h.p2.isLt
  have hkind : (zext64 h.kind).extractLsb' 0 3 = h.kind := by
    apply BitVec.eq_of_toNat_eq
    simp [zext64]
    exact h.kind.isLt
  simp only [headerOfEvent, headerResponse, hp2, hkind]

/-- The header is that of the first HEADER event. -/
theorem headerEvent_silent_header {rs : List Response} (h : Silent rs) (hd : Header)
    (rs' : List Response) : headerEvent (rs ++ headerResponse hd :: rs') = some hd := by
  induction rs with
  | nil =>
    have hfirst : headerEvent (headerResponse hd :: rs')
        = some (headerOfEvent (headerResponse hd)) := rfl
    rw [List.nil_append, hfirst, headerOfEvent_headerResponse]
  | cons r rs ih =>
    obtain ⟨hr, hrs⟩ := List.forall_mem_cons.1 h
    subst hr
    exact ih hrs

section Decode

variable {syms : List Word} {s u : State} {rs : List Response}
  (hrun : runOps (symbolOps syms) (dstarted s) = some (rs, u))
include hrun

/-- `DECODE` from the responses after its DSTART. -/
theorem runOps_decodeOps_of_dstarted :
    runOps (decodeOps syms) s = some (okResponse :: rs, u) := by
  rw [decodeOps_eq]
  exact runOps_cons_eq_some.2 ⟨_, _, rs, perform_dstart_eq s, hrun, rfl⟩

theorem runDecode_of_error {e : Status} (he : firstError rs = some e) :
    runDecode syms s = some (.error e) := by
  have hfirst : firstError (okResponse :: rs) = some e := by
    rw [firstError_cons_ok rfl, he]
  rw [runDecode_eq (runOps_decodeOps_of_dstarted hrun), hfirst]

theorem runDecode_of_ok {hd : Header} (hok : ∀ r ∈ rs, r.st = .ok) (hh : headerEvent rs = some hd) :
    runDecode syms s = some (.ok { header := hd, pts := pointEvents rs }) := by
  have hfirst : firstError (okResponse :: rs) = none :=
    firstError_eq_none_iff.2 (List.forall_mem_cons.2 ⟨rfl, hok⟩)
  have hhead : headerEvent (okResponse :: rs) = some hd := hh
  rw [runDecode_eq (runOps_decodeOps_of_dstarted hrun), hfirst, hhead]
  rfl

end Decode

/-- A read header and the result of the points after it. -/
theorem runDecode_of_header {w : Word} {lv lh rest : List Word} {s u u' : State}
    {res : Except Status (List Point)} (hversion : VarintRun .version 1 lv (dstarted s) u)
    (hheader : VarintRun .header w lh u u') (hrest : Gives rest u' res) :
    runDecode (lv ++ (lh ++ rest)) s =
      some (res.map (fun pts => { header := unpackHeader w, pts := pts })) := by
  obtain ⟨⟨rsv, hrunv, hsilentv⟩, hu⟩ := hversion.version (decAt_dstarted s)
  obtain ⟨hresp, -, -⟩ := hheader.header hu
  obtain ⟨rsh, r, hrunh, hsilenth, hr⟩ := hheader.answers
  obtain rfl : headerResponse (unpackHeader w) = r := Option.some.inj (hresp.symm.trans hr)
  obtain ⟨rs, x, hrunr, rfl⟩ := hrest
  have hsilent : Silent (rsv ++ rsh) := List.forall_mem_append.2 ⟨hsilentv, hsilenth⟩
  have hrun : runOps (symbolOps (lv ++ (lh ++ rest))) (dstarted s) =
      some ((rsv ++ rsh) ++ headerResponse (unpackHeader w) :: rs, x) := by
    rw [symbolOps_append, symbolOps_append, List.append_assoc rsv,
      List.append_cons rsh (headerResponse (unpackHeader w)) rs]
    exact runOps_two hrunv (runOps_two hrunh hrunr)
  have hfirst : firstError ((rsv ++ rsh) ++ headerResponse (unpackHeader w) :: rs)
      = firstError rs := by
    rw [firstError_append_ok hsilent.ok, firstError_cons_ok rfl]
  unfold streamResult
  cases he : firstError rs with
  | some e => exact runDecode_of_error hrun (hfirst.trans he)
  | none =>
    have hok := firstError_eq_none_iff.1 (hfirst.trans he)
    rw [runDecode_of_ok hrun hok (headerEvent_silent_header hsilent _ rs), pointEvents_append,
      hsilent.pointEvents]
    rfl

/-- Settles O52: version and header fail or are read as by the reference decoder, and so are the
points. -/
theorem decodeTransactionComputesDecodeString :
    Obligations.DecodeTransactionComputesDecodeString := by
  intro syms s
  have hheader := headerRead_decodeHeader (str := syms) (decAt_dstarted s)
  unfold decodeString
  cases hd : decodeHeader syms with
  | error e =>
    rw [hd] at hheader
    cases hheader with
    | error hfails =>
      obtain ⟨rs, u, hrun, hfirst⟩ := hfails.responses
      exact runDecode_of_error hrun hfirst
  | ok x =>
    rw [hd] at hheader
    cases hheader with
    | @ok w n lv lh u u' hn hstr hversion hheader =>
      obtain ⟨-, hu⟩ := hversion.version (decAt_dstarted s)
      obtain ⟨-, -, hu'⟩ := hheader.header hu
      have hpoints := gives_decodePoints syms (unpackHeader w).kind syms.length hu' hn (by omega)
      have hrun := runDecode_of_header hversion hheader hpoints
      rw [← hstr] at hrun
      rw [hrun]
      dsimp only
      rcases decodePoints syms (unpackHeader w).kind syms.length n { lat := 0, lng := 0, z := 0 }
        with e | pts
      · rfl
      · rfl

/-! ### A peek -/

/-- A peek goes past symbols that tell nothing. -/
theorem peekSymbols_silent {l l' : List Word} {s u : State} {rs : List Response}
    (hrun : runOps (l.map .dsym) s = some (rs, u)) (hsilent : Silent rs) :
    peekSymbols (l ++ l') s = peekSymbols l' u := by
  induction l generalizing s rs with
  | nil => cases hrun; rfl
  | cons c l ih =>
    obtain ⟨r, t, rs', hp, ht, rfl⟩ := runOps_cons_eq_some.1 hrun
    obtain ⟨rfl, hsilent'⟩ := List.forall_mem_cons.1 hsilent
    rw [← ih ht hsilent', List.cons_append]
    simp only [peekSymbols, hp]
    rfl

/-- A run that ends with a response is a run up to its last symbol and that symbol. -/
theorem runOps_last {l : List Word} {s u : State} {rs : List Response} {r : Response}
    (hrun : runOps (l.map .dsym) s = some (rs ++ [r], u)) :
    ∃ pre c t, l = pre ++ [c] ∧ runOps (pre.map .dsym) s = some (rs, t) ∧
      perform (.dsym c) t = some (r, u) := by
  induction rs generalizing l s with
  | nil =>
    cases l with
    | nil => cases hrun
    | cons c l =>
      obtain ⟨r', t, rs', hp, ht, heq⟩ := runOps_cons_eq_some.1 hrun
      cases heq
      have hl : l = [] := List.map_eq_nil_iff.1 (List.length_eq_zero_iff.1 (runOps_length ht).symm)
      subst hl
      cases ht
      exact ⟨[], c, s, rfl, rfl, hp⟩
  | cons x rs ih =>
    cases l with
    | nil => cases hrun
    | cons c l =>
      obtain ⟨r', t, rs', hp, ht, heq⟩ := runOps_cons_eq_some.1 hrun
      cases heq
      obtain ⟨pre, c', t', rfl, hpre, hlast⟩ := ih ht
      exact ⟨c :: pre, c', t', rfl, runOps_cons_eq_some.2 ⟨_, _, _, hp, hpre, rfl⟩, hlast⟩

/-- A peek ends with the code at which the string fails (spec/44_system_and_host.md R187). -/
theorem Fails.peek {e : Status} {l : List Word} {s : State} (h : Fails e l s) :
    ∃ u, peekSymbols l s = some (.error e, u) := by
  cases h with
  | @atSymbol pre rest rs r u hl hrun hsilent hr he =>
    obtain ⟨pre', c, t, rfl, hpre, hlast⟩ := runOps_last hrun
    subst hr
    refine ⟨u, ?_⟩
    rw [hl, List.append_assoc, peekSymbols_silent hpre hsilent]
    simp only [List.cons_append, peekSymbols, hlast, if_pos he]
  | @atDend rs r u u' hrun hsilent hdend hr he =>
    subst hr
    refine ⟨u', ?_⟩
    have hpast := peekSymbols_silent (l' := []) hrun hsilent
    rw [List.append_nil] at hpast
    rw [hpast]
    simp only [peekSymbols, hdend, Option.map_some]

/-- A peek ends with the kind at the HEADER event (spec/44_system_and_host.md R187). -/
theorem VarintRun.peek_header {w : Word} {l rest : List Word} {s u : State} {kind : BitVec 3}
    {acc : Point} (h : VarintRun .header w l s u) (hs : DecAt .header kind acc s) :
    peekSymbols (l ++ rest) s = some (.ok (unpackHeader w).kind, u) := by
  obtain ⟨hresp, -, -⟩ := h.header hs
  obtain ⟨rs, r, hrun, hsilent, hr⟩ := h.answers
  obtain rfl : headerResponse (unpackHeader w) = r := Option.some.inj (hresp.symm.trans hr)
  obtain ⟨pre, c, t, rfl, hpre, hlast⟩ := runOps_last hrun
  have hok : ¬ (headerResponse (unpackHeader w)).st ≠ .ok := not_not_intro rfl
  have hevent : (headerResponse (unpackHeader w)).ev = .header := rfl
  rw [List.append_assoc, peekSymbols_silent hpre hsilent]
  simp only [List.cons_append, peekSymbols, hlast, if_neg hok, if_pos hevent,
    headerOfEvent_headerResponse]

/-- Settles O53: a peek is past the version when the header's event or an error ends it. -/
theorem peekReadsKindOfHeader : Obligations.PeekReadsKindOfHeader := by
  intro syms s
  have hpeek : runPeek syms s = peekSymbols syms (dstarted s) := by
    simp only [runPeek, perform_dstart_eq, Option.bind_some]
  have hheader := headerRead_decodeHeader (str := syms) (decAt_dstarted s)
  rw [hpeek]
  cases hd : decodeHeader syms with
  | error e =>
    rw [hd] at hheader
    cases hheader with
    | error hfails =>
      obtain ⟨u, hu⟩ := hfails.peek
      refine ⟨u, fun e' he' => ?_, fun _ _ hok => nomatch hok⟩
      cases he'
      exact hu
  | ok x =>
    rw [hd] at hheader
    cases hheader with
    | @ok w n lv lh u u' hn hstr hversion hheader =>
      obtain ⟨⟨rs, hrun, hsilent⟩, hu⟩ := hversion.version (decAt_dstarted s)
      obtain ⟨-, hhv, hu'⟩ := hheader.header hu
      refine ⟨u', fun _ herror => (nomatch herror), fun h n' hok => ?_⟩
      cases hok
      refine ⟨?_, hu'.st, hu'.kind_eq, hhv⟩
      rw [hstr, peekSymbols_silent hrun hsilent]
      exact hheader.peek_header hu

/-! ### When there is an outcome -/

/-- Without its closing operation a transaction is not closed (spec/92_eei_decisions.md D4). -/
theorem closedTransaction_none {u : CodecUnit} {start body stop : Mnemonic} {is : List Instr}
    {rs : List Response} (h : ∀ i ∈ is, i.mnemonic ≠ stop) :
    closedTransaction u start body stop (is.zip rs) = none := by
  cases hclosed : closedTransaction u start body stop (is.zip rs) with
  | none => rfl
  | some x =>
    obtain ⟨-, hshape⟩ := closedTransaction_some hclosed
    have hstop : stop ∈ (ofUnit u (is.zip rs)).map (fun x => x.1.mnemonic) := by
      rw [hshape]
      simp
    obtain ⟨y, hy, hmn⟩ := List.mem_map.1 hstop
    exact absurd hmn (h _ (List.of_mem_zip (List.mem_filter.1 hy).1).1)

/-- The first response that is not OK is the first error (spec/60_exceptions.md R212). -/
theorem firstError_of_split {rs before after : List Response} {x : Response}
    (hsplit : rs = before ++ x :: after) (hbefore : ∀ y ∈ before, y.st = .ok) (hx : x.st ≠ .ok) :
    firstError rs = some x.st := by
  rw [hsplit, firstError_append_ok hbefore, firstError_cons_error hx]

/-- A transaction is its operations up to the last, and that one. -/
theorem runOps_closing (is : List Instr) (i : Instr) (s : State) :
    ∃ rs u r t, runOps is s = some (rs, u) ∧ perform i u = some (r, t) ∧
      runOps (is ++ [i]) s = some (rs ++ [r], t) := by
  obtain ⟨rs, u, hrun⟩ := runOps_answers is s
  obtain ⟨r, t, hp, -⟩ := perform_answers i u
  exact ⟨rs, u, r, t, hrun, hp, runOps_two hrun (runOps_cons_eq_some.2 ⟨r, t, [], hp, rfl, rfl⟩)⟩

/-- EEND emits no symbol (spec/43_point_stream.md R155). -/
theorem eend_syms {s t : State} {r : Response} (h : perform .eend s = some (r, t)) :
    r.syms = [] := by
  obtain ⟨he, hr⟩ := effect_of_perform h
  cases he <;> cases hr
  all_goals rfl

/-- DEND delivers no point (spec/43_point_stream.md R165). -/
theorem dend_ev {s t : State} {r : Response} (h : perform .dend s = some (r, t)) :
    r.ev = .none := by
  obtain ⟨he, hr⟩ := effect_of_perform h
  cases he <;> cases hr
  all_goals rfl

/-- The outcome of `ENCODE`, by its responses. -/
theorem encode_outcome (p2 k p3 : Word) (pts : List Point) (s : State) :
    let opened : List Instr := .estart p2 k p3 :: pts.map (fun p => .epoint p.lat p.lng p.z)
    ∃ rs u r t, runOps opened s = some (rs, u) ∧ perform .eend u = some (r, t) ∧
      encodeOutcome (opened.zip rs) = none ∧
      ((∀ x ∈ rs ++ [r], x.st = .ok) → runEncode p2 k p3 pts s = some (.ok (emitted rs))) ∧
      (∀ before x after, rs ++ [r] = before ++ x :: after → (∀ y ∈ before, y.st = .ok) →
        x.st ≠ .ok → runEncode p2 k p3 pts s = some (.error x.st)) := by
  intro opened
  obtain ⟨rs, u, r, t, hrun, hp, hall⟩ := runOps_closing opened .eend s
  have hopen : ∀ i ∈ opened, i.mnemonic ≠ .eend := by
    simp only [opened, List.mem_cons, List.mem_map]
    rintro i (rfl | ⟨p, -, rfl⟩) <;> nofun
  have houtcome := runEncode_eq hall
  refine ⟨rs, u, r, t, hrun, hp, ?_, fun hok => ?_, fun before x after hsplit hbefore hx => ?_⟩
  · simp only [encodeOutcome, closedTransaction_none hopen]
  · have hlast : emitted [r] = [] := by simp [emitted, eend_syms hp]
    rw [houtcome, firstError_eq_none_iff.2 hok, emitted_append, hlast, List.append_nil]
  · rw [houtcome, firstError_of_split hsplit hbefore hx]

/-- The outcome of `DECODE`, by its responses. When all are OK there was a HEADER event, because
there is an outcome at all. -/
theorem decode_outcome (syms : List Word) (s : State) :
    let opened : List Instr := .dstart :: syms.map .dsym
    ∃ rs u r t, runOps opened s = some (rs, u) ∧ perform .dend u = some (r, t) ∧
      decodeOutcome (opened.zip rs) = none ∧
      ((∀ x ∈ rs ++ [r], x.st = .ok) →
        ∃ h, runDecode syms s = some (.ok { header := h, pts := pointEvents rs })) ∧
      (∀ before x after, rs ++ [r] = before ++ x :: after → (∀ y ∈ before, y.st = .ok) →
        x.st ≠ .ok → runDecode syms s = some (.error x.st)) := by
  intro opened
  obtain ⟨rs, u, r, t, hrun, hp, hall⟩ := runOps_closing opened .dend s
  have hopen : ∀ i ∈ opened, i.mnemonic ≠ .dend := by
    simp only [opened, List.mem_cons, List.mem_map]
    rintro i (rfl | ⟨c, -, rfl⟩) <;> nofun
  have houtcome := runDecode_eq hall
  have hpoints : pointEvents (rs ++ [r]) = pointEvents rs := by
    have hlast : pointEvents [r] = [] := by simp [pointEvents, dend_ev hp]
    rw [pointEvents_append, hlast, List.append_nil]
  refine ⟨rs, u, r, t, hrun, hp, ?_, fun hok => ?_, fun before x after hsplit hbefore hx => ?_⟩
  · simp only [decodeOutcome, closedTransaction_none hopen]
  · rw [firstError_eq_none_iff.2 hok, hpoints] at houtcome
    cases hh : headerEvent (rs ++ [r]) with
    | some h => exact ⟨h, by rw [houtcome, hh]⟩
    | none =>
      rw [hh, decodeTransactionComputesDecodeString syms s] at houtcome
      cases houtcome
  · rw [houtcome, firstError_of_split hsplit hbefore hx]

/-- Settles O58, transaction by transaction. -/
theorem outcomeIsDefinedByClosingOperation : Obligations.OutcomeIsDefinedByClosingOperation :=
  ⟨encode_outcome, decode_outcome⟩

end Sys2Proof.Machine

/-! ## Encoding and decoding (spec/43_point_stream.md R170, spec/44_system_and_host.md R192)

The block run on an encoded string: each axis of a point is one varint of the encoder's delta, and
the decoder adds what it recovers of it. Within the decoder's range nothing is lost, and the host's
scaled coordinates stay in it. -/

namespace Sys2Proof.Machine

/-! ### The encoded string, point by point -/

section EncodedPoints

variable {kind : BitVec 3} {acc prev : Point} {s : State}

/-- The delta of one axis is a varint that adds what is recovered of it and keeps OVF. -/
theorem varintRun_delta {p : Phase} (h : DecAt p kind acc s) (cur last : Word) :
    ∃ v u, VarintRun p v (codePoints (deltaSyms cur last)) s u ∧
      zigzagDecode v = recoveredDelta (cur - last) ∧ flagOVF u.dec.flags = flagOVF s.dec.flags := by
  obtain ⟨u, hrun, hovf⟩ := varintRun_encodeUnsigned h (zigzagEncode (cur - last))
  exact ⟨_, u, hrun, zigzagDecode_zigzagEncode _, hovf⟩

/-- The point a decoder at `acc` delivers for the encoded point `p` after `prev`
(spec/43_point_stream.md R170). -/
def driftedPoint (k : Word) (prev acc p : Point) : Point :=
  { lat := acc.lat + recoveredDelta (p.lat - prev.lat)
    lng := acc.lng + recoveredDelta (p.lng - prev.lng)
    z := if k = 0 then acc.z else acc.z + recoveredDelta (p.z - prev.z) }

theorem driftedPoints_cons (k : Word) (prev acc p : Point) (rest : List Point) :
    driftedPoints k prev acc (p :: rest) =
      driftedPoint k prev acc p :: driftedPoints k p (driftedPoint k prev acc p) rest := rfl

/-- The symbols of one point deliver the drifted point (spec/43_point_stream.md R151, R160). -/
theorem runs_pointSyms {k : Word} (h : DecAt .lat kind acc s) (hk : kind = 0 ↔ k = 0)
    (prev p : Point) :
    ∃ u, Runs (codePoints (pointSyms k prev p)) s [driftedPoint k prev acc p] u ∧
      DecAt .lat kind (driftedPoint k prev acc p) u ∧
      flagOVF u.dec.flags = flagOVF s.dec.flags := by
  obtain ⟨v₁, u₁, hv₁, hlat, hovf₁⟩ := varintRun_delta h p.lat prev.lat
  obtain ⟨hrun₁, h₁⟩ := hv₁.lat h
  obtain ⟨v₂, u₂, hv₂, hlng, hovf₂⟩ := varintRun_delta h₁ p.lng prev.lng
  rw [pointSyms, codePoints_append, codePoints_append]
  rw [hlat] at h₁
  by_cases hz : k = 0
  · obtain ⟨hrun₂, h₂⟩ := hv₂.lng_two h₁ (hk.2 hz)
    rw [hlng] at hrun₂ h₂
    rw [driftedPoint, if_pos hz, if_neg (not_not_intro hz), show codePoints [] = [] from rfl,
      List.append_nil]
    exact ⟨u₂, hrun₁.append hrun₂, h₂, hovf₂.trans hovf₁⟩
  · obtain ⟨hrun₂, h₂⟩ := hv₂.lng_three h₁ (mt hk.1 hz)
    rw [hlng] at h₂
    obtain ⟨v₃, u₃, hv₃, hthird, hovf₃⟩ := varintRun_delta h₂ p.z prev.z
    obtain ⟨hrun₃, h₃⟩ := hv₃.z h₂
    rw [hthird] at hrun₃ h₃
    rw [driftedPoint, if_neg hz, if_pos hz]
    exact ⟨u₃, (hrun₁.append hrun₂).append hrun₃, h₃, hovf₃.trans (hovf₂.trans hovf₁)⟩

/-- The symbols of all points deliver the drifted points and leave DEC at a point boundary
(spec/43_point_stream.md R170). -/
theorem runs_encodePoints {k : Word} (h : DecAt .lat kind acc s) (hk : kind = 0 ↔ k = 0)
    (pts : List Point) :
    ∃ u acc', Runs (codePoints (encodePoints k prev pts)) s (driftedPoints k prev acc pts) u ∧
      DecAt .lat kind acc' u ∧ flagOVF u.dec.flags = flagOVF s.dec.flags := by
  induction pts generalizing acc prev s with
  | nil => exact ⟨s, acc, ⟨[], rfl, nofun, rfl⟩, h, rfl⟩
  | cons p rest ih =>
    obtain ⟨u, hrun, hu, hovf⟩ := runs_pointSyms h hk prev p
    obtain ⟨w, acc', hrest, hw, hovf'⟩ := ih (prev := p) hu
    refine ⟨w, acc', ?_, hw, hovf'.trans hovf⟩
    rw [encodePoints_cons, codePoints_append, driftedPoints_cons]
    exact hrun.append hrest

end EncodedPoints

/-! ### The whole string -/

/-- The header fields a decoder reads from accepted operands (spec/42_header.md R138). -/
theorem unpackHeader_of_operands {p2 k p3 : Word} (hv : validate p2 k p3 = none) :
    unpackHeader (packHeader (precisionBits p2) (kindBits k) (precisionBits p3)) =
      { p2 := BitVec.ofNat 4 p2.toNat, kind := BitVec.ofNat 3 k.toNat, p3 := p3 } := by
  have hp3 : p3.toNat ≤ 15 := by
    rw [validate_eq] at hv
    split_ifs at hv with hp
    omega
  have hthird : BitVec.ofNat 64 (precisionBits p3).toNat = p3 := by
    rw [precisionBits_eq_ofNat, BitVec.toNat_ofNat, Nat.mod_eq_of_lt (by omega),
      BitVec.ofNat_toNat, BitVec.setWidth_eq]
  rw [unpackHeader_packHeader, hthird, precisionBits_eq_ofNat, kindBits_eq_ofNat]

/-- What `ENCODE` gives is the string of an accepted header (spec/44_system_and_host.md R185). -/
theorem string_of_runEncode {p2 k p3 : Word} {pts : List Point} {s : State} {str : List Sym}
    (h : runEncode p2 k p3 pts s = some (.ok str)) :
    validate p2 k p3 = none ∧
      str = encodeUnsigned 1
        ++ encodeUnsigned (packHeader (precisionBits p2) (kindBits k) (precisionBits p3))
        ++ encodePoints k { lat := 0, lng := 0, z := 0 } pts := by
  rw [runEncode_eq_encodeInts, Option.some.injEq] at h
  unfold encodeInts at h
  split at h
  case h_1 => cases h
  case h_2 hv => exact ⟨hv, (Except.ok.inj h).symm⟩

/-- DSTART clears OVF (spec/10_state.md R45). -/
theorem flagOVF_dstarted (s : State) : flagOVF (dstarted s).dec.flags = false := by
  simp [dstarted, DecRegs.reset, flagOVF]

/-- The block on the string of an accepted header: version, header and points, with OVF still 0. -/
theorem runs_string {p2 k p3 : Word} (hv : validate p2 k p3 = none) (pts : List Point) (s : State) :
    let w := packHeader (precisionBits p2) (kindBits k) (precisionBits p3)
    ∃ u u' u'' acc, VarintRun .version 1 (codePoints (encodeUnsigned 1)) (dstarted s) u ∧
      VarintRun .header w (codePoints (encodeUnsigned w)) u u' ∧
      Runs (codePoints (encodePoints k { lat := 0, lng := 0, z := 0 } pts)) u'
        (driftedPoints k { lat := 0, lng := 0, z := 0 } { lat := 0, lng := 0, z := 0 } pts) u'' ∧
      DecAt .lat (kindBits k) acc u'' ∧ flagOVF u''.dec.flags = false := by
  intro w
  have hstart := decAt_dstarted s
  obtain ⟨u, hversion, hovf⟩ := varintRun_encodeUnsigned hstart 1
  obtain ⟨-, hu⟩ := hversion.version hstart
  obtain ⟨u', hheader, hovf'⟩ := varintRun_encodeUnsigned hu w
  obtain ⟨-, -, hu'⟩ := hheader.header hu
  rw [unpackHeader_packHeader] at hu'
  obtain ⟨u'', acc, hrun, hu'', hovf''⟩ :=
    runs_encodePoints (prev := { lat := 0, lng := 0, z := 0 }) hu' (kindBits_eq_zero_iff hv) pts
  rw [flagOVF_dstarted] at hovf
  exact ⟨u, u', u'', acc, hversion, hheader, hrun, hu'', hovf''.trans (hovf'.trans hovf)⟩

/-- Settles O55: the points the block delivers for a string that `ENCODE` gave. -/
theorem roundTripDriftsByUnrecoverableDeltas :
    Obligations.RoundTripDriftsByUnrecoverableDeltas := by
  intro p2 k p3 pts s s' str h
  obtain ⟨hv, rfl⟩ := string_of_runEncode h
  obtain ⟨u, u', u'', acc, hversion, hheader, hrun, hu'', -⟩ := runs_string hv pts s'
  have hdecode := runDecode_of_header hversion hheader (Gives.prepend hrun hu''.gives_complete)
  rw [List.append_nil, unpackHeader_of_operands hv, ← codePoints_append, ← codePoints_append,
    ← List.append_assoc] at hdecode
  rw [hdecode]
  simp only [Except.map, List.append_nil]

/-! ### Deltas in the decoder's range -/

/-- A recoverable delta gives the encoder's value from the encoder's last one. -/
theorem add_recoveredDelta {cur last : Word} (h : recoverable (cur - last)) :
    last + recoveredDelta (cur - last) = cur := by
  rw [(recoveredDelta_eq_self_iff _).2 h]
  exact add_sub_cancel last cur

/-- One point: a decoder at the last delivered point delivers the next. -/
theorem driftedPoint_of_recoverable {k : Word} {prev p : Point}
    (hlat : recoverable (p.lat - prev.lat)) (hlng : recoverable (p.lng - prev.lng))
    (hz : k ≠ 0 → recoverable (p.z - prev.z)) :
    driftedPoint k prev (deliveredPoint k prev) p = deliveredPoint k p := by
  by_cases hk : k = 0
  · simp only [driftedPoint, deliveredPoint, if_pos hk, add_recoveredDelta hlat,
      add_recoveredDelta hlng]
  · simp only [driftedPoint, deliveredPoint, if_neg hk, add_recoveredDelta hlat,
      add_recoveredDelta hlng, add_recoveredDelta (hz hk)]

/-- All points (spec/43_point_stream.md R170). -/
theorem driftedPoints_of_recoverable {k : Word} {prev : Point} {pts : List Point}
    (h : recoverableDeltas k prev pts) :
    driftedPoints k prev (deliveredPoint k prev) pts = pts.map (deliveredPoint k) := by
  induction pts generalizing prev with
  | nil => rfl
  | cons p rest ih =>
    obtain ⟨hlat, hlng, hz, hrest⟩ := h
    rw [driftedPoints_cons, driftedPoint_of_recoverable hlat hlng hz, ih hrest, List.map_cons]

/-- At the origin nothing is to deliver yet. -/
theorem deliveredPoint_origin (k : Word) :
    deliveredPoint k { lat := 0, lng := 0, z := 0 } = { lat := 0, lng := 0, z := 0 } := by
  unfold deliveredPoint
  split
  · rfl
  · rfl

/-- The round trip itself (spec/43_point_stream.md R170). -/
theorem runDecode_of_recoverable {p2 k p3 : Word} {pts : List Point} {s : State} {str : List Sym}
    (h : runEncode p2 k p3 pts s = some (.ok str))
    (hdeltas : recoverableDeltas k { lat := 0, lng := 0, z := 0 } pts) (s' : State) :
    runDecode (codePoints str) s' = some (.ok
      { header := { p2 := BitVec.ofNat 4 p2.toNat, kind := BitVec.ofNat 3 k.toNat, p3 := p3 }
        pts := pts.map (deliveredPoint k) }) := by
  have hdrift := driftedPoints_of_recoverable hdeltas
  rw [deliveredPoint_origin] at hdrift
  rw [roundTripDriftsByUnrecoverableDeltas p2 k p3 pts s s' str h, hdrift]

/-- A polyline is the outcome only when every response is OK, and it has the points of the events
(spec/60_exceptions.md R212). -/
theorem responses_of_runDecode_ok {syms : List Word} {s u : State} {rs : List Response}
    {pl : Polyline} (h : runDecode syms s = some (.ok pl))
    (hrun : runOps (decodeOps syms) s = some (rs, u)) :
    (∀ r ∈ rs, r.st = .ok) ∧ pl.pts = pointEvents rs := by
  rw [runDecode_eq hrun] at h
  cases he : firstError rs with
  | some e =>
    rw [he] at h
    cases h
  | none =>
    rw [he] at h
    refine ⟨firstError_eq_none_iff.1 he, ?_⟩
    cases hh : headerEvent rs with
    | none =>
      rw [hh] at h
      cases h
    | some hd =>
      rw [hh] at h
      cases h
      rfl

/-- The responses to the string of an accepted header end with the number of points delivered, and
OVF is 0 (spec/43_point_stream.md R165, R170). -/
theorem runOps_decodeOps_string {p2 k p3 : Word} (hv : validate p2 k p3 = none) (pts : List Point)
    (s : State) :
    let str := encodeUnsigned 1
      ++ encodeUnsigned (packHeader (precisionBits p2) (kindBits k) (precisionBits p3))
      ++ encodePoints k { lat := 0, lng := 0, z := 0 } pts
    ∃ rs u, runOps (decodeOps (codePoints str)) s = some (rs, u) ∧
      rs.getLast?.map (·.r0) = some (BitVec.ofNat 64 (pointEvents rs).length) ∧
      flagOVF u.dec.flags = false := by
  intro str
  obtain ⟨u, u', u'', acc, hversion, hheader, ⟨rs, hrun, -, -⟩, hu'', hovf⟩ := runs_string hv pts s
  obtain ⟨rsv, rv, hrunv, -, -⟩ := hversion.answers
  obtain ⟨rsh, rh, hrunh, -, -⟩ := hheader.answers
  have hsyms : runOps ((codePoints str).map .dsym) (dstarted s) =
      some ((rsv ++ [rv]) ++ (rsh ++ [rh]) ++ rs, u'') := by
    rw [codePoints_append, codePoints_append, List.map_append, List.map_append]
    exact runOps_two (runOps_two hrunv hrunh) hrun
  have hdend := perform_of_exec (exec_dend_complete hu''.st hu''.shift) rfl
  have hcount := runOps_dsym_npts hsyms
  rw [show (dstarted s).dec.npts = 0#64 from rfl, BitVec.zero_add] at hcount
  refine ⟨_, _, runOps_decodeOps_of_dstarted
    (runOps_two hsyms (runOps_cons_eq_some.2 ⟨_, _, [], hdend, rfl, rfl⟩)), ?_, hovf⟩
  have hpoints (xs : List Response) (n : Word) :
      pointEvents (okResponse :: (xs ++ [{ okResponse with r0 := n }])) = pointEvents xs := by
    rw [← List.singleton_append, pointEvents_append, pointEvents_append]
    exact List.append_nil _
  rw [hpoints, ← hcount, ← List.cons_append, List.getLast?_concat]
  rfl

/-- Settles O54: no delta drifts, and the responses are those of the string. -/
theorem roundTripOfRecoverablePoints : Obligations.RoundTripOfRecoverablePoints := by
  intro p2 k p3 pts s s' str h hdeltas
  have hdecode := runDecode_of_recoverable h hdeltas s'
  refine ⟨hdecode, ?_⟩
  obtain ⟨hv, rfl⟩ := string_of_runEncode h
  obtain ⟨rs, u, hrun, hlast, hovf⟩ := runOps_decodeOps_string hv pts s'
  obtain ⟨hok, hpoints⟩ := responses_of_runDecode_ok hdecode hrun
  refine ⟨rs, u, hrun, hok, ?_, hovf⟩
  rw [hlast, ← hpoints, List.length_map]

/-! ### Host and block together -/

/-- The named rounding as a floor: up from one half at and above zero, mirrored below it
(spec/44_system_and_host.md R190). -/
theorem abs_roundHalfAway_sub_le (x : ℚ) : |(roundHalfAway x : ℚ) - x| ≤ 1 / 2 := by
  unfold roundHalfAway
  rw [abs_le]
  split
  · have hle := Int.floor_le (x + 1 / 2)
    have hlt := Int.lt_floor_add_one (x + 1 / 2)
    constructor <;> linarith
  · have hle := Int.le_ceil (x - 1 / 2)
    have hlt := Int.ceil_lt_add_one (x - 1 / 2)
    constructor <;> linarith

/-- Settles O57: a tie is moved by exactly one half, to an integer. -/
theorem roundHalfAwayStaysWithinHalf : Obligations.RoundHalfAwayStaysWithinHalf := by
  refine ⟨abs_roundHalfAway_sub_le, fun n => ?up, fun n => ?down⟩
  case up =>
    have hpos : (0 : ℚ) ≤ n + 1 / 2 := by positivity
    have hint : (n : ℚ) + 1 / 2 + 1 / 2 = ((n + 1 : ℤ) : ℚ) := by push_cast; ring
    rw [roundHalfAway, if_pos hpos, hint, Int.floor_intCast]
  case down =>
    have hneg : ¬ (0 : ℚ) ≤ -(n + 1 / 2) := by
      rw [not_le, neg_lt_zero]
      positivity
    have hint : -((n : ℚ) + 1 / 2) - 1 / 2 = ((-(n + 1) : ℤ) : ℚ) := by push_cast; ring
    rw [roundHalfAway, if_neg hneg, hint, Int.ceil_intCast]

/-- The coordinates the block reads are small enough for two of them to differ by a recoverable
delta. -/
def SmallPoint (k : Word) (p : Point) : Prop :=
  |p.lat.toInt| ≤ 2 ^ 61 - 1 ∧ |p.lng.toInt| ≤ 2 ^ 61 - 1 ∧ (k ≠ 0 → |p.z.toInt| ≤ 2 ^ 61 - 1)

/-- The difference of two small values is in the decoder's range, and does not wrap. -/
theorem recoverable_sub {cur last : Word} (hcur : |cur.toInt| ≤ 2 ^ 61 - 1)
    (hlast : |last.toInt| ≤ 2 ^ 61 - 1) : recoverable (cur - last) := by
  obtain ⟨hcl, hch⟩ := abs_le.1 hcur
  obtain ⟨hll, hlh⟩ := abs_le.1 hlast
  have hsub : (cur - last).toInt = cur.toInt - last.toInt := by
    rw [BitVec.toInt_sub]
    exact Int.bmod_eq_of_le (by omega) (by omega)
  rw [recoverable, hsub]
  omega

/-- Small points have recoverable deltas. -/
theorem recoverableDeltas_of_small {k : Word} {prev : Point} {pts : List Point}
    (hprev : SmallPoint k prev) (hpts : ∀ p ∈ pts, SmallPoint k p) :
    recoverableDeltas k prev pts := by
  induction pts generalizing prev with
  | nil => trivial
  | cons p rest ih =>
    obtain ⟨hp, hrest⟩ := List.forall_mem_cons.1 hpts
    obtain ⟨hlat, hlng, hz⟩ := hp
    obtain ⟨hlat', hlng', hz'⟩ := hprev
    exact ⟨recoverable_sub hlat hlat', recoverable_sub hlng hlng',
      fun hk => recoverable_sub (hz hk) (hz' hk), ih ⟨hlat, hlng, hz⟩ hrest⟩

section Host

variable {hostRound : ℚ → ℤ} (hround : ∀ x : ℚ, |(hostRound x : ℚ) - x| ≤ 1 / 2)
include hround

/-- Rounding within one half does not leave an integer range. -/
theorem abs_hostRound_le {x : ℚ} (hx : |x| ≤ 2 ^ 61 - 1) : |hostRound x| ≤ 2 ^ 61 - 1 := by
  obtain ⟨hlow, hhigh⟩ := abs_le.1 hx
  obtain ⟨hrl, hrh⟩ := abs_le.1 (hround x)
  have hup : (hostRound x : ℚ) < ((2 ^ 61 : ℤ) : ℚ) := by push_cast; linarith
  have hdown : ((-2 ^ 61 : ℤ) : ℚ) < hostRound x := by push_cast; linarith
  have hup' := Int.cast_lt.1 hup
  have hdown' := Int.cast_lt.1 hdown
  rw [abs_le]
  omega

/-- A scaled coordinate in range is presented as it is (spec/44_system_and_host.md R190). -/
theorem toInt_hostScaled {precision : Nat} {x : ℚ} (hx : |x * hostScale precision| ≤ 2 ^ 61 - 1) :
    (BitVec.ofInt 64 (hostScaled hostRound precision x)).toInt = hostScaled hostRound precision x ∧
      |hostScaled hostRound precision x| ≤ 2 ^ 61 - 1 := by
  have hsmall : |hostScaled hostRound precision x| ≤ 2 ^ 61 - 1 := abs_hostRound_le hround hx
  obtain ⟨hlow, hhigh⟩ := abs_le.1 hsmall
  exact ⟨toInt_ofInt_of_fits ((fitsS64_iff _).2 (by omega)), hsmall⟩

/-- Dividing by the scale gives the coordinate back within half a unit (spec/44_system_and_host.md
R192). -/
theorem hostCoordinate_close {precision : Nat} {x : ℚ} {v : Word}
    (hv : v.toInt = hostScaled hostRound precision x) :
    |hostCoordinate precision v - x| ≤ 1 / (2 * hostScale precision) := by
  have hpos : 0 < hostScale precision := by
    unfold hostScale
    positivity
  have hdiff : hostCoordinate precision v - x =
      ((hostRound (x * hostScale precision) : ℚ) - x * hostScale precision)
        / hostScale precision := by
    rw [hostCoordinate, hv, hostScaled]
    field_simp
  rw [hdiff, abs_div, abs_of_pos hpos, ← div_div]
  exact div_le_div_of_nonneg_right (hround _) hpos.le

/-- The three coordinates the host presents for a point in range (spec/44_system_and_host.md R190).
-/
theorem hostPoint_toInt {p2 k p3 : Word} {g : GeoPoint}
    (hlat : |g.lat * hostScale p2.toNat| ≤ 2 ^ 61 - 1)
    (hlng : |g.lng * hostScale p2.toNat| ≤ 2 ^ 61 - 1)
    (hz : k ≠ 0 → |g.third * hostScale p3.toNat| ≤ 2 ^ 61 - 1) :
    (hostPoint hostRound p2 k p3 g).lat.toInt = hostScaled hostRound p2.toNat g.lat ∧
    (hostPoint hostRound p2 k p3 g).lng.toInt = hostScaled hostRound p2.toNat g.lng ∧
    (k ≠ 0 → (hostPoint hostRound p2 k p3 g).z.toInt = hostScaled hostRound p3.toNat g.third) ∧
    SmallPoint k (hostPoint hostRound p2 k p3 g) := by
  obtain ⟨elat, slat⟩ := toInt_hostScaled hround hlat
  obtain ⟨elng, slng⟩ := toInt_hostScaled hround hlng
  have third (hk : k ≠ 0) :
      (hostPoint hostRound p2 k p3 g).z.toInt = hostScaled hostRound p3.toNat g.third ∧
      |hostScaled hostRound p3.toNat g.third| ≤ 2 ^ 61 - 1 := by
    simp only [hostPoint, if_neg hk]
    exact toInt_hostScaled hround (hz hk)
  exact ⟨elat, elng, fun hk => (third hk).1, elat ▸ slat, elng ▸ slng,
    fun hk => (third hk).1.symm ▸ (third hk).2⟩

end Host

@[simp] theorem deliveredPoint_lat (k : Word) (p : Point) : (deliveredPoint k p).lat = p.lat := by
  unfold deliveredPoint
  split <;> rfl

@[simp] theorem deliveredPoint_lng (k : Word) (p : Point) : (deliveredPoint k p).lng = p.lng := by
  unfold deliveredPoint
  split <;> rfl

theorem deliveredPoint_z {k : Word} (hk : k ≠ 0) (p : Point) : (deliveredPoint k p).z = p.z := by
  rw [deliveredPoint, if_neg hk]

/-- Settles O56: the scaled points are small, so they come back as they were presented, and dividing
by the scale undoes the scaling up to the rounding. -/
theorem hostRoundTripWithinHalfUnit : Obligations.HostRoundTripWithinHalfUnit := by
  intro hostRound hround p2 k p3 gs s s' hv hgs
  have hpoint (g : GeoPoint) (hg : g ∈ gs) := by
    obtain ⟨hlat, hlng, hz⟩ := hgs g hg
    exact hostPoint_toInt (k := k) (p3 := p3) hround hlat hlng hz
  obtain ⟨rs, -, -, -, henc⟩ := runOps_encodeOps_opened hv (gs.map (hostPoint hostRound p2 k p3)) s
  have hrun := runEncode_eq_encodeInts p2 k p3 (gs.map (hostPoint hostRound p2 k p3)) s
  rw [henc] at hrun
  have hsmall : ∀ p ∈ gs.map (hostPoint hostRound p2 k p3), SmallPoint k p := by
    intro p hp
    obtain ⟨g, hg, rfl⟩ := List.mem_map.1 hp
    obtain ⟨-, -, -, hsmall⟩ := hpoint g hg
    exact hsmall
  have horigin : SmallPoint k { lat := 0, lng := 0, z := 0 } := by
    unfold SmallPoint
    simp
  have hdecode := runDecode_of_recoverable hrun (recoverableDeltas_of_small horigin hsmall) s'
  refine ⟨_, _, hrun, hdecode, ?_⟩
  rw [List.map_map, List.forall₂_map_right_iff, List.forall₂_same]
  intro g hg
  obtain ⟨hlat, hlng, hz, -⟩ := hpoint g hg
  simp only [Function.comp_apply, deliveredPoint_lat, deliveredPoint_lng]
  refine ⟨hostCoordinate_close hround hlat, hostCoordinate_close hround hlng, fun hk => ?_⟩
  rw [deliveredPoint_z hk]
  exact hostCoordinate_close hround (hz hk)

end Sys2Proof.Machine
